-- ==== Sys2Proof/Word.lean ====
section
/-! DEFINITION. The word types of the sequencer: bytes, 16-bit operands, HOST addresses, descriptors. -/

namespace Sys2Proof

/-- A byte is 8 bits (00_scope.md R12). -/
abbrev Byte := BitVec 8

/-- Every coordinate, size and colour is 16 bits (00_scope.md R11, `COORD_W`). -/
abbrev Half := BitVec 16

/-- A HOST address is 32 bits (00_scope.md R11, `ADDR_W`). -/
abbrev Addr := BitVec 32

/-- A host request is one 128-bit descriptor (30_encoding.md R108). -/
abbrev Descriptor := BitVec 128

end Sys2Proof
end

