-- ==== Sys2Proof/Config.lean ====
section
/-! DEFINITION. The implementation parameters (00_scope.md R6 to R11) as one record, the spec's test
configuration T0 (95_test_vectors.md section 0), and the free values of INIT. -/

namespace Sys2Proof

/-- The twelve panel commands by name (30_encoding.md R104). -/
inductive PanelCmd where
  | slpout | noron | invoff | invon | dispon | caset | raset | ramwr | madctl | colmod
  | gmctrp1 | gmctrn1
  deriving DecidableEq, Repr

/-- All twelve, in the order of the table of R104. -/
def PanelCmd.all : List PanelCmd :=
  [.slpout, .noron, .invoff, .invon, .dispon, .caset, .raset, .ramwr, .madctl, .colmod,
   .gmctrp1, .gmctrn1]

/-- The opcode parameters `OPC_*` (R9). -/
structure Opcodes where
  slpout : Byte
  noron : Byte
  invoff : Byte
  invon : Byte
  dispon : Byte
  caset : Byte
  raset : Byte
  ramwr : Byte
  madctl : Byte
  colmod : Byte
  gmctrp1 : Byte
  gmctrn1 : Byte
  deriving DecidableEq, Repr

/-- The defaults of R9, which the rows of spec/opcode_table.json show (UNVERIFIED,
notes/assumptions/9.md). -/
def Opcodes.standard : Opcodes where
  slpout := 0x11
  noron := 0x13
  invoff := 0x20
  invon := 0x21
  dispon := 0x29
  caset := 0x2A
  raset := 0x2B
  ramwr := 0x2C
  madctl := 0x36
  colmod := 0x3A
  gmctrp1 := 0xE0
  gmctrn1 := 0xE1

/-- The opcode byte of a command (R9). -/
def Opcodes.code (o : Opcodes) : PanelCmd → Byte
  | .slpout => o.slpout
  | .noron => o.noron
  | .invoff => o.invoff
  | .invon => o.invon
  | .dispon => o.dispon
  | .caset => o.caset
  | .raset => o.raset
  | .ramwr => o.ramwr
  | .madctl => o.madctl
  | .colmod => o.colmod
  | .gmctrp1 => o.gmctrp1
  | .gmctrn1 => o.gmctrn1

/-- `COLOR_ORDER` of R8: which packing the host's colour helper uses. -/
inductive ColorOrder where
  | rgb
  | bgr
  deriving DecidableEq, Repr

/-- One instance's configuration (R6 to R11). It is fixed "once at construction" (10_state.md R45):
no step changes it. -/
structure Config where
  /-- `WIDTH` (R6). -/
  width : Nat
  /-- `HEIGHT` (R6). -/
  height : Nat
  /-- `X_OFFSET` (R6). -/
  xOffset : Half
  /-- `Y_OFFSET` (R6). -/
  yOffset : Half
  /-- `USE_CS` (R8). -/
  useCs : Bool
  /-- `INVERT` (R8). -/
  invert : Bool
  /-- `COLOR_ORDER` (R8). -/
  colorOrder : ColorOrder
  /-- `MADCTL_VALUE` (R8). -/
  madctlValue : Byte
  /-- `COLMOD_VALUE` (R8). -/
  colmodValue : Byte
  /-- `GAMMA_P[0..15]` (R8). -/
  gammaP : List Byte
  /-- `GAMMA_N[0..15]` (R8). -/
  gammaN : List Byte
  /-- the twelve `OPC_*` (R9). -/
  opcodes : Opcodes
  /-- `T_RST_LOW` in milliseconds (R10). -/
  tRstLow : Nat
  /-- `T_RST_HIGH` (R10). -/
  tRstHigh : Nat
  /-- `T_SLPOUT` (R10). -/
  tSlpout : Nat
  /-- `T_SETTLE` (R10). -/
  tSettle : Nat
  /-- `GLYPH_COUNT` (R7). -/
  glyphCount : Nat
  /-- `GLYPH`, the external read-only table: the bytes of its `5 * GLYPH_COUNT` (20_memory.md R64)
  that are not zero, by address. -/
  glyph : List (Nat × Byte)
  /-- `GRAM_COLS` (R11), for the sink model only. -/
  gramCols : Nat
  /-- `GRAM_ROWS` (R11), for the sink model only. -/
  gramRows : Nat
  deriving DecidableEq, Repr

/-- `GLYPH_W` (R7). -/
abbrev glyphW : Nat := 5
/-- `GLYPH_H` (R7). -/
abbrev glyphH : Nat := 7
/-- `CELL_W = GLYPH_W + 1` (R7). -/
abbrev cellW : Nat := 6
/-- `GLYPHBUF_CAP` (R7). -/
abbrev glyphBufCap : Nat := 70
/-- `NUMBUF_CAP` (R7). -/
abbrev numBufCap : Nat := 12
/-- `BLOCK_LEN_MAX` (R11). -/
abbrev blockLenMax : Nat := 65535
/-- `REPEAT_MAX` (R11). -/
abbrev repeatMax : Nat := 65535

/-- `ROWBUF_CAP = 2 * WIDTH` (R6). -/
def Config.rowBufCap (c : Config) : Nat := 2 * c.width

/-- The glyph table of T0 (95_test_vectors.md section 0), its bytes that are not zero: the codes
0x2D, 0x30, 0x35, 0x41, 0x48 and 0x69 at five times the code. -/
def t0Glyphs : List (Nat × Byte) :=
  [(225, 0x08), (226, 0x08), (227, 0x08), (228, 0x08), (229, 0x08),
   (240, 0x3E), (241, 0x51), (242, 0x49), (243, 0x45), (244, 0x3E),
   (265, 0x27), (266, 0x45), (267, 0x45), (268, 0x45), (269, 0x39)] ++
  [(325, 0x7E), (326, 0x11), (327, 0x11), (328, 0x11), (329, 0x7E),
   (360, 0x7F), (361, 0x08), (362, 0x08), (363, 0x08), (364, 0x7F),
   (526, 0x44), (527, 0x7D), (528, 0x40)]

/-- The spec's test configuration T0. DESIGN CHOICE (notes/assumptions/1.md): every parameter the
source leaves OPEN has a value in it only so that `State.reset` is one state; no statement rests on
one of these values. -/
def Config.t0 : Config where
  width := 160
  height := 80
  xOffset := 1
  yOffset := 26
  useCs := true
  invert := true
  colorOrder := .rgb
  madctlValue := 0xA8
  colmodValue := 0x05
  gammaP := [0x10, 0x11, 0x12, 0x13, 0x14, 0x15, 0x16, 0x17, 0x18, 0x19, 0x1A, 0x1B, 0x1C, 0x1D,
    0x1E, 0x1F]
  gammaN := [0x20, 0x21, 0x22, 0x23, 0x24, 0x25, 0x26, 0x27, 0x28, 0x29, 0x2A, 0x2B, 0x2C, 0x2D,
    0x2E, 0x2F]
  opcodes := Opcodes.standard
  tRstLow := 50
  tRstHigh := 50
  tSlpout := 120
  tSettle := 10
  glyphCount := 256
  glyph := t0Glyphs
  gramCols := 162
  gramRows := 132

/-- The free values of the model: the n-th 16-bit value drawn in a run, for the `INIT_*` of
10_state.md R50, which the spec leaves unspecified (R281, 92_eei_decisions.md D32). It has no body:
nothing can be proved that depends on one (notes/assumptions/3.md). -/
opaque Config.freeValue : Nat → Half

end Sys2Proof
end

