-- ==== Sys2Proof/Machine/Memory.lean ====
section
/-! DEFINITION. Sparse memories in one canonical form: entries by strictly rising address, and, for
byte memories, no entry equal to what an unlisted address reads as. -/

namespace Sys2Proof.Machine

/-- A byte-addressed memory: the spaces of 20_memory.md R60 but `GRAM`. -/
abbrev Memory := List Host.Cell

/-- What a byte nothing has written reads as. DESIGN CHOICE, notes/assumptions/5.md. -/
def Memory.unlisted : Byte := 0

/-- The entry at a key, where one is listed. -/
def Cells.get? {α : Type} : List (Nat × α) → Nat → Option α
  | [], _ => none
  | (k, v) :: rest, a => if k = a then some v else Cells.get? rest a

/-- Sets the entry at a key, keeping the keys in rising order. -/
def Cells.put {α : Type} (a : Nat) (v : α) : List (Nat × α) → List (Nat × α)
  | [] => [(a, v)]
  | (k, w) :: rest =>
    if a < k then (a, v) :: (k, w) :: rest
    else if a = k then (a, v) :: rest
    else (k, w) :: Cells.put a v rest

/-- Removes the entry at a key. -/
def Cells.erase {α : Type} (a : Nat) (m : List (Nat × α)) : List (Nat × α) :=
  m.filter (fun e => decide (e.1 ≠ a))

/-- The keys rise strictly from a lower bound on. -/
def Cells.sortedFrom {α : Type} : Nat → List (Nat × α) → Bool
  | _, [] => true
  | lo, (k, _) :: rest => decide (lo ≤ k) && Cells.sortedFrom (k + 1) rest

/-- The keys rise strictly. -/
def Cells.sorted {α : Type} (m : List (Nat × α)) : Bool := Cells.sortedFrom 0 m

/-- Every key lies below a bound. -/
def Cells.below {α : Type} (n : Nat) (m : List (Nat × α)) : Bool := m.all (fun e => decide (e.1 < n))

/-- The canonical form of a byte memory. -/
def Memory.wf (m : Memory) : Bool := Cells.sorted m && m.all (fun e => e.2 != Memory.unlisted)

/-- One byte of a memory. -/
def Memory.read (m : Memory) (a : Nat) : Byte := (Cells.get? m a).getD Memory.unlisted

/-- `MemWrite(S, a, 1, [v])` of 00_scope.md R13; writing what an unlisted address reads as removes
the entry. -/
def Memory.write (m : Memory) (a : Nat) (v : Byte) : Memory :=
  if v = Memory.unlisted then Cells.erase a m else Cells.put a v m

end Sys2Proof.Machine
end

