-- ==== Sys2Proof/Syntax.lean ====
section
/-! DEFINITION. The instructions: the twelve host operations (30_encoding.md R110) and the twelve
panel commands (30_encoding.md R104), one constructor per row of spec/opcode_table.json, and the
two forms a request can take. -/

namespace Sys2Proof

/-- The instruction set. The host operations carry the operands R110 gives them. A panel command
carries only what its caller hands it: the parameter bytes of `MADCTL`, `COLMOD`, `GMCTRP1` and
`GMCTRN1` are configuration and no operand (41_command_protocol.md, section 2). -/
inductive Instr where
  /-- `INIT`: R160. -/
  | init
  /-- `SET_CURSOR x, y`: R220. -/
  | setCursor (x y : Half)
  /-- `SET_COLOR c`: R221. -/
  | setColor (c : Half)
  /-- `SET_BGCOLOR c`: R222. -/
  | setBgColor (c : Half)
  /-- `PRINT_CHAR ch`: R224. -/
  | printChar (ch : Byte)
  /-- `PRINT s`, length in bytes and address: R226. -/
  | print (len : Half) (addr : Addr)
  /-- `PRINT_NUMBER n, width`: R230; `n` is read as a signed number. -/
  | printNumber (n : Addr) (width : Half)
  /-- `DRAW_PIXEL x, y, c`: R190. -/
  | drawPixel (x y c : Half)
  /-- `DRAW_LINE x0, y0, x1, y1, c`: R208. -/
  | drawLine (x0 y0 x1 y1 c : Half)
  /-- `DRAW_RECT x, y, w, h, c`: R200. -/
  | drawRect (x y w h c : Half)
  /-- `FILL_RECT x, y, w, h, c`: R194. -/
  | fillRect (x y w h c : Half)
  /-- `DRAW_BITMAP x, y, w, h, @pixels`: R204. -/
  | drawBitmap (x y w h : Half) (pixels : Addr)
  /-- sleep-out: R161. -/
  | slpout
  /-- normal-display-mode-on: R168. -/
  | noron
  /-- invert off: R167. -/
  | invoff
  /-- invert on: R166. -/
  | invon
  /-- display-on: R169. -/
  | dispon
  /-- column-address-set with its two bounds: R170. -/
  | caset (x0 x1 : Half)
  /-- row-address-set with its two bounds: R171. -/
  | raset (y0 y1 : Half)
  /-- memory-write with its pixel payload: R172, R103. -/
  | ramwr (pixels : List Half)
  /-- memory-access-control: R162. -/
  | madctl
  /-- pixel-format: R163. -/
  | colmod
  /-- positive gamma table: R164. -/
  | gmctrp1
  /-- negative gamma table: R165. -/
  | gmctrn1
  deriving DecidableEq, Repr

/-- The two encodings an instruction can arrive in: a host descriptor (R108), or the bytes of one
panel command handed to the Transport (R100). The second is the model's own: no move of the host
holds one (R113, notes/assumptions/4.md). -/
inductive Request where
  | descriptor (d : Descriptor)
  | frame (bytes : List Byte)
  deriving DecidableEq, Repr

end Sys2Proof
end

