-- ==== Sys2Proof/Machine/State.lean ====
section
/-! DEFINITION. The machine's state as plain data, its reset value, and the reasons a step stops. -/

namespace Sys2Proof.Machine

/-- The data/command line's two kinds (10_state.md R30). -/
inductive Kind where
  | cmd
  | data
  deriving DecidableEq, Repr

/-- The chip-select line's two levels (R30). -/
inductive CsLevel where
  | assert
  | release
  deriving DecidableEq, Repr

/-- The events of the wire trace (00_scope.md R15). -/
inductive Event where
  /-- the reset line is driven: false is low, true is high. -/
  | rst (level : Bool)
  /-- chip-select becomes asserted or released. -/
  | cs (level : CsLevel)
  /-- one byte with the data/command line at a kind. -/
  | byte (kind : Kind) (v : Byte)
  /-- at least this many milliseconds pass. -/
  | delay (t : Nat)
  deriving DecidableEq, Repr

/-- The sequencer position (10_state.md R40): `busy k` after `k` events of the operation. -/
inductive Seq where
  | idle
  | busy (k : Nat)
  deriving DecidableEq, Repr

/-- Where the block engine reads (40_transport.md R150): a space and a start address, or one of the
two constant tables. -/
inductive BlockSrc where
  | rowBuf (a : Nat)
  | glyphBuf (a : Nat)
  | host (a : Addr)
  | gammaP
  | gammaN
  deriving DecidableEq, Repr

/-- The seven request latches (10_state.md R23). -/
structure Latches where
  op : Byte
  a : Half
  b : Half
  c : Half
  d : Half
  e : Half
  p : Addr
  deriving DecidableEq, Repr

/-- The answers of the environment agents (00_scope.md R16, 10_state.md R49): for the SPI byte engine,
the block engine and the delay timer, how many more waits each will answer; `none` means it always
answers (the liveness assumptions L1, L2, L3 of 70_reset_and_hazards.md R296). An engine whose answers
are used up never answers again: the hang of 60_exceptions.md R255. No rule of the sequencer reads it
but the waits. -/
structure Env where
  spi : Option Nat
  dma : Option Nat
  /-- How many bytes of the pass the stalled block engine still feeds (95_test_vectors.md V-T13). -/
  dmaPartial : Nat
  timer : Option Nat
  deriving DecidableEq, Repr

/-- The environment under L1 to L3 of R296: every wait is answered. -/
def Env.live : Env := { spi := none, dma := none, dmaPartial := 0, timer := none }

/-- What is known of the sink (20_memory.md R80): `unknown` absorbs everything; `recovering` is after
the `RST(0)` that leaves it and before the INIT sequence is complete. -/
inductive SinkStatus where
  | known
  | unknown
  | recovering
  deriving DecidableEq, Repr

/-- `p_regs` (R80, R86): what the nine recording commands left since the panel's last reset. -/
structure PanelRegs where
  sleepOut : Bool
  normalOn : Bool
  displayOn : Bool
  inversion : Option Bool
  madctl : Option Byte
  colmod : Option Byte
  gammaP : List Byte
  gammaN : List Byte
  deriving DecidableEq, Repr

/-- The panel sink (20_memory.md R80); a `none` is an unspecified register. -/
structure Panel where
  status : SinkStatus
  /-- `p_cmd`. -/
  cmd : Option Byte
  /-- `p_idx`. -/
  idx : Nat
  /-- the parameter bytes of a window command seen so far (R82, R83). -/
  args : List Byte
  /-- `p_xs`. -/
  xs : Option Half
  /-- `p_xe`. -/
  xe : Option Half
  /-- `p_ys`. -/
  ys : Option Half
  /-- `p_ye`. -/
  ye : Option Half
  /-- `p_col`, of use while `live`. -/
  col : Half
  /-- `p_row`, of use while `live`. -/
  row : Half
  /-- `p_half`. -/
  half : Option Byte
  /-- `p_live`. -/
  live : Bool
  regs : PanelRegs
  /-- `GRAM`, the specified cells by `column * 65536 + row`; a cell not listed is unspecified. -/
  gram : List (Nat × Half)
  deriving DecidableEq, Repr

/-- The registers of a panel of which nothing is specified. -/
def PanelRegs.blank : PanelRegs where
  sleepOut := false
  normalOn := false
  displayOn := false
  inversion := none
  madctl := none
  colmod := none
  gammaP := []
  gammaN := []

/-- The one state of a sink of which nothing is known (R80, `Unknown`). DEDUCED, notes/assumptions/8.md. -/
def Panel.spoiled : Panel where
  status := .unknown
  cmd := none
  idx := 0
  args := []
  xs := none
  xe := none
  ys := none
  ye := none
  col := 0
  row := 0
  half := none
  live := false
  regs := PanelRegs.blank
  gram := []

/-- The model faults, a closed list (60_exceptions.md R256). -/
inductive FaultKind where
  | rowBufOverflow
  | windowRange
  | glyphIndex
  | blockLength
  deriving DecidableEq, Repr

/-- A fault carries its name and the `OP` of the host operation that was running (R256). -/
structure FaultRecord where
  kind : FaultKind
  op : Byte
  deriving DecidableEq, Repr

/-- The moves of the host (00_scope.md R16): presenting a descriptor, which can name a host operation
and nothing else (30_encoding.md R113), or writing a byte of the HOST
memory it owns. The machine takes them one at a time and only when idle, so no HOST byte changes
during an operation (70_reset_and_hazards.md R292; DEDUCED, notes/assumptions/12.md). -/
inductive HostMove where
  | request (d : Descriptor)
  | poke (a : Addr) (v : Byte)
  deriving DecidableEq, Repr

/-- Everything the spec gives the machine, with the configuration and the environment's answers that
its step relation takes as parameters (10_state.md R45, R49), the panel sink and the observation. -/
@[ext]
structure State where
  /-- the configuration; no step changes it (R45). -/
  cfg : Config
  /-- `cur_x`, pre-offset (R20, R21). -/
  curX : Half
  /-- `cur_y`, pre-offset (R20, R21). -/
  curY : Half
  /-- `color` (R20, R22). -/
  color : Half
  /-- `bg_color` (R20, R22). -/
  bgColor : Half
  /-- `op, A, B, C, D, E, P` (R23). -/
  latches : Latches
  /-- `seq` (R40). -/
  seq : Seq
  /-- `inited` (R42). -/
  inited : Bool
  /-- `rst_line` (R30), true is high. -/
  rstLine : Bool
  /-- `dc_line` (R30). -/
  dcLine : Kind
  /-- `cs_line` (R30); of use only when `USE_CS` is true. -/
  csLine : CsLevel
  /-- `txe`, transmit-empty (R31). -/
  txe : Bool
  /-- `tc`, block completion (R32). -/
  tc : Bool
  /-- `blk_en` (R33). -/
  blkEn : Bool
  /-- `blk_src` (R33). -/
  blkSrc : BlockSrc
  /-- `blk_len` (R33). -/
  blkLen : Half
  /-- `ROWBUF` (20_memory.md R60, R61). -/
  rowBuf : Memory
  /-- `GLYPHBUF` (R60, R63). -/
  glyphBuf : Memory
  /-- `NUMBUF` (R60, R63). -/
  numBuf : Memory
  /-- `HOST` (R60, R65). -/
  host : Memory
  /-- the panel sink (R80). -/
  panel : Panel
  /-- the wire trace, oldest event first (00_scope.md R15); no rule reads it. -/
  trace : List Event
  /-- the environment's answers (R49). -/
  env : Env
  /-- the host's moves not yet taken, the next one first (R16, 70_reset_and_hazards.md R302). -/
  inputs : List HostMove
  /-- the model's own: a panel command's frame to run on its own, as an opcode-table row stands for it.
  The host has no move that puts one here and no step does, so from `none` it stays `none`
  (notes/assumptions/4.md). -/
  port : Option (List Byte)
  /-- how many free values have been drawn: the model's own (notes/assumptions/3.md). -/
  freeCount : Nat
  /-- the model fault of this run, kept for its rest (60_exceptions.md R256). -/
  fault : Option FaultRecord
  /-- the mark `refused`, kept for the whole run (60_exceptions.md R257). -/
  refused : Bool
  deriving DecidableEq, Repr

/-- The machine's faults: the four model faults of R256. Each holds the `OP` of the running
operation and the state it leaves, in which the events and writes already made stay made and the
sequencer is not idle (R256, R259; notes/assumptions/11.md). All are safe: the model stops where the hardware goes on in a
way the source does not describe. -/
inductive Fault where
  /-- raised by staging a run longer than the Row Buffer (R192): FILL_RECT, DRAW_RECT, DRAW_LINE.
  Safe. -/
  | rowBufOverflow (op : Byte) (left : State)
  /-- raised by the window check (R178): FILL_RECT, DRAW_RECT, DRAW_LINE, DRAW_BITMAP, PRINT_CHAR,
  PRINT, PRINT_NUMBER. Safe. -/
  | windowRange (op : Byte) (left : State)
  /-- raised by a character code the glyph table does not have (R224): PRINT_CHAR, PRINT,
  PRINT_NUMBER. Safe. -/
  | glyphIndex (op : Byte) (left : State)
  /-- raised by a block length or repeat count out of range (R151, R204): DRAW_BITMAP. Safe. -/
  | blockLength (op : Byte) (left : State)
  deriving DecidableEq, Repr

/-- Why a request is not started (60_exceptions.md R257). A refused request changes nothing. -/
inductive Refusal where
  /-- exec's arm of an instruction that has no meaning: no arm is one. Safe. -/
  | notModelled (mnemonic : String)
  /-- a descriptor with a reserved `OP` or `RSV ≠ 0`: raised by the fetch (R111). Safe. -/
  | reservedEncoding
  /-- a host operation other than INIT before the first INIT: raised by each of them (R42). Safe. -/
  | notInitialised
  /-- a frame that is no panel command, at the model's own frame port: raised by the fetch (R107).
  Safe. -/
  | reservedFrame
  deriving DecidableEq, Repr

/-- How a micro-sequence ends (00_scope.md R14): it is done; it waits for a flag the environment
never sets; or it raises a model fault. -/
inductive Run where
  | done (s : State)
  | stuck (s : State)
  | raised (k : FaultKind) (s : State)
  deriving DecidableEq, Repr

/-- What step, exec and every meaning answer. -/
abbrev Outcome := Host.Outcome State Fault Refusal

/-- Power-on for a configuration (10_state.md R50, 70_reset_and_hazards.md R280): `seq` is idle and
`inited` false. Every other value is unspecified there and is the model's own (DESIGN CHOICE,
notes/assumptions/2.md); `txe` and `blkEn` are as the platform leaves them (R284). -/
def State.powerOn (c : Config) : State where
  cfg := c
  curX := 0
  curY := 0
  color := 0
  bgColor := 0
  latches := { op := 0, a := 0, b := 0, c := 0, d := 0, e := 0, p := 0 }
  seq := .idle
  inited := false
  rstLine := false
  dcLine := .cmd
  csLine := .release
  txe := true
  tc := false
  blkEn := false
  blkSrc := .rowBuf 0
  blkLen := 0
  rowBuf := []
  glyphBuf := []
  numBuf := []
  host := []
  panel := Panel.spoiled
  trace := []
  env := Env.live
  inputs := []
  port := none
  freeCount := 0
  fault := none
  refused := false

/-- The machine right after reset, with the spec's test configuration T0 (notes/assumptions/1.md). -/
def State.reset : State := State.powerOn Config.t0

end Sys2Proof.Machine
end

