-- ==== Sys2Proof/Machine/Flags.lean ====
section
/-! DEFINITION. The two flags `txe` and `tc` (10_state.md R31 to R34: there is no other) and the waits:
the places where a micro-sequence can be stuck (60_exceptions.md R255). -/

namespace Sys2Proof.Machine

/-- One micro-sequence after another; a stuck or faulted one has no sequel. -/
def Run.andThen (r : Run) (f : State → Run) : Run :=
  match r with
  | .done s => f s
  | .stuck s => .stuck s
  | .raised k s => .raised k s

/-- Wait until `txe = 1` (40_transport.md R144): the SPI byte engine sets the flag, or never does. -/
def awaitTxe (s : State) : Run :=
  if s.txe then .done s
  else
    match s.env.spi with
    | none => .done { s with txe := true }
    | some 0 => .stuck s
    | some (n + 1) => .done { s with txe := true, env := { s.env with spi := some n } }

/-- Wait until `tc = 1` (40_transport.md R150): a flag left set ends the wait at once, which is why
every pass clears it first (70_reset_and_hazards.md R288). -/
def awaitTc (s : State) : Run :=
  if s.tc then .done s
  else
    match s.env.dma with
    | none => .done { s with tc := true }
    | some 0 => .stuck s
    | some (n + 1) => .done { s with tc := true, env := { s.env with dma := some n } }

/-- Wait for the delay timer (60_exceptions.md R261): a delay that never ends is a stuck state. -/
def awaitTimer (s : State) : Run :=
  match s.env.timer with
  | none => .done s
  | some 0 => .stuck s
  | some (n + 1) => .done { s with env := { s.env with timer := some n } }

end Sys2Proof.Machine
end

