-- ==== Sys2Proof/Machine/Operands.lean ====
section
/-! DEFINITION. Operand assembly and the arithmetic of operands: byte halves, offsets, window corners,
colour packing (00_scope.md R12, 30_encoding.md R120 to R124, 42_rasterizer.md R214). -/

namespace Sys2Proof.Machine

/-- `hi8(v) = v[15:8]` (R12). -/
def hi8 (v : Half) : Byte := v.extractLsb' 8 8

/-- `lo8(v) = v[7:0]` (R12). -/
def lo8 (v : Half) : Byte := v.extractLsb' 0 8

/-- `u16(n) = n mod 65536` (R12). -/
def u16 (n : Nat) : Half := BitVec.ofNat 16 n

/-- `u16` of an integer (R12). -/
def u16Int (n : Int) : Half := BitVec.ofInt 16 n

/-- `x' = u16(x + X_OFFSET)` (30_encoding.md R123). -/
def offX (c : Config) (x : Half) : Half := x + c.xOffset

/-- `y' = u16(y + Y_OFFSET)` (R123). -/
def offY (c : Config) (y : Half) : Half := y + c.yOffset

/-- The far corner `x' + n - 1` on integers (R123), for a side of `n ≥ 1` pixels. -/
def farCorner (x : Half) (n : Nat) : Nat := x.toNat + n - 1

/-- The window check of 41_command_protocol.md R178: the far corner does not fit 16 bits. -/
def beyond (x : Half) (n : Nat) : Bool := decide (farCorner x n > 65535)

/-- `RGB565(R, G, B)` (R120), the host's helper. -/
def rgb565 (r g b : Byte) : Half :=
  ((r &&& 0xF8).setWidth 16 <<< 8) ||| ((g &&& 0xFC).setWidth 16 <<< 3) ||| (b >>> 3).setWidth 16

/-- `BGR565(R, G, B)` (R121): red and blue exchanged. -/
def bgr565 (r g b : Byte) : Half := rgb565 b g r

/-- The packing that `COLOR_ORDER` selects (R8, R121). -/
def packColor (c : Config) (r g b : Byte) : Half :=
  match c.colorOrder with
  | .rgb => rgb565 r g b
  | .bgr => bgr565 r g b

/-- A HOST address, computed modulo 2^32 (20_memory.md R65). -/
def hostAddr (a : Addr) (j : Nat) : Nat := (a + BitVec.ofNat 32 j).toNat

/-- The magnitude of the number operand, exact for the most negative one (43_text_engine.md R230). -/
def magnitude (n : Addr) : Nat := n.toInt.natAbs

/-- The sign of the number operand `sext_32(P)` (30_encoding.md R124). -/
def negative (n : Addr) : Bool := decide (n.toInt < 0)

/-- `cells = ceil(width / CELL_W)` (43_text_engine.md R231). -/
def cellsOf (width : Half) : Nat := (width.toNat + cellW - 1) / cellW

end Sys2Proof.Machine
end

