-- ==== Sys2Proof/Decode.lean ====
section
/-! DEFINITION. Decoding a request, total on every descriptor and every byte sequence and rejecting
by name, and the encoder (30_encoding.md R104, R108, R110, R111, R112). -/

namespace Sys2Proof

/-- Why a request is no instruction. -/
inductive Reject where
  /-- `OP` in 0x0C .. 0xFF (R111). -/
  | reservedOp
  /-- `RSV ≠ 0` (R111). -/
  | reservedRsv
  /-- a frame whose first byte is none of the twelve opcodes (R107), or an empty frame. -/
  | reservedCommand
  /-- a frame with a number of operand bytes the command does not have (R104). -/
  | frameLength
  deriving DecidableEq, Repr

/-- The fields of R108. -/
def Descriptor.op (d : Descriptor) : Byte := d.extractLsb' 120 8
def Descriptor.rsv (d : Descriptor) : Byte := d.extractLsb' 112 8
def Descriptor.a (d : Descriptor) : Half := d.extractLsb' 96 16
def Descriptor.b (d : Descriptor) : Half := d.extractLsb' 80 16
def Descriptor.c (d : Descriptor) : Half := d.extractLsb' 64 16
def Descriptor.d (d : Descriptor) : Half := d.extractLsb' 48 16
def Descriptor.e (d : Descriptor) : Half := d.extractLsb' 32 16
def Descriptor.p (d : Descriptor) : Addr := d.extractLsb' 0 32

/-- A descriptor from its fields, `RSV = 0` (R108). -/
def Descriptor.pack (op : Byte) (a b c d e : Half) (p : Addr) : Descriptor :=
  op ++ (0 : Byte) ++ a ++ b ++ c ++ d ++ e ++ p

/-- The host operation of a descriptor (R110): selected from `OP` and `RSV` alone; the fields an
operation does not use are ignored (R112). -/
def decodeDescriptor (d : Descriptor) : Except Reject Instr :=
  if Descriptor.rsv d ≠ 0 then .error .reservedRsv
  else
    match (Descriptor.op d).toNat with
    | 0x00 => .ok .init
    | 0x01 => .ok (.setCursor (Descriptor.a d) (Descriptor.b d))
    | 0x02 => .ok (.setColor (Descriptor.e d))
    | 0x03 => .ok (.setBgColor (Descriptor.e d))
    | 0x04 => .ok (.printChar ((Descriptor.a d).extractLsb' 0 8))
    | 0x05 => .ok (.print (Descriptor.a d) (Descriptor.p d))
    | 0x06 => .ok (.printNumber (Descriptor.p d) (Descriptor.a d))
    | 0x07 => .ok (.drawPixel (Descriptor.a d) (Descriptor.b d) (Descriptor.e d))
    | 0x08 => .ok (.drawLine (Descriptor.a d) (Descriptor.b d) (Descriptor.c d) (Descriptor.d d) (Descriptor.e d))
    | 0x09 => .ok (.drawRect (Descriptor.a d) (Descriptor.b d) (Descriptor.c d) (Descriptor.d d) (Descriptor.e d))
    | 0x0A => .ok (.fillRect (Descriptor.a d) (Descriptor.b d) (Descriptor.c d) (Descriptor.d d) (Descriptor.e d))
    | 0x0B => .ok (.drawBitmap (Descriptor.a d) (Descriptor.b d) (Descriptor.c d) (Descriptor.d d) (Descriptor.p d))
    | _ => .error .reservedOp

/-- The command whose opcode a byte is (R9). -/
def Opcodes.find? (o : Opcodes) (b : Byte) : Option PanelCmd :=
  PanelCmd.all.find? (fun k => o.code k == b)

/-- Pixels from bytes, high byte first (20_memory.md R66); none for an odd number of bytes. -/
def pixelsOf : List Byte → Option (List Half)
  | [] => some []
  | [_] => none
  | hi :: lo :: rest => (pixelsOf rest).map (fun ps => (hi ++ lo) :: ps)

/-- The bytes of pixels, high byte first (20_memory.md R66). -/
def bytesOf : List Half → List Byte
  | [] => []
  | v :: rest => v.extractLsb' 8 8 :: v.extractLsb' 0 8 :: bytesOf rest

/-- A command that carries no operand byte. -/
def bareFrame (i : Instr) : List Byte → Except Reject Instr
  | [] => .ok i
  | _ :: _ => .error .frameLength

/-- A command that carries two 16-bit bounds, start then end, each high byte first (R105). -/
def boundsFrame (f : Half → Half → Instr) : List Byte → Except Reject Instr
  | [b0, b1, b2, b3] => .ok (f (b0 ++ b1) (b2 ++ b3))
  | _ => .error .frameLength

/-- A memory-write's payload (R103). -/
def payloadFrame (bytes : List Byte) : Except Reject Instr :=
  match pixelsOf bytes with
  | some ps => .ok (.ramwr ps)
  | none => .error .frameLength

/-- The panel command of the bytes handed to the Transport: the opcode byte and the operand bytes
of its caller (R100, R104). -/
def decodeFrame (o : Opcodes) : List Byte → Except Reject Instr
  | [] => .error .reservedCommand
  | b :: rest =>
    match o.find? b with
    | some .slpout => bareFrame .slpout rest
    | some .noron => bareFrame .noron rest
    | some .invoff => bareFrame .invoff rest
    | some .invon => bareFrame .invon rest
    | some .dispon => bareFrame .dispon rest
    | some .caset => boundsFrame .caset rest
    | some .raset => boundsFrame .raset rest
    | some .ramwr => payloadFrame rest
    | some .madctl => bareFrame .madctl rest
    | some .colmod => bareFrame .colmod rest
    | some .gmctrp1 => bareFrame .gmctrp1 rest
    | some .gmctrn1 => bareFrame .gmctrn1 rest
    | none => .error .reservedCommand

/-- The instruction of a request. -/
def decode (o : Opcodes) : Request → Except Reject Instr
  | .descriptor d => decodeDescriptor d
  | .frame bytes => decodeFrame o bytes

/-- The request that stands for an instruction: fields an operation does not use are 0. -/
def encode (o : Opcodes) : Instr → Request
  | .init => .descriptor (Descriptor.pack 0x00 0 0 0 0 0 0)
  | .setCursor x y => .descriptor (Descriptor.pack 0x01 x y 0 0 0 0)
  | .setColor c => .descriptor (Descriptor.pack 0x02 0 0 0 0 c 0)
  | .setBgColor c => .descriptor (Descriptor.pack 0x03 0 0 0 0 c 0)
  | .printChar ch => .descriptor (Descriptor.pack 0x04 (ch.setWidth 16) 0 0 0 0 0)
  | .print len addr => .descriptor (Descriptor.pack 0x05 len 0 0 0 0 addr)
  | .printNumber n width => .descriptor (Descriptor.pack 0x06 width 0 0 0 0 n)
  | .drawPixel x y c => .descriptor (Descriptor.pack 0x07 x y 0 0 c 0)
  | .drawLine x0 y0 x1 y1 c => .descriptor (Descriptor.pack 0x08 x0 y0 x1 y1 c 0)
  | .drawRect x y w h c => .descriptor (Descriptor.pack 0x09 x y w h c 0)
  | .fillRect x y w h c => .descriptor (Descriptor.pack 0x0A x y w h c 0)
  | .drawBitmap x y w h pixels => .descriptor (Descriptor.pack 0x0B x y w h 0 pixels)
  | .slpout => .frame [o.slpout]
  | .noron => .frame [o.noron]
  | .invoff => .frame [o.invoff]
  | .invon => .frame [o.invon]
  | .dispon => .frame [o.dispon]
  | .caset x0 x1 => .frame (o.caset :: bytesOf [x0, x1])
  | .raset y0 y1 => .frame (o.raset :: bytesOf [y0, y1])
  | .ramwr pixels => .frame (o.ramwr :: bytesOf pixels)
  | .madctl => .frame [o.madctl]
  | .colmod => .frame [o.colmod]
  | .gmctrp1 => .frame [o.gmctrp1]
  | .gmctrn1 => .frame [o.gmctrn1]

/-- How many operand bytes a command's caller hands over besides the opcode, where the command
fixes it (R104); a memory-write's payload may be empty here. -/
def PanelCmd.operandBytes : PanelCmd → Nat
  | .caset | .raset => 4
  | .slpout | .noron | .invoff | .invon | .dispon | .ramwr | .madctl | .colmod | .gmctrp1
  | .gmctrn1 => 0

/-- The request that the bits of an opcode-table row stand for: a 128-bit descriptor, or an 8-bit
command byte of the default table followed by operand bytes of zeros. None for other lengths. -/
def requestOfWord (nbits w : Nat) : Option Request :=
  if nbits = 128 then some (.descriptor (BitVec.ofNat 128 w))
  else if nbits = 8 then
    let b : Byte := BitVec.ofNat 8 w
    some (.frame (b :: List.replicate (((Opcodes.standard.find? b).map PanelCmd.operandBytes).getD 0) 0))
  else none

/-- What the decoder reads from an opcode-table word. -/
def decodeTableWord (nbits w : Nat) : Option Instr :=
  match requestOfWord nbits w with
  | none => none
  | some r =>
    match decode Opcodes.standard r with
    | .ok i => some i
    | .error _ => none

end Sys2Proof
end

