-- ==== Sys2Proof/Machine/Panel.lean ====
section
/-! DEFINITION. The panel sink model (20_memory.md R80 to R88): what the panel does with the events of
the trace. -/

namespace Sys2Proof.Machine

/-- A cell's place in `gram`. -/
def gramKey (col row : Half) : Nat := col.toNat * 65536 + row.toNat

/-- `RST(0)` (R81): every register and every cell becomes unspecified, `p_cmd`, the window and
the write pointer among the registers (DEDUCED, notes/assumptions/8.md). A sink that was `Unknown` stays
so until a complete INIT follows (R80). -/
def Panel.afterReset (p : Panel) : Panel :=
  { Panel.spoiled with
    status := match p.status with
      | .known => .known
      | .unknown | .recovering => .recovering }

/-- The registers an INIT leaves (41_command_protocol.md R160) have all been written since `RST(0)`. -/
def PanelRegs.complete (r : PanelRegs) : Bool :=
  r.sleepOut && r.madctl.isSome && r.colmod.isSome && decide (r.gammaP.length = 16)
    && decide (r.gammaN.length = 16) && r.inversion.isSome && r.normalOn && r.displayOn

/-- Display-on, the last command of INIT, ends the recovery when the sequence was complete (R80). -/
def Panel.displayOn (p : Panel) : Panel :=
  let regs := { p.regs with displayOn := true }
  { p with
    regs := regs
    status := match p.status with
      | .recovering => if regs.complete then .known else .recovering
      | .known => .known
      | .unknown => .unknown }

/-- The memory-write command (R84): the write pointer goes to the window's first cell. The sink
requires an ordered window inside the panel's range and the 16 bpp pixel format. -/
def Panel.startWrite (c : Config) (p : Panel) : Panel :=
  match p.xs, p.xe, p.ys, p.ye with
  | some xs, some xe, some ys, some ye =>
    if xs ≤ xe ∧ ys ≤ ye ∧ xe.toNat < c.gramCols ∧ ye.toNat < c.gramRows
        ∧ p.regs.colmod = some c.colmodValue then
      { p with col := xs, row := ys, live := true, half := none }
    else Panel.spoiled
  | _, _, _, _ => Panel.spoiled

/-- `Byte(cmd, v)` (R81): the command starts, with its effect before any parameter. -/
def Panel.command (c : Config) (v : Byte) (p : Panel) : Panel :=
  let p := { p with cmd := some v, idx := 0, args := [], half := none }
  match c.opcodes.find? v with
  | none => Panel.spoiled
  | some .slpout => { p with regs := { p.regs with sleepOut := true } }
  | some .noron => { p with regs := { p.regs with normalOn := true } }
  | some .invoff => { p with regs := { p.regs with inversion := some false } }
  | some .invon => { p with regs := { p.regs with inversion := some true } }
  | some .dispon => p.displayOn
  | some .caset | some .raset | some .madctl | some .colmod | some .gmctrp1 | some .gmctrn1 => p
  | some .ramwr => p.startWrite c

/-- The write pointer after a cell (R84): along the row, then down, then out of the window. -/
def Panel.advance (xs xe ye : Half) (p : Panel) : Panel :=
  if p.col < xe then { p with col := p.col + 1 }
  else if p.row < ye then { p with col := xs, row := p.row + 1 }
  else { p with col := xs, live := false }

/-- A payload byte (R84): the first of a pixel is held, the second writes the cell. A pixel after the
window's last cell leaves nothing known (R85). -/
def Panel.payload (v : Byte) (p : Panel) : Panel :=
  match p.half with
  | none => { p with half := some v }
  | some h =>
    match p.live, p.xs, p.xe, p.ye with
    | true, some xs, some xe, some ye =>
      Panel.advance xs xe ye
        { p with gram := Cells.put (gramKey p.col p.row) (h ++ v) p.gram, half := none }
    | _, _, _, _ => Panel.spoiled

/-- The effect of parameter number `p_idx` of a command (R82 to R86). -/
def Panel.parameter (k : PanelCmd) (v : Byte) (p : Panel) : Panel :=
  match k with
  | .slpout | .noron | .invoff | .invon | .dispon => Panel.spoiled
  | .madctl =>
    if p.idx = 0 then { p with regs := { p.regs with madctl := some v } } else Panel.spoiled
  | .colmod =>
    if p.idx = 0 then { p with regs := { p.regs with colmod := some v } } else Panel.spoiled
  | .gmctrp1 =>
    if p.idx < 16 then { p with regs := { p.regs with gammaP := p.regs.gammaP.take p.idx ++ [v] } }
    else Panel.spoiled
  | .gmctrn1 =>
    if p.idx < 16 then { p with regs := { p.regs with gammaN := p.regs.gammaN.take p.idx ++ [v] } }
    else Panel.spoiled
  | .caset =>
    match p.args with
    | [b0, b1, b2] =>
      if p.idx = 3 then { p with xs := some (b0 ++ b1), xe := some (b2 ++ v) } else Panel.spoiled
    | _ => if p.idx < 3 then { p with args := p.args ++ [v] } else Panel.spoiled
  | .raset =>
    match p.args with
    | [b0, b1, b2] =>
      if p.idx = 3 then { p with ys := some (b0 ++ b1), ye := some (b2 ++ v) } else Panel.spoiled
    | _ => if p.idx < 3 then { p with args := p.args ++ [v] } else Panel.spoiled
  | .ramwr => p.payload v

/-- `Byte(data, v)` (R81): a parameter of the command in progress. -/
def Panel.data (c : Config) (v : Byte) (p : Panel) : Panel :=
  match p.cmd.bind c.opcodes.find? with
  | none => Panel.spoiled
  | some k =>
    let q := p.parameter k v
    match q.status with
    | .unknown => Panel.spoiled
    | .known | .recovering => { q with idx := q.idx + 1 }

/-- What the sink makes of an event (R81). R81 is silent on `RST(1)`: that it leaves the sink as it is, is
a DESIGN CHOICE (notes/assumptions/8.md). -/
def Panel.accept (c : Config) (e : Event) (p : Panel) : Panel :=
  match e with
  | .rst false => p.afterReset
  | .rst true | .cs _ | .delay _ => p
  | .byte k v =>
    match p.status, k with
    | .unknown, _ => p
    | .known, .cmd | .recovering, .cmd => p.command c v
    | .known, .data | .recovering, .data => p.data c v

/-- `GRAM[col][row]`, where it is specified (R80). -/
def Panel.cell (p : Panel) (col row : Half) : Option Half :=
  match p.status with
  | .known => Cells.get? p.gram (gramKey col row)
  | .unknown | .recovering => none

/-- `Pix(x, y)` of the display-space view (R87). -/
def Panel.pix (c : Config) (p : Panel) (x y : Half) : Option Half :=
  p.cell (x + c.xOffset) (y + c.yOffset)

end Sys2Proof.Machine
end

