-- ==== Sys2Proof/Machine/Ops.lean ====
section
/-! DEFINITION. The shared operations: emitting an event, the seven routines of the Transport
(40_transport.md), `set_window`, staging in the buffers, raising a model fault, and running a host
operation from acceptance to its end. -/

namespace Sys2Proof.Machine

/-- `Busy(k)` becomes `Busy(k+1)` when an event is emitted (10_state.md R40). -/
def Seq.next : Seq → Seq
  | .idle => .idle
  | .busy k => .busy (k + 1)

/-- `Emit(e)` (00_scope.md R13): the event joins the trace, the position counts it, and the panel
takes it. -/
def emit (e : Event) (s : State) : State :=
  { s with trace := s.trace ++ [e], seq := s.seq.next, panel := s.panel.accept s.cfg e }

/-- `Emit(Delay(t))` and the wait it asks of the timer (R261). -/
def delay (t : Nat) (s : State) : Run := awaitTimer (emit (.delay t) s)

/-- Drive the reset line (R140). -/
def driveReset (level : Bool) (s : State) : State := emit (.rst level) { s with rstLine := level }

/-- `reset()` (40_transport.md R140). -/
def resetPanel (s : State) : Run :=
  (delay s.cfg.tRstLow (driveReset false s)).andThen fun s =>
  delay s.cfg.tRstHigh (driveReset true s)

/-- `select()` (R142). -/
def select (s : State) : State :=
  if s.cfg.useCs then emit (.cs .assert) { s with csLine := .assert } else s

/-- `deselect()` (R142). -/
def deselect (s : State) : State :=
  if s.cfg.useCs then emit (.cs .release) { s with csLine := .release } else s

/-- The byte step of R144: enabled when `txe = 1`; the line, the hand-over, the wait. DEDUCED,
notes/assumptions/15.md. -/
def sendByte (k : Kind) (v : Byte) (s : State) : Run :=
  (awaitTxe s).andThen fun s =>
  awaitTxe (emit (.byte k v) { s with dcLine := k, txe := false })

/-- `send_command(byte)` (R145). -/
def sendCommand (v : Byte) (s : State) : Run := sendByte .cmd v s

/-- `send_data8(byte)` (R146). -/
def sendData8 (v : Byte) (s : State) : Run := sendByte .data v s

/-- `send_data16(word)` (R147): high byte, then low byte. -/
def sendData16 (v : Half) (s : State) : Run :=
  (sendByte .data (hi8 v) s).andThen fun s => sendByte .data (lo8 v) s

/-- Byte `j` of a block transfer's source (R150). -/
def sourceByte (s : State) (src : BlockSrc) (j : Nat) : Byte :=
  match src with
  | .rowBuf a => s.rowBuf.read (a + j)
  | .glyphBuf a => s.glyphBuf.read (a + j)
  | .host a => s.host.read (hostAddr a j)
  | .gammaP => s.cfg.gammaP.getD j 0
  | .gammaN => s.cfg.gammaN.getD j 0

/-- The bytes of one pass, in ascending index order (R150). -/
def passBytes (s : State) (src : BlockSrc) (len : Nat) : List Byte :=
  (List.range len).map (sourceByte s src)

/-- The block engine feeds data bytes to the wire. -/
def feed : List Byte → State → State
  | [], s => s
  | v :: rest, s => feed rest (emit (.byte .data v) s)

/-- How many bytes of a pass the engine feeds before it sets `tc`, or before it stalls. -/
def fedBytes (s : State) (len : Nat) : Nat :=
  match s.env.dma with
  | some 0 => min s.env.dmaPartial len
  | none | some (_ + 1) => len

/-- One pass (R150): `tc` is cleared before the wait, the engine feeds the buffer and sets `tc`. -/
def blockPass (src : BlockSrc) (len : Nat) (s : State) : Run :=
  awaitTc (feed ((passBytes s src len).take (fedBytes s len)) { s with tc := false })

/-- The passes of a block transfer, the same buffer each time (R150). -/
def blockPasses (src : BlockSrc) (len : Nat) : Nat → State → Run
  | 0, s => .done s
  | n + 1, s => (blockPass src len s).andThen fun s => blockPasses src len n s

/-- Arm the block engine; the data/command line goes to `data` first (R150, R152). -/
def armBlock (src : BlockSrc) (len : Nat) (s : State) : State :=
  { s with dcLine := .data, blkSrc := src, blkLen := u16 len, blkEn := true }

/-- `send_block(buffer, length, repeat_count)` (R150, R151). -/
def sendBlock (src : BlockSrc) (len reps : Nat) (s : State) : Run :=
  if len = 0 ∨ len > blockLenMax ∨ reps = 0 ∨ reps > repeatMax then .raised .blockLength s
  else
    (blockPasses src len reps (armBlock src len s)).andThen fun s => .done { s with blkEn := false }

/-- The `CASET` frame (41_command_protocol.md R170). -/
def casetFrame (x0 x1 : Half) (s : State) : Run :=
  (sendCommand s.cfg.opcodes.caset s).andThen fun s =>
  (sendData16 x0 s).andThen fun s => sendData16 x1 s

/-- The `RASET` frame (R171). -/
def rasetFrame (y0 y1 : Half) (s : State) : Run :=
  (sendCommand s.cfg.opcodes.raset s).andThen fun s =>
  (sendData16 y0 s).andThen fun s => sendData16 y1 s

/-- `set_window(x0, y0, x1, y1)` (R175): the window frames and memory-write-start. -/
def setWindow (x0 y0 x1 y1 : Half) (s : State) : Run :=
  (casetFrame x0 x1 s).andThen fun s =>
  (rasetFrame y0 y1 s).andThen fun s => sendCommand s.cfg.opcodes.ramwr s

/-- The bytes of `n` staged pixels of a colour, written in ascending order (42_rasterizer.md R192). -/
def stagePixels (c : Half) : Nat → Memory → Memory
  | 0, m => m
  | n + 1, m => ((stagePixels c n m).write (2 * n) (hi8 c)).write (2 * n + 1) (lo8 c)

/-- `stage_run(c, n)` (R192): a run longer than the Row Buffer is a fault before any byte. -/
def stageRun (c : Half) (n : Nat) (s : State) : Run :=
  if 2 * n > s.cfg.rowBufCap then .raised .rowBufOverflow s
  else .done { s with rowBuf := stagePixels c n s.rowBuf }

/-- The fault a model fault becomes (60_exceptions.md R256). -/
def Fault.of (k : FaultKind) (op : Byte) (left : State) : Fault :=
  match k with
  | .rowBufOverflow => .rowBufOverflow op left
  | .windowRange => .windowRange op left
  | .glyphIndex => .glyphIndex op left
  | .blockLength => .blockLength op left

/-- `raise Fault(k)` (R256): the fault is recorded with its name and `OP`, and stays. -/
def raiseFault (k : FaultKind) (op : Byte) (s : State) : Outcome :=
  .fault (Fault.of k op { s with fault := some { kind := k, op := op } })

/-- An accepted operation from `Busy(0)` to its end (10_state.md R40): back to `Idle` when it is done,
`Busy` for ever when it is stuck (R255). -/
def runOperation (op : Byte) (body : State → Run) (s : State) : Outcome :=
  match body { s with seq := .busy 0 } with
  | .done t => .next { t with seq := .idle }
  | .stuck t => .next t
  | .raised k t => raiseFault k op t

/-- A host operation other than INIT: refused before the first INIT (R109, R257). -/
def hostOperation (op : Byte) (body : State → Run) (s : State) : Outcome :=
  if s.inited then runOperation op body s else .refused .notInitialised

/-- A panel command emitted on its own; its fault label is the command's opcode byte, though none
raises one. -/
def panelCommand (op : Byte) (body : State → Run) (s : State) : Outcome := runOperation op body s

end Sys2Proof.Machine
end

