-- ==== Sys2Proof/Machine/Protocol.lean ====
section
/-! DEFINITION. The Command Protocol (41_command_protocol.md): the frames of the twelve panel
commands and INIT. -/

namespace Sys2Proof.Machine

/-- A command with no parameter, then a settle delay (R161, R166 to R169). -/
def settledCommand (v : Byte) (t : Nat) (s : State) : Run :=
  (sendCommand v s).andThen fun s => delay t s

/-- A command with one configured parameter byte (R162, R163). -/
def configuredCommand (v p : Byte) (s : State) : Run :=
  (sendCommand v s).andThen fun s => sendData8 p s

/-- A gamma command and its table, sent as one block (R164, R165). -/
def gammaCommand (v : Byte) (table : BlockSrc) (s : State) : Run :=
  (sendCommand v s).andThen fun s => sendBlock table 16 1 s

/-- `SLPOUT` (R161). -/
def slpoutFrame (s : State) : Run := settledCommand s.cfg.opcodes.slpout s.cfg.tSlpout s

/-- `MADCTL` (R162). -/
def madctlFrame (s : State) : Run := configuredCommand s.cfg.opcodes.madctl s.cfg.madctlValue s

/-- `COLMOD` (R163). -/
def colmodFrame (s : State) : Run := configuredCommand s.cfg.opcodes.colmod s.cfg.colmodValue s

/-- `GMCTRP1` (R164). -/
def gmctrp1Frame (s : State) : Run := gammaCommand s.cfg.opcodes.gmctrp1 .gammaP s

/-- `GMCTRN1` (R165). -/
def gmctrn1Frame (s : State) : Run := gammaCommand s.cfg.opcodes.gmctrn1 .gammaN s

/-- `INVON` (R166). -/
def invonFrame (s : State) : Run := settledCommand s.cfg.opcodes.invon s.cfg.tSettle s

/-- `INVOFF` (R167). -/
def invoffFrame (s : State) : Run := settledCommand s.cfg.opcodes.invoff s.cfg.tSettle s

/-- `NORON` (R168). -/
def noronFrame (s : State) : Run := settledCommand s.cfg.opcodes.noron s.cfg.tSettle s

/-- `DISPON` (R169). -/
def disponFrame (s : State) : Run := settledCommand s.cfg.opcodes.dispon s.cfg.tSettle s

/-- The pixels of a payload sent one by one (R103, 40_transport.md R147). -/
def sendPixels : List Half → State → Run
  | [], s => .done s
  | v :: rest, s => (sendData16 v s).andThen fun s => sendPixels rest s

/-- `RAMWR` (R172): memory-write-start and the payload. -/
def ramwrFrame (pixels : List Half) (s : State) : Run :=
  (sendCommand s.cfg.opcodes.ramwr s).andThen fun s => sendPixels pixels s

/-- The end of INIT (R160): DeviceState takes fresh unspecified values (10_state.md R50) and `inited`
is set. -/
def finishInit (s : State) : State :=
  { s with
    curX := Config.freeValue s.freeCount
    curY := Config.freeValue (s.freeCount + 1)
    color := Config.freeValue (s.freeCount + 2)
    bgColor := Config.freeValue (s.freeCount + 3)
    freeCount := s.freeCount + 4
    inited := true }

/-- The micro-sequence of INIT (R160). -/
def initSequence (s : State) : Run :=
  (resetPanel s).andThen fun s =>
  (slpoutFrame (select s)).andThen fun s =>
  (madctlFrame s).andThen fun s =>
  (colmodFrame s).andThen fun s =>
  (gmctrp1Frame s).andThen fun s =>
  (gmctrn1Frame s).andThen fun s =>
  (if s.cfg.invert then invonFrame s else invoffFrame s).andThen fun s =>
  (noronFrame s).andThen fun s =>
  (disponFrame s).andThen fun s =>
  .done (finishInit (deselect s))

/-- `INIT` (R160): accepted whether or not `inited`. -/
def execInit (s : State) : Outcome := runOperation 0x00 initSequence s

/-- `SLPOUT` (R161). -/
def execSlpout (s : State) : Outcome := panelCommand s.cfg.opcodes.slpout slpoutFrame s

/-- `NORON` (R168). -/
def execNoron (s : State) : Outcome := panelCommand s.cfg.opcodes.noron noronFrame s

/-- `INVOFF` (R167). -/
def execInvoff (s : State) : Outcome := panelCommand s.cfg.opcodes.invoff invoffFrame s

/-- `INVON` (R166). -/
def execInvon (s : State) : Outcome := panelCommand s.cfg.opcodes.invon invonFrame s

/-- `DISPON` (R169). -/
def execDispon (s : State) : Outcome := panelCommand s.cfg.opcodes.dispon disponFrame s

/-- `CASET` (R170). -/
def execCaset (x0 x1 : Half) (s : State) : Outcome :=
  panelCommand s.cfg.opcodes.caset (casetFrame x0 x1) s

/-- `RASET` (R171). -/
def execRaset (y0 y1 : Half) (s : State) : Outcome :=
  panelCommand s.cfg.opcodes.raset (rasetFrame y0 y1) s

/-- `RAMWR` (R172). -/
def execRamwr (pixels : List Half) (s : State) : Outcome :=
  panelCommand s.cfg.opcodes.ramwr (ramwrFrame pixels) s

/-- `MADCTL` (R162). -/
def execMadctl (s : State) : Outcome := panelCommand s.cfg.opcodes.madctl madctlFrame s

/-- `COLMOD` (R163). -/
def execColmod (s : State) : Outcome := panelCommand s.cfg.opcodes.colmod colmodFrame s

/-- `GMCTRP1` (R164). -/
def execGmctrp1 (s : State) : Outcome := panelCommand s.cfg.opcodes.gmctrp1 gmctrp1Frame s

/-- `GMCTRN1` (R165). -/
def execGmctrn1 (s : State) : Outcome := panelCommand s.cfg.opcodes.gmctrn1 gmctrn1Frame s

end Sys2Proof.Machine
end

