-- ==== Sys2Proof/Machine/Raster.lean ====
section
/-! DEFINITION. The Rasterizer and the row-buffer blit engine (42_rasterizer.md). -/

namespace Sys2Proof.Machine

/-- One panel transaction around a block transfer: bracket, window, payload (R194 to R204,
43_text_engine.md R224). -/
def blockTransaction (x0 y0 x1 y1 : Half) (src : BlockSrc) (len reps : Nat) (s : State) : Run :=
  (setWindow x0 y0 x1 y1 (select s)).andThen fun s =>
  (sendBlock src len reps s).andThen fun s => .done (deselect s)

/-- The micro-sequence `pixel(x, y, c)` (R190). -/
def pixel (x y c : Half) (s : State) : Run :=
  let x' := offX s.cfg x
  let y' := offY s.cfg y
  (setWindow x' y' x' y' (select s)).andThen fun s =>
  (sendData16 c s).andThen fun s => .done (deselect s)

/-- The micro-sequence of FILL_RECT (R194). -/
def fillRect (x y w h c : Half) (s : State) : Run :=
  if w = 0 ∨ h = 0 then .done s
  else
    let x' := offX s.cfg x
    let y' := offY s.cfg y
    if beyond x' w.toNat ∨ beyond y' h.toNat then .raised .windowRange s
    else
      (stageRun c w.toNat s).andThen fun s =>
      blockTransaction x' y' (u16 (farCorner x' w.toNat)) (u16 (farCorner y' h.toNat))
        (.rowBuf 0) (2 * w.toNat) h.toNat s

/-- `draw_fast_h_line(x, y, length, c)` (R196). -/
def fastHLine (x y : Half) (len : Nat) (c : Half) (s : State) : Run :=
  if len = 0 then .done s
  else
    let x' := offX s.cfg x
    let y' := offY s.cfg y
    if beyond x' len then .raised .windowRange s
    else
      (stageRun c len s).andThen fun s =>
      blockTransaction x' y' (u16 (farCorner x' len)) y' (.rowBuf 0) (2 * len) 1 s

/-- `draw_fast_v_line(x, y, length, c)` (R198). -/
def fastVLine (x y : Half) (len : Nat) (c : Half) (s : State) : Run :=
  if len = 0 then .done s
  else
    let x' := offX s.cfg x
    let y' := offY s.cfg y
    if beyond y' len then .raised .windowRange s
    else
      (stageRun c len s).andThen fun s =>
      blockTransaction x' y' x' (u16 (farCorner y' len)) (.rowBuf 0) (2 * len) 1 s

/-- The micro-sequence of DRAW_RECT (R200): top, bottom, left, right. -/
def drawRect (x y w h c : Half) (s : State) : Run :=
  if w = 0 ∨ h = 0 then .done s
  else
    (fastHLine x y w.toNat c s).andThen fun s =>
    (fastHLine x (u16 (y.toNat + h.toNat - 1)) w.toNat c s).andThen fun s =>
    (fastVLine x y h.toNat c s).andThen fun s =>
    fastVLine (u16 (x.toNat + w.toNat - 1)) y h.toNat c s

/-- The micro-sequence of DRAW_BITMAP (R204). -/
def drawBitmap (x y w h : Half) (pixels : Addr) (s : State) : Run :=
  if w = 0 ∨ h = 0 then .done s
  else
    let x' := offX s.cfg x
    let y' := offY s.cfg y
    if beyond x' w.toNat ∨ beyond y' h.toNat then .raised .windowRange s
    else if 2 * w.toNat * h.toNat > blockLenMax then .raised .blockLength s
    else
      blockTransaction x' y' (u16 (farCorner x' w.toNat)) (u16 (farCorner y' h.toNat))
        (.host pixels) (2 * w.toNat * h.toNat) 1 s

/-- The loop of `bresenham` (R210) for `n` points from `(xx, yy)` on, with the error term `err`. -/
def bresenhamLoop (steep : Bool) (dx dy ystep : Int) (c : Half) :
    Nat → Int → Int → Int → State → Run
  | 0, _, _, _, s => .done s
  | n + 1, xx, yy, err, s =>
    (if steep then pixel (u16Int yy) (u16Int xx) c s else pixel (u16Int xx) (u16Int yy) c s).andThen
      fun s =>
      if err - dy < 0 then bresenhamLoop steep dx dy ystep c n (xx + 1) (yy + ystep) (err - dy + dx) s
      else bresenhamLoop steep dx dy ystep c n (xx + 1) yy (err - dy) s

/-- The loop after the swaps of R210: from the smaller long-axis coordinate. The first error term is
the spec's general knowledge (UNVERIFIED, notes/assumptions/9.md). -/
def bresenhamFrom (steep : Bool) (x0 y0 x1 y1 : Int) (c : Half) (s : State) : Run :=
  bresenhamLoop steep (x1 - x0) |y1 - y0| (if y0 < y1 then 1 else -1) c
    ((x1 - x0).toNat + 1) x0 y0 ((x1 - x0) / 2) s

/-- The second swap of R210: the first coordinate increases. -/
def bresenhamOrdered (steep : Bool) (x0 y0 x1 y1 : Int) (c : Half) (s : State) : Run :=
  if x0 > x1 then bresenhamFrom steep x1 y1 x0 y0 c s else bresenhamFrom steep x0 y0 x1 y1 c s

/-- `bresenham(x0, y0, x1, y1, c)` (R210): the first swap puts the long axis first. -/
def bresenham (x0 y0 x1 y1 : Int) (c : Half) (s : State) : Run :=
  if |y1 - y0| > |x1 - x0| then bresenhamOrdered true y0 x0 y1 x1 c s
  else bresenhamOrdered false x0 y0 x1 y1 c s

/-- `|a - b|` of two coordinates (R208). -/
def span (a b : Half) : Nat := max a.toNat b.toNat - min a.toNat b.toNat

/-- The smaller of two coordinates (R208). -/
def lower (a b : Half) : Half := if a ≤ b then a else b

/-- The micro-sequence of DRAW_LINE (R208). -/
def drawLine (x0 y0 x1 y1 c : Half) (s : State) : Run :=
  if x0 = x1 then fastVLine x0 (lower y0 y1) (span y0 y1 + 1) c s
  else if y0 = y1 then fastHLine (lower x0 x1) y0 (span x0 x1 + 1) c s
  else bresenham x0.toNat y0.toNat x1.toNat y1.toNat c s

/-- `DRAW_PIXEL` (R190). -/
def execDrawPixel (x y c : Half) (s : State) : Outcome := hostOperation 0x07 (pixel x y c) s

/-- `DRAW_LINE` (R208). -/
def execDrawLine (x0 y0 x1 y1 c : Half) (s : State) : Outcome :=
  hostOperation 0x08 (drawLine x0 y0 x1 y1 c) s

/-- `DRAW_RECT` (R200). -/
def execDrawRect (x y w h c : Half) (s : State) : Outcome :=
  hostOperation 0x09 (drawRect x y w h c) s

/-- `FILL_RECT` (R194). -/
def execFillRect (x y w h c : Half) (s : State) : Outcome :=
  hostOperation 0x0A (fillRect x y w h c) s

/-- `DRAW_BITMAP` (R204). -/
def execDrawBitmap (x y w h : Half) (pixels : Addr) (s : State) : Outcome :=
  hostOperation 0x0B (drawBitmap x y w h pixels) s

end Sys2Proof.Machine
end

