-- ==== Sys2Proof/Machine/Text.lean ====
section
/-! DEFINITION. The Text Engine (43_text_engine.md): setters, glyphs, strings, numbers. -/

namespace Sys2Proof.Machine

/-- Byte `j` of a glyph (20_memory.md R64). -/
def glyphByte (c : Config) (ch : Byte) (j : Nat) : Byte := Memory.read c.glyph (5 * ch.toNat + j)

/-- The colour of pixel `i` of a glyph, row by row (R224): bit `i / 5` of column byte `i % 5`
(UNVERIFIED, notes/assumptions/9.md). -/
def glyphPixel (s : State) (ch : Byte) (i : Nat) : Half :=
  if (glyphByte s.cfg ch (i % glyphW)).getLsbD (i / glyphW) then s.color else s.bgColor

/-- The first `n` pixels of a glyph staged in ascending order (R224). -/
def stageGlyph (s : State) (ch : Byte) : Nat → Memory → Memory
  | 0, m => m
  | n + 1, m =>
    ((stageGlyph s ch n m).write (2 * n) (hi8 (glyphPixel s ch n))).write (2 * n + 1)
      (lo8 (glyphPixel s ch n))

/-- The micro-sequence `glyph(ch)` (R224). -/
def glyph (ch : Byte) (s : State) : Run :=
  if ch.toNat ≥ s.cfg.glyphCount then .raised .glyphIndex s
  else if beyond s.curX glyphW ∨ beyond s.curY glyphH then .raised .windowRange s
  else
    blockTransaction s.curX s.curY (u16 (farCorner s.curX glyphW)) (u16 (farCorner s.curY glyphH))
      (.glyphBuf 0) glyphBufCap 1
      { s with glyphBuf := stageGlyph s ch (glyphW * glyphH) s.glyphBuf }

/-- `print_one(ch)` (R225): the glyph, then the advance. -/
def printOne (ch : Byte) (s : State) : Run :=
  (glyph ch s).andThen fun s => .done { s with curX := s.curX + u16 cellW }

/-- `n` printed characters, character `i` taken just before its glyph (R226, R230). -/
def printSeq (ch : State → Nat → Byte) : Nat → State → Run
  | 0, s => .done s
  | n + 1, s => (printSeq ch n s).andThen fun s => printOne (ch s n) s

/-- The micro-sequence of PRINT (R226). -/
def printString (len : Half) (addr : Addr) (s : State) : Run :=
  printSeq (fun s i => s.host.read (hostAddr addr i)) len.toNat s

/-- The digit loop of R230: at most `fuel` digits of `m`, written downwards from `pos`. -/
def formatDigits : Nat → Nat → Nat → Memory → Nat × Memory
  | 0, _, pos, b => (pos, b)
  | fuel + 1, m, pos, b =>
    if m = 0 then (pos, b)
    else formatDigits fuel (m / 10) (pos - 1) (b.write (pos - 1) (BitVec.ofNat 8 (0x30 + m % 10)))

/-- The digits of R230, zero as the one digit "0"; a 32-bit magnitude has at most ten. -/
def formatMagnitude (m : Nat) (b : Memory) : Nat × Memory :=
  if m = 0 then (10, b.write 10 0x30) else formatDigits 10 m 11 b

/-- The formatting of R230: terminator, digits, sign; answers the text's start and the buffer. -/
def formatNumber (n : Addr) (b : Memory) : Nat × Memory :=
  let (pos, b) := formatMagnitude (magnitude n) (b.write 11 0x00)
  if negative n then (pos - 1, b.write (pos - 1) 0x2D) else (pos, b)

/-- The micro-sequence of PRINT_NUMBER (R230): leading spaces, then the text from NUMBUF. -/
def printNumber (n : Addr) (width : Half) (s : State) : Run :=
  let (pos, b) := formatNumber n s.numBuf
  (printSeq (fun _ _ => 0x20) (cellsOf width - (11 - pos)) { s with numBuf := b }).andThen fun s =>
  printSeq (fun s i => s.numBuf.read (pos + i)) (11 - pos) s

/-- `SET_CURSOR` (R220): the offsets are added here and nowhere else for text. -/
def setCursor (x y : Half) (s : State) : Run :=
  .done { s with curX := offX s.cfg x, curY := offY s.cfg y }

/-- `SET_CURSOR` (R220). -/
def execSetCursor (x y : Half) (s : State) : Outcome := hostOperation 0x01 (setCursor x y) s

/-- `SET_COLOR` (R221). -/
def execSetColor (c : Half) (s : State) : Outcome :=
  hostOperation 0x02 (fun s => .done { s with color := c }) s

/-- `SET_BGCOLOR` (R222). -/
def execSetBgColor (c : Half) (s : State) : Outcome :=
  hostOperation 0x03 (fun s => .done { s with bgColor := c }) s

/-- `PRINT_CHAR` (R224): the glyph alone; the cursor stays (R227). -/
def execPrintChar (ch : Byte) (s : State) : Outcome := hostOperation 0x04 (glyph ch) s

/-- `PRINT` (R226). -/
def execPrint (len : Half) (addr : Addr) (s : State) : Outcome :=
  hostOperation 0x05 (printString len addr) s

/-- `PRINT_NUMBER` (R230). -/
def execPrintNumber (n : Addr) (width : Half) (s : State) : Outcome :=
  hostOperation 0x06 (printNumber n width) s

end Sys2Proof.Machine
end

