-- ==== Sys2Proof/Machine/Dispatch.lean ====
section
/-! DEFINITION. The dispatch of an instruction to its meaning. -/

namespace Sys2Proof.Machine

def exec (i : Instr) (s : State) : Host.Outcome State Fault Refusal :=
  match i with
  | .init => Sys2Proof.Machine.execInit s
  | .setCursor x y => Sys2Proof.Machine.execSetCursor x y s
  | .setColor c => Sys2Proof.Machine.execSetColor c s
  | .setBgColor c => Sys2Proof.Machine.execSetBgColor c s
  | .printChar ch => Sys2Proof.Machine.execPrintChar ch s
  | .print len addr => Sys2Proof.Machine.execPrint len addr s
  | .printNumber n width => Sys2Proof.Machine.execPrintNumber n width s
  | .drawPixel x y c => Sys2Proof.Machine.execDrawPixel x y c s
  | .drawLine x0 y0 x1 y1 c => Sys2Proof.Machine.execDrawLine x0 y0 x1 y1 c s
  | .drawRect x y w h c => Sys2Proof.Machine.execDrawRect x y w h c s
  | .fillRect x y w h c => Sys2Proof.Machine.execFillRect x y w h c s
  | .drawBitmap x y w h pixels => Sys2Proof.Machine.execDrawBitmap x y w h pixels s
  | .slpout => Sys2Proof.Machine.execSlpout s
  | .noron => Sys2Proof.Machine.execNoron s
  | .invoff => Sys2Proof.Machine.execInvoff s
  | .invon => Sys2Proof.Machine.execInvon s
  | .dispon => Sys2Proof.Machine.execDispon s
  | .caset x0 x1 => Sys2Proof.Machine.execCaset x0 x1 s
  | .raset y0 y1 => Sys2Proof.Machine.execRaset y0 y1 s
  | .ramwr pixels => Sys2Proof.Machine.execRamwr pixels s
  | .madctl => Sys2Proof.Machine.execMadctl s
  | .colmod => Sys2Proof.Machine.execColmod s
  | .gmctrp1 => Sys2Proof.Machine.execGmctrp1 s
  | .gmctrn1 => Sys2Proof.Machine.execGmctrn1 s

end Sys2Proof.Machine
end

