-- ==== Sys2Proof/Machine/Fetch.lean ====
section
/-! DEFINITION. Taking the host's next move (30_encoding.md R109, 10_state.md R41): what a step does
before, or instead of, running an instruction. -/

namespace Sys2Proof.Machine

/-- What the fetch finds: the step is over, or an instruction is to run in a state. -/
inductive Fetched where
  | over (o : Outcome)
  | run (i : Instr) (s : State)
  deriving Repr

/-- The descriptor's fields go to the latches (10_state.md R23; notes/assumptions/16.md). -/
def latch (d : Descriptor) (s : State) : State :=
  { s with
    latches :=
      { op := Descriptor.op d, a := Descriptor.a d, b := Descriptor.b d, c := Descriptor.c d,
        d := Descriptor.d d, e := Descriptor.e d, p := Descriptor.p d } }

/-- The refusal of a request that decodes to no instruction (60_exceptions.md R257). -/
def refusalOf : Reject → Refusal
  | .reservedOp | .reservedRsv => .reservedEncoding
  | .reservedCommand | .frameLength => .reservedFrame

/-- A descriptor at the head of the inputs is accepted or refused (R109); whether `inited` allows it
is the instruction's own check, so a reserved encoding is refused first (R258). -/
def acceptRequest (d : Descriptor) (rest : List HostMove) (s : State) : Fetched :=
  match decodeDescriptor d with
  | .ok i => .run i (latch d { s with inputs := rest })
  | .error e => .over (.refused (refusalOf e))

/-- The frame at the model's own port is run as the panel command it is; it has no fields to latch
(notes/assumptions/4.md). -/
def acceptFrame (bytes : List Byte) (s : State) : Fetched :=
  match decodeFrame s.cfg.opcodes bytes with
  | .ok i => .run i { s with port := none }
  | .error e => .over (.refused (refusalOf e))

/-- The host writes a byte of its memory; it has this move only while the machine is idle
(70_reset_and_hazards.md R292). -/
def pokeHost (a : Addr) (v : Byte) (s : State) : State :=
  { s with host := s.host.write a.toNat v }

/-- The host's next move is taken; without one an idle machine waits. -/
def takeMove (s : State) : Fetched :=
  match s.inputs with
  | [] => .over (.next s)
  | .poke a v :: rest => .over (.next (pokeHost a v { s with inputs := rest }))
  | .request d :: rest => acceptRequest d rest s

/-- The fetch. A fault is kept for the rest of the run (R256). A busy machine takes no move: it can
only be at a wait that is never answered, and stays as it is (R255). An idle one takes the host's
next move; a frame at the model's own port, which no run puts there, goes first. -/
def fetch (s : State) : Fetched :=
  match s.fault with
  | some f => .over (.fault (Fault.of f.kind f.op s))
  | none =>
    match s.seq with
    | .busy _ => .over (.next s)
    | .idle =>
      match s.port with
      | some bytes => acceptFrame bytes s
      | none => takeMove s

/-- The machine about to take a descriptor: idle, with no fault and nothing at the port, the descriptor
first among the host's moves, and, where it is accepted only after an INIT (R42), `inited` as that INIT
leaves it (notes/assumptions/7.md). -/
def placeDescriptor (d : Descriptor) (s : State) : State :=
  { s with
    seq := .idle
    fault := none
    port := none
    inputs := .request d :: s.inputs
    inited := s.inited || decide (Descriptor.op d ≠ 0) }

/-- The machine about to run a frame at its port (notes/assumptions/7.md). -/
def placeFrame (bytes : List Byte) (s : State) : State :=
  { s with seq := .idle, fault := none, port := some bytes }

/-- An instruction's request placed where the next step takes it. -/
def placeRequest (r : Request) (s : State) : State :=
  match r with
  | .descriptor d => placeDescriptor d s
  | .frame bytes => placeFrame bytes s

/-- `placeRequest` for the bits of an opcode-table row. -/
def placeWord (nbits w : Nat) (s : State) : State :=
  match requestOfWord nbits w with
  | some r => placeRequest r s
  | none => s

end Sys2Proof.Machine
end

