-- ==== Sys2Proof/Machine/Step.lean ====
section
/-! DEFINITION. One step: the fetch, and the instruction it found. -/

namespace Sys2Proof.Machine

/-- One step of the machine. A host operation is one step from its acceptance to its end, or to the
wait where it is stuck (notes/assumptions/6.md). -/
def step (s : State) : Host.Outcome State Fault Refusal :=
  match fetch s with
  | .over o => o
  | .run i t => exec i t

/-- The instruction of an opcode-table word placed where the next step takes it. -/
def State.withFetchWord (s : State) (nbits w : Nat) : State := placeWord nbits w s

end Sys2Proof.Machine
end

