-- ==== Sys2Proof/Machine/Plan.lean ====
section
/-! DEFINITION. The event list of an operation as a function of the configuration, the operands,
DeviceState and the memories read (10_state.md R40): what the "Trace" entry of each rule says, written
without the pseudocode, for claims to compare with. No meaning uses it. -/

namespace Sys2Proof.Machine

/-- A panel transaction (00_scope.md glossary): a window and the pixels that fill it. -/
structure Transaction where
  x0 : Half
  y0 : Half
  x1 : Half
  y1 : Half
  pixels : List Half
  deriving DecidableEq, Repr

/-- The two bytes of a 16-bit value on the wire (20_memory.md R66). -/
def halfEvents (v : Half) : List Event := [.byte .data (hi8 v), .byte .data (lo8 v)]

/-- The events of a payload (30_encoding.md R103). -/
def payloadEvents (ps : List Half) : List Event := ps.flatMap halfEvents

/-- The events of `CASET` (41_command_protocol.md R170). -/
def casetEvents (c : Config) (x0 x1 : Half) : List Event :=
  .byte .cmd c.opcodes.caset :: (halfEvents x0 ++ halfEvents x1)

/-- The events of `RASET` (R171). -/
def rasetEvents (c : Config) (y0 y1 : Half) : List Event :=
  .byte .cmd c.opcodes.raset :: (halfEvents y0 ++ halfEvents y1)

/-- The eleven events of `set_window` (R175). -/
def windowEvents (c : Config) (x0 y0 x1 y1 : Half) : List Event :=
  casetEvents c x0 x1 ++ rasetEvents c y0 y1 ++ [.byte .cmd c.opcodes.ramwr]

/-- A chip-select event, where the line exists (40_transport.md R142). -/
def csEvents (c : Config) (l : CsLevel) : List Event := if c.useCs then [.cs l] else []

/-- The events of a panel transaction (R142, R175, R176). -/
def Transaction.events (c : Config) (t : Transaction) : List Event :=
  csEvents c .assert ++ windowEvents c t.x0 t.y0 t.x1 t.y1 ++ payloadEvents t.pixels
    ++ csEvents c .release

/-- The events of an operation and the fault that ends them, where one does (00_scope.md R14). -/
structure Plan where
  events : List Event
  fault : Option FaultKind
  deriving DecidableEq, Repr

/-- No event, no fault. -/
def Plan.nothing : Plan := { events := [], fault := none }

/-- Events and no fault. -/
def Plan.emits (evs : List Event) : Plan := { events := evs, fault := none }

/-- A fault before any event. -/
def Plan.fails (k : FaultKind) : Plan := { events := [], fault := some k }

/-- One plan after another: a fault ends the operation (60_exceptions.md R256). -/
def Plan.andThen (p q : Plan) : Plan :=
  match p.fault with
  | some _ => p
  | none => { events := p.events ++ q.events, fault := q.fault }

/-- One transaction. -/
def Plan.transaction (c : Config) (t : Transaction) : Plan := Plan.emits (t.events c)

/-- The transaction of a pixel (42_rasterizer.md R190). -/
def pixelTransaction (c : Config) (x y col : Half) : Transaction :=
  { x0 := offX c x, y0 := offY c y, x1 := offX c x, y1 := offY c y, pixels := [col] }

/-- The transaction of a filled rectangle (R194). -/
def fillTransaction (c : Config) (x y w h col : Half) : Transaction :=
  { x0 := offX c x, y0 := offY c y
    x1 := u16 (farCorner (offX c x) w.toNat), y1 := u16 (farCorner (offY c y) h.toNat)
    pixels := List.replicate (w.toNat * h.toNat) col }

/-- The transaction of a horizontal run (R196). -/
def hLineTransaction (c : Config) (x y : Half) (len : Nat) (col : Half) : Transaction :=
  { x0 := offX c x, y0 := offY c y, x1 := u16 (farCorner (offX c x) len), y1 := offY c y
    pixels := List.replicate len col }

/-- The transaction of a vertical run (R198). -/
def vLineTransaction (c : Config) (x y : Half) (len : Nat) (col : Half) : Transaction :=
  { x0 := offX c x, y0 := offY c y, x1 := offX c x, y1 := u16 (farCorner (offY c y) len)
    pixels := List.replicate len col }

/-- Pixel `k` of a bitmap in HOST memory, high byte first (20_memory.md R65). -/
def bitmapPixel (m : Memory) (addr : Addr) (k : Nat) : Half :=
  m.read (hostAddr addr (2 * k)) ++ m.read (hostAddr addr (2 * k + 1))

/-- The transaction of a bitmap (R204). -/
def bitmapTransaction (c : Config) (m : Memory) (x y w h : Half) (addr : Addr) : Transaction :=
  { x0 := offX c x, y0 := offY c y
    x1 := u16 (farCorner (offX c x) w.toNat), y1 := u16 (farCorner (offY c y) h.toNat)
    pixels := (List.range (w.toNat * h.toNat)).map (bitmapPixel m addr) }

/-- The transaction of a glyph with the cursor at `x` (43_text_engine.md R224). -/
def glyphTransaction (s : State) (x : Half) (ch : Byte) : Transaction :=
  { x0 := x, y0 := s.curY
    x1 := u16 (farCorner x glyphW), y1 := u16 (farCorner s.curY glyphH)
    pixels := (List.range (glyphW * glyphH)).map (glyphPixel s ch) }

/-- A filled rectangle: R193, R258 (4), R194. -/
def fillPlan (c : Config) (x y w h col : Half) : Plan :=
  if w = 0 ∨ h = 0 then Plan.nothing
  else if beyond (offX c x) w.toNat ∨ beyond (offY c y) h.toNat then Plan.fails .windowRange
  else if w.toNat > c.width then Plan.fails .rowBufOverflow
  else Plan.transaction c (fillTransaction c x y w h col)

/-- A horizontal run: R196. -/
def hLinePlan (c : Config) (x y : Half) (len : Nat) (col : Half) : Plan :=
  if len = 0 then Plan.nothing
  else if beyond (offX c x) len then Plan.fails .windowRange
  else if len > c.width then Plan.fails .rowBufOverflow
  else Plan.transaction c (hLineTransaction c x y len col)

/-- A vertical run: R198. -/
def vLinePlan (c : Config) (x y : Half) (len : Nat) (col : Half) : Plan :=
  if len = 0 then Plan.nothing
  else if beyond (offY c y) len then Plan.fails .windowRange
  else if len > c.width then Plan.fails .rowBufOverflow
  else Plan.transaction c (vLineTransaction c x y len col)

/-- A rectangle's four sides: R200. -/
def rectPlan (c : Config) (x y w h col : Half) : Plan :=
  if w = 0 ∨ h = 0 then Plan.nothing
  else
    (((hLinePlan c x y w.toNat col).andThen (hLinePlan c x (y + h - 1) w.toNat col)).andThen
      (vLinePlan c x y h.toNat col)).andThen (vLinePlan c (x + w - 1) y h.toNat col)

/-- A bitmap: R204. -/
def bitmapPlan (c : Config) (m : Memory) (x y w h : Half) (addr : Addr) : Plan :=
  if w = 0 ∨ h = 0 then Plan.nothing
  else if beyond (offX c x) w.toNat ∨ beyond (offY c y) h.toNat then Plan.fails .windowRange
  else if 2 * w.toNat * h.toNat > blockLenMax then Plan.fails .blockLength
  else Plan.transaction c (bitmapTransaction c m x y w h addr)

/-- How many short-axis steps a line has made at its point `i` (R210): each correction keeps the
error term, which starts at `floor(dx / 2)`, in `0 .. dx - 1`. -/
def lineSteps (dx dy i : Nat) : Nat := (i * dy + (dx - 1 - dx / 2)) / dx

/-- Point `i` of a line from `(a0, b0)` along its long axis (R210). -/
def linePoint (a0 b0 b1 : Half) (dx dy i : Nat) : Half × Half :=
  (u16 (a0.toNat + i),
    if b0 ≤ b1 then u16 (b0.toNat + lineSteps dx dy i) else u16 (b0.toNat - lineSteps dx dy i))

/-- The points of a line whose long axis is the first coordinate, from the smaller end (R210). -/
def longPoints (a0 b0 a1 b1 : Half) : List (Half × Half) :=
  if a0 ≤ a1 then (List.range (span a0 a1 + 1)).map (linePoint a0 b0 b1 (span a0 a1) (span b0 b1))
  else (List.range (span a0 a1 + 1)).map (linePoint a1 b1 b0 (span a0 a1) (span b0 b1))

/-- The points of a line that is neither horizontal nor vertical, in the order they are drawn
(R210); the long axis is the vertical one when `|y1 - y0| > |x1 - x0|`. -/
def linePoints (x0 y0 x1 y1 : Half) : List (Half × Half) :=
  if span y0 y1 > span x0 x1 then (longPoints y0 x0 y1 x1).map (fun p => (p.2, p.1))
  else longPoints x0 y0 x1 y1

/-- A line: R208. -/
def linePlan (c : Config) (x0 y0 x1 y1 col : Half) : Plan :=
  if x0 = x1 then vLinePlan c x0 (lower y0 y1) (span y0 y1 + 1) col
  else if y0 = y1 then hLinePlan c (lower x0 x1) y0 (span x0 x1 + 1) col
  else Plan.emits ((linePoints x0 y0 x1 y1).flatMap fun p => (pixelTransaction c p.1 p.2 col).events c)

/-- A glyph with the cursor at `x`: R224, R258 (4). -/
def glyphPlan (s : State) (x : Half) (ch : Byte) : Plan :=
  if ch.toNat ≥ s.cfg.glyphCount then Plan.fails .glyphIndex
  else if beyond x glyphW ∨ beyond s.curY glyphH then Plan.fails .windowRange
  else Plan.transaction s.cfg (glyphTransaction s x ch)

/-- Printed characters from the cursor at `x` on, six columns each (R225). -/
def textPlan (s : State) : Half → List Byte → Plan
  | _, [] => Plan.nothing
  | x, ch :: rest => (glyphPlan s x ch).andThen (textPlan s (x + u16 cellW) rest)

/-- The characters of a string in HOST memory (R226). -/
def stringChars (m : Memory) (addr : Addr) (len : Nat) : List Byte :=
  (List.range len).map fun i => m.read (hostAddr addr i)

/-- The decimal text of a number: its digits, and a minus before them (R230). -/
def numberText (n : Addr) : List Byte :=
  (if negative n then [0x2D] else [])
    ++ (Nat.toDigits 10 (magnitude n)).map (fun d => BitVec.ofNat 8 d.toNat)

/-- The text with its leading spaces (R230, R231). -/
def numberChars (n : Addr) (width : Half) : List Byte :=
  List.replicate (cellsOf width - (numberText n).length) 0x20 ++ numberText n

/-- A command and a delay (R161, R166 to R169). -/
def settledEvents (v : Byte) (t : Nat) : List Event := [.byte .cmd v, .delay t]

/-- A command and its configured parameter (R162, R163). -/
def configuredEvents (v p : Byte) : List Event := [.byte .cmd v, .byte .data p]

/-- A gamma command and its sixteen bytes (R164, R165). -/
def gammaEvents (v : Byte) (table : List Byte) : List Event :=
  .byte .cmd v :: (List.range 16).map (fun j => .byte .data (table.getD j 0))

/-- The events of INIT (R160). -/
def initEvents (c : Config) : List Event :=
  [.rst false, .delay c.tRstLow, .rst true, .delay c.tRstHigh] ++ csEvents c .assert
    ++ settledEvents c.opcodes.slpout c.tSlpout
    ++ configuredEvents c.opcodes.madctl c.madctlValue
    ++ configuredEvents c.opcodes.colmod c.colmodValue
    ++ gammaEvents c.opcodes.gmctrp1 c.gammaP ++ gammaEvents c.opcodes.gmctrn1 c.gammaN
    ++ settledEvents (if c.invert then c.opcodes.invon else c.opcodes.invoff) c.tSettle
    ++ settledEvents c.opcodes.noron c.tSettle ++ settledEvents c.opcodes.dispon c.tSettle
    ++ csEvents c .release

/-- The event list of an instruction run in a state (R40). -/
def plan (i : Instr) (s : State) : Plan :=
  match i with
  | .init => Plan.emits (initEvents s.cfg)
  | .setCursor _ _ | .setColor _ | .setBgColor _ => Plan.nothing
  | .printChar ch => glyphPlan s s.curX ch
  | .print len addr => textPlan s s.curX (stringChars s.host addr len.toNat)
  | .printNumber n width => textPlan s s.curX (numberChars n width)
  | .drawPixel x y c => Plan.transaction s.cfg (pixelTransaction s.cfg x y c)
  | .drawLine x0 y0 x1 y1 c => linePlan s.cfg x0 y0 x1 y1 c
  | .drawRect x y w h c => rectPlan s.cfg x y w h c
  | .fillRect x y w h c => fillPlan s.cfg x y w h c
  | .drawBitmap x y w h pixels => bitmapPlan s.cfg s.host x y w h pixels
  | .slpout => Plan.emits (settledEvents s.cfg.opcodes.slpout s.cfg.tSlpout)
  | .noron => Plan.emits (settledEvents s.cfg.opcodes.noron s.cfg.tSettle)
  | .invoff => Plan.emits (settledEvents s.cfg.opcodes.invoff s.cfg.tSettle)
  | .invon => Plan.emits (settledEvents s.cfg.opcodes.invon s.cfg.tSettle)
  | .dispon => Plan.emits (settledEvents s.cfg.opcodes.dispon s.cfg.tSettle)
  | .caset x0 x1 => Plan.emits (casetEvents s.cfg x0 x1)
  | .raset y0 y1 => Plan.emits (rasetEvents s.cfg y0 y1)
  | .ramwr pixels => Plan.emits (.byte .cmd s.cfg.opcodes.ramwr :: payloadEvents pixels)
  | .madctl => Plan.emits (configuredEvents s.cfg.opcodes.madctl s.cfg.madctlValue)
  | .colmod => Plan.emits (configuredEvents s.cfg.opcodes.colmod s.cfg.colmodValue)
  | .gmctrp1 => Plan.emits (gammaEvents s.cfg.opcodes.gmctrp1 s.cfg.gammaP)
  | .gmctrn1 => Plan.emits (gammaEvents s.cfg.opcodes.gmctrn1 s.cfg.gammaN)

/-- The panel after events. -/
def panelAfter (c : Config) (evs : List Event) (p : Panel) : Panel :=
  evs.foldl (fun p e => p.accept c e) p

/-- A state after events: the trace and the panel, and nothing else. -/
def afterEvents (evs : List Event) (s : State) : State :=
  { s with trace := s.trace ++ evs, panel := panelAfter s.cfg evs s.panel }

end Sys2Proof.Machine
end

