-- ==== Sys2Proof/Machine/RunRequests.lean ====
section
/-! DEFINITION. A run of the machine past its stops, with the marks the spec keeps for the whole run
(60_exceptions.md R256, R257; 70_reset_and_hazards.md R302). -/

namespace Sys2Proof.Machine

/-- The state a fault leaves (R256). -/
def Fault.left : Fault → State
  | .rowBufOverflow _ t | .windowRange _ t | .glyphIndex _ t | .blockLength _ t => t

/-- The name of a fault and the `OP` it carries (R256). -/
def Fault.record : Fault → FaultRecord
  | .rowBufOverflow op _ => { kind := .rowBufOverflow, op := op }
  | .windowRange op _ => { kind := .windowRange, op := op }
  | .glyphIndex op _ => { kind := .glyphIndex, op := op }
  | .blockLength op _ => { kind := .blockLength, op := op }

/-- What a refusal takes away: the frame at the port, where one is, or the host's request. -/
def dropRefused (s : State) : State :=
  match s.port with
  | some _ => { s with port := none }
  | none => { s with inputs := s.inputs.tail }

/-- The state a run goes on from: after a refusal the request is gone, nothing else has changed, and
the mark `refused` is set (R257). -/
def settle (s : State) : Outcome → State
  | .next t => t
  | .fault f => f.left
  | .refused _ => { dropRefused s with refused := true }

/-- `n` steps of a run. -/
def advance : Nat → State → State
  | 0, s => s
  | n + 1, s => advance n (settle s (step s))

/-- The end of a run is final (R302): every move taken, idle again, no fault, nothing refused, the
block engine off, the byte engine ready, chip-select released where there is one. -/
def State.isFinal (s : State) : Bool :=
  s.inputs.isEmpty && s.port.isNone && decide (s.seq = .idle) && s.fault.isNone && !s.refused
    && !s.blkEn && s.txe && (!s.cfg.useCs || decide (s.csLine = .release))

end Sys2Proof.Machine
end

