-- ==== Sys2Proof/WellFormed.lean ====
section
/-! DEFINITION. What a well-formed instruction and a legal configuration are. -/

namespace Sys2Proof

/-- A window bound pair is well formed when start ≤ end: the AddressWindow invariant `x0 ≤ x1`,
`y0 ≤ y1` (41_command_protocol.md R175). Every other operand may hold any value: the host operations
take every 16-bit, 32-bit or 8-bit operand (R112, R220 to R230). -/
def Instr.wf : Instr → Bool
  | .caset x0 x1 => decide (x0 ≤ x1)
  | .raset y0 y1 => decide (y0 ≤ y1)
  | .init | .setCursor _ _ | .setColor _ | .setBgColor _ | .printChar _ | .print _ _
  | .printNumber _ _ | .drawPixel _ _ _ | .drawLine _ _ _ _ _ | .drawRect _ _ _ _ _
  | .fillRect _ _ _ _ _ | .drawBitmap _ _ _ _ _ | .slpout | .noron | .invoff | .invon | .dispon
  | .ramwr _ | .madctl | .colmod | .gmctrp1 | .gmctrn1 => true

/-- The twelve opcode values are pairwise distinct (00_scope.md R9). -/
def Opcodes.wf (o : Opcodes) : Bool := decide (PanelCmd.all.map o.code).Nodup

/-- A configuration is legal: the ranges of 00_scope.md R6 to R10. -/
def Config.wf (c : Config) : Bool :=
  decide (1 ≤ c.width ∧ c.width ≤ 32767) && decide (1 ≤ c.height ∧ c.height ≤ 65535)
  && decide (c.gammaP.length = 16) && decide (c.gammaN.length = 16) && c.opcodes.wf
  && decide (0 < c.tRstLow) && decide (0 < c.tRstHigh) && decide (0 < c.tSlpout)
  && decide (0 < c.tSettle) && decide (1 ≤ c.glyphCount ∧ c.glyphCount ≤ 256)
  && Machine.Memory.wf c.glyph && Machine.Cells.below (5 * c.glyphCount) c.glyph

/-- The visible area lies inside the controller's range: what 20_memory.md R87 requires of a
configuration for its display-space view. -/
def Config.visible (c : Config) : Bool :=
  decide (c.xOffset.toNat + c.width ≤ c.gramCols) && decide (c.yOffset.toNat + c.height ≤ c.gramRows)

end Sys2Proof
end

