-- ==== Sys2Proof/Safety.lean ====
section
/-! DEFINITION. What claims about the machine are stated in: the environment that answers, the platform
that is ready, the invariant of every step, and how an outcome is looked at. -/

namespace Sys2Proof

open Machine (span)

/-- The twelve host operations (30_encoding.md R110). -/
def Instr.isHost : Instr → Bool
  | .init | .setCursor _ _ | .setColor _ | .setBgColor _ | .printChar _ | .print _ _
  | .printNumber _ _ | .drawPixel _ _ _ | .drawLine _ _ _ _ _ | .drawRect _ _ _ _ _
  | .fillRect _ _ _ _ _ | .drawBitmap _ _ _ _ _ => true
  | .slpout | .noron | .invoff | .invon | .dispon | .caset _ _ | .raset _ _ | .ramwr _ | .madctl
  | .colmod | .gmctrp1 | .gmctrn1 => false

/-- The five drawing operations. -/
def Instr.isRaster : Instr → Bool
  | .drawPixel _ _ _ | .drawLine _ _ _ _ _ | .drawRect _ _ _ _ _ | .fillRect _ _ _ _ _
  | .drawBitmap _ _ _ _ _ => true
  | .init | .setCursor _ _ | .setColor _ | .setBgColor _ | .printChar _ | .print _ _
  | .printNumber _ _ | .slpout | .noron | .invoff | .invon | .dispon | .caset _ _ | .raset _ _
  | .ramwr _ | .madctl | .colmod | .gmctrp1 | .gmctrn1 => false

/-- The six operations of the Text Engine. -/
def Instr.isText : Instr → Bool
  | .setCursor _ _ | .setColor _ | .setBgColor _ | .printChar _ | .print _ _ | .printNumber _ _ => true
  | .init | .drawPixel _ _ _ | .drawLine _ _ _ _ _ | .drawRect _ _ _ _ _ | .fillRect _ _ _ _ _
  | .drawBitmap _ _ _ _ _ | .slpout | .noron | .invoff | .invon | .dispon | .caset _ _ | .raset _ _
  | .ramwr _ | .madctl | .colmod | .gmctrp1 | .gmctrn1 => false

/-- The `OP` of a host operation (R110); for a panel command its opcode byte. -/
def Instr.opByte (c : Config) : Instr → Byte
  | .init => 0x00
  | .setCursor _ _ => 0x01
  | .setColor _ => 0x02
  | .setBgColor _ => 0x03
  | .printChar _ => 0x04
  | .print _ _ => 0x05
  | .printNumber _ _ => 0x06
  | .drawPixel _ _ _ => 0x07
  | .drawLine _ _ _ _ _ => 0x08
  | .drawRect _ _ _ _ _ => 0x09
  | .fillRect _ _ _ _ _ => 0x0A
  | .drawBitmap _ _ _ _ _ => 0x0B
  | .slpout => c.opcodes.slpout
  | .noron => c.opcodes.noron
  | .invoff => c.opcodes.invoff
  | .invon => c.opcodes.invon
  | .dispon => c.opcodes.dispon
  | .caset _ _ => c.opcodes.caset
  | .raset _ _ => c.opcodes.raset
  | .ramwr _ => c.opcodes.ramwr
  | .madctl => c.opcodes.madctl
  | .colmod => c.opcodes.colmod
  | .gmctrp1 => c.opcodes.gmctrp1
  | .gmctrn1 => c.opcodes.gmctrn1

/-- The bits of a descriptor that its operation reads: `OP`, `RSV` and the fields R110 gives a
meaning (R112). -/
def Descriptor.usedBits (op : Byte) : Descriptor :=
  match op.toNat with
  | 0x01 => 0xFFFFFFFFFFFF00000000000000000000
  | 0x02 | 0x03 => 0xFFFF000000000000_0000FFFF00000000
  | 0x04 => 0xFFFF00FF000000000000000000000000
  | 0x05 | 0x06 => 0xFFFFFFFF0000000000000000FFFFFFFF
  | 0x07 => 0xFFFFFFFFFFFF0000_0000FFFF00000000
  | 0x08 | 0x09 | 0x0A => 0xFFFFFFFFFFFFFFFF_FFFFFFFF00000000
  | 0x0B => 0xFFFFFFFFFFFFFFFF_FFFF0000FFFFFFFF
  | _ => 0xFFFF0000000000000000000000000000

/-- How many bytes of ROWBUF an instruction may write, from its first (42_rasterizer.md R192). -/
def Instr.stagedBytes : Instr → Nat
  | .fillRect _ _ w h _ => if w = 0 ∨ h = 0 then 0 else 2 * w.toNat
  | .drawRect _ _ w h _ => if w = 0 ∨ h = 0 then 0 else 2 * max w.toNat h.toNat
  | .drawLine x0 y0 x1 y1 _ =>
    if x0 = x1 then 2 * (span y0 y1 + 1) else if y0 = y1 then 2 * (span x0 x1 + 1) else 0
  | .init | .setCursor _ _ | .setColor _ | .setBgColor _ | .printChar _ | .print _ _
  | .printNumber _ _ | .drawPixel _ _ _ | .drawBitmap _ _ _ _ _ | .slpout | .noron | .invoff | .invon
  | .dispon | .caset _ _ | .raset _ _ | .ramwr _ | .madctl | .colmod | .gmctrp1 | .gmctrn1 => 0

end Sys2Proof

namespace Sys2Proof.Machine

/-- L1 to L3 of 70_reset_and_hazards.md R296: every wait is answered. -/
def Env.isLive (e : Env) : Prop := e.spi = none ∧ e.dma = none ∧ e.timer = none

/-- The launch premise `PlatformReady` (R284): the byte engine is idle and the block engine off. -/
def State.platformReady (s : State) : Prop := s.txe = true ∧ s.blkEn = false

/-- The buffers hold canonical memories inside their spaces (20_memory.md R60). -/
structure State.buffersInv (s : State) : Prop where
  rowBuf : Memory.wf s.rowBuf = true ∧ Cells.below s.cfg.rowBufCap s.rowBuf = true
  glyphBuf : Memory.wf s.glyphBuf = true ∧ Cells.below glyphBufCap s.glyphBuf = true
  numBuf : Memory.wf s.numBuf = true ∧ Cells.below numBufCap s.numBuf = true
  host : Memory.wf s.host = true ∧ Cells.below (2 ^ 32) s.host = true
  gram : Cells.sorted s.panel.gram = true ∧ Cells.below (2 ^ 32) s.panel.gram = true

/-- What holds whenever the sequencer is idle: the byte engine is ready (40_transport.md R144), the
block engine is off (70_reset_and_hazards.md R297), and after INIT chip-select, where there is one, is
released (R142). -/
structure State.idleInv (s : State) : Prop where
  txe : s.seq = .idle → s.txe = true
  blkEn : s.seq = .idle → s.blkEn = false
  csLine : s.seq = .idle → s.inited = true → s.cfg.useCs = true → s.csLine = .release

/-- The invariant every step keeps: the configuration legal (00_scope.md R6 to R10), the memories and
the idle state as above. -/
structure State.Inv (s : State) : Prop where
  cfg : s.cfg.wf = true
  buffers : s.buffersInv
  idle : s.idleInv

/-- A predicate on the next state, where there is one. -/
def Outcome.onNext (o : Outcome) (p : State → Prop) : Prop :=
  match o with
  | .next t => p t
  | .fault _ | .refused _ => True

/-- A predicate on the state an outcome leaves, by a next state or by a fault. -/
def Outcome.onLeft (o : Outcome) (p : State → Prop) : Prop :=
  match o with
  | .next t => p t
  | .fault f => p f.left
  | .refused _ => True

/-- The state an outcome leaves, where it leaves one. -/
def Outcome.left? (o : Outcome) : Option State :=
  match o with
  | .next t => some t
  | .fault f => some f.left
  | .refused _ => none

/-- An outcome with a function applied to the state it leaves. -/
def Outcome.mapState (f : State → State) (o : Outcome) : Outcome :=
  match o with
  | .next t => .next (f t)
  | .fault (.rowBufOverflow op t) => .fault (.rowBufOverflow op (f t))
  | .fault (.windowRange op t) => .fault (.windowRange op (f t))
  | .fault (.glyphIndex op t) => .fault (.glyphIndex op (f t))
  | .fault (.blockLength op t) => .fault (.blockLength op (f t))
  | .refused r => .refused r

/-- The events an outcome added to a trace that had `n` of them. -/
def Outcome.newEvents (n : Nat) (o : Outcome) : Option (List Event) :=
  o.left?.map fun t => t.trace.drop n

/-- Chip-select after a bracket (40_transport.md R142): released where the line exists. -/
def released (s : State) : CsLevel := if s.cfg.useCs then .release else s.csLine

/-- The position after `n` more events (10_state.md R40). -/
def Seq.plus (q : Seq) (n : Nat) : Seq :=
  match q with
  | .idle => .idle
  | .busy k => .busy (k + n)

/-- A chip-select event. -/
def Event.isCs : Event → Bool
  | .cs _ => true
  | .rst _ | .byte _ _ | .delay _ => false

/-- The faults an operation can raise (60_exceptions.md R256, the column "raised by"). -/
def FaultKind.raisedBy : FaultKind → Instr → Bool
  | .rowBufOverflow, .drawLine _ _ _ _ _ | .rowBufOverflow, .drawRect _ _ _ _ _
  | .rowBufOverflow, .fillRect _ _ _ _ _ => true
  | .windowRange, .drawLine _ _ _ _ _ | .windowRange, .drawRect _ _ _ _ _
  | .windowRange, .fillRect _ _ _ _ _ | .windowRange, .drawBitmap _ _ _ _ _
  | .windowRange, .printChar _ | .windowRange, .print _ _ | .windowRange, .printNumber _ _ => true
  | .glyphIndex, .printChar _ | .glyphIndex, .print _ _ | .glyphIndex, .printNumber _ _ => true
  | .blockLength, .drawBitmap _ _ _ _ _ => true
  | _, _ => false

/-- A state without what no rule reads: the trace (10_state.md R49), the panel (R46) and the latches
(R23). -/
def State.unread (s : State) : State :=
  { s with
    trace := []
    panel := Panel.spoiled
    latches := { op := 0, a := 0, b := 0, c := 0, d := 0, e := 0, p := 0 } }

/-- Instructions one after another, where each answers a next state with the sequencer idle. -/
def execAll : List Instr → State → Option State
  | [], s => some s
  | i :: rest, s =>
    match exec i s with
    | .next t => if t.seq = .idle then execAll rest t else none
    | .fault _ | .refused _ => none

/-- The cells of a `w` by `h` rectangle. -/
def grid (w h : Nat) : List (Nat × Nat) :=
  (List.range w).flatMap fun i => (List.range h).map fun j => (i, j)

/-- A transaction's window is ordered and its pixels fill it (41_command_protocol.md R175, R177). -/
def Transaction.exact (t : Transaction) : Prop :=
  t.x0 ≤ t.x1 ∧ t.y0 ≤ t.y1 ∧
    t.pixels.length = (t.x1.toNat - t.x0.toNat + 1) * (t.y1.toNat - t.y0.toNat + 1)

/-- The character of a string at a position, and whether it can be printed there (43_text_engine.md
R224): the glyph table has it and its window fits 16 bits. -/
def State.printable (s : State) (i : Nat) (ch : Byte) : Prop :=
  ch.toNat < s.cfg.glyphCount ∧ beyond (s.curX + u16 (cellW * i)) glyphW = false
    ∧ beyond s.curY glyphH = false

/-- The transactions of characters printed from the cursor on (R225). -/
def glyphTransactions (s : State) (chars : List Byte) : List Transaction :=
  chars.zipIdx.map fun p => glyphTransaction s (s.curX + u16 (cellW * p.2)) p.1

/-- What a byte of ROWBUF holds after `n` pixels of a colour are staged (R192). -/
def stagedByte (c : Half) (n : Nat) (before : Memory) (a : Nat) : Byte :=
  if a < 2 * n then (if a % 2 = 0 then hi8 c else lo8 c) else before.read a

/-- What a byte of GLYPHBUF holds after a glyph is staged (20_memory.md R63, 43_text_engine.md R224). -/
def glyphBufByte (s : State) (ch : Byte) (a : Nat) : Byte :=
  if a < glyphBufCap then
    (if a % 2 = 0 then hi8 (glyphPixel s ch (a / 2)) else lo8 (glyphPixel s ch (a / 2)))
  else s.glyphBuf.read a

end Sys2Proof.Machine
end

