-- ==== Sys2Proof/Certificates/Slice0/Obligations.lean ====
section
/-! DEFINITION. The statements for the provers, from the spec's numbered rules. Every one holds for every
configuration: none rests on a value of T0. -/

open Sys2Proof Sys2Proof.Machine

/-! ### Encoding -/

/-- R104, R105, R108, R110: decoding what the encoder writes gives the instruction back, for every legal
opcode table, every instruction and every operand. -/
def Obligations.DecodeEncodeRoundTrip : Prop :=
  ∀ (o : Opcodes) (i : Instr), o.wf = true → decode o (encode o i) = .ok i

/-- R108, R110: descriptors written out by hand from the layout of the spec decode to the instructions they
stand for. R104: so do three command bytes; that such an 8-bit word is read as a frame with operand bytes
of zeros, as in `caset 0 0`, is the model's choice (log entries 4 and 7). -/
def Obligations.DecodedSpecWords : Prop :=
  decodeTableWord 128 0x00000000000000000000000000000000 = some .init ∧
  decodeTableWord 128 0x0100000A001400000000000000000000 = some (.setCursor 10 20) ∧
  decodeTableWord 128 0x0500000200000000000000000000_1000 = some (.print 2 0x1000) ∧
  decodeTableWord 128 0x06000018000000000000000000000005 = some (.printNumber 5 24) ∧
  decodeTableWord 128 0x0A00000A00050003000207E000000000 = some (.fillRect 10 5 3 2 0x07E0) ∧
  decodeTableWord 128 0x0B000004000200020002000000002000 = some (.drawBitmap 4 2 2 2 0x2000) ∧
  decodeTableWord 8 0x11 = some .slpout ∧
  decodeTableWord 8 0x2A = some (.caset 0 0) ∧
  decodeTableWord 8 0xE1 = some .gmctrn1

/-- R111, R257: a descriptor is reserved exactly when its `OP` is 0x0C or more or its `RSV` is not 0; a
reserved one is refused, whether or not `inited`, and nothing changes but the mark of R257. That the run
goes on without the request is the model's choice (log entry 11). -/
def Obligations.ReservedDescriptorsRefused : Prop :=
  ∀ (d : Descriptor),
    ((∃ e, decodeDescriptor d = .error e) ↔ 0x0C ≤ (Descriptor.op d).toNat ∨ Descriptor.rsv d ≠ 0) ∧
    ∀ (s : State) (rest : List HostMove),
      (0x0C ≤ (Descriptor.op d).toNat ∨ Descriptor.rsv d ≠ 0) →
      s.fault = none → s.seq = .idle → s.port = none → s.inputs = .request d :: rest →
      step s = .refused .reservedEncoding ∧
      settle s (step s) = { s with inputs := rest, refused := true }

/-- R112: two descriptors that differ only in bits their operation does not read give the same outcome,
but for the latches, which R112 leaves aside because no rule reads them (R23). -/
def Obligations.IgnoredFieldsDoNotMatter : Prop :=
  ∀ (d e : Descriptor) (s : State) (rest : List HostMove),
    d &&& Descriptor.usedBits (Descriptor.op d) = e &&& Descriptor.usedBits (Descriptor.op d) →
    s.fault = none → s.seq = .idle → s.port = none →
    Outcome.mapState (fun t => { t with latches := s.latches })
        (step { s with inputs := .request d :: rest })
      = Outcome.mapState (fun t => { t with latches := s.latches })
          (step { s with inputs := .request e :: rest })

/-! ### The step -/

/-- R109: an idle machine with a descriptor before it runs the decoded instruction, with the request
taken from the host's moves and latched. At the model's own port (log entry 4) it runs the decoded panel
command, with the frame taken. -/
def Obligations.StepRunsDecoded : Prop :=
  (∀ (s : State) (d : Descriptor) (rest : List HostMove) (i : Instr),
    s.fault = none → s.seq = .idle → s.port = none → s.inputs = .request d :: rest →
    decodeDescriptor d = .ok i →
    step s = exec i (latch d { s with inputs := rest })) ∧
  ∀ (s : State) (bytes : List Byte) (i : Instr),
    s.fault = none → s.seq = .idle → s.port = some bytes →
    decodeFrame s.cfg.opcodes bytes = .ok i →
    step s = exec i { s with port := none }

/-- R113: a machine whose own port is empty, as at reset, never gets anything there, whatever the host
does, and whatever it does to the wire, the lines, the flags and the block engine is the meaning of a host
operation that the host's descriptor asked for, allowed by R42. So no run of the host's moves reaches a
routine of the Transport, or a panel command, but by such an operation. -/
def Obligations.RoutinesOnlyByHostOperations : Prop :=
  State.reset.port = none ∧
  (∀ (d : Descriptor) (i : Instr), decodeDescriptor d = .ok i → i.isHost = true) ∧
  ∀ (s : State), s.port = none →
    (settle s (step s)).port = none ∧
    Outcome.onLeft (step s) fun t =>
      (t.trace = s.trace ∧ t.panel = s.panel ∧ t.rstLine = s.rstLine ∧ t.dcLine = s.dcLine ∧
        t.csLine = s.csLine ∧ t.txe = s.txe ∧ t.tc = s.tc ∧ t.blkEn = s.blkEn ∧ t.blkSrc = s.blkSrc ∧
        t.blkLen = s.blkLen) ∨
      ∃ d rest i, s.inputs = .request d :: rest ∧ decodeDescriptor d = .ok i ∧
        (i = .init ∨ s.inited = true) ∧ step s = exec i (latch d { s with inputs := rest })

/-- R23: an accepted descriptor's fields are in the latches, and stay there until the operation ends; that
they stay there after it has ended is the model's choice (log entry 16). -/
def Obligations.LatchesHoldTheRequest : Prop :=
  ∀ (s : State) (d : Descriptor) (rest : List HostMove),
    s.fault = none → s.seq = .idle → s.port = none → s.inputs = .request d :: rest →
    Outcome.onLeft (step s) fun t =>
      t.latches.op = Descriptor.op d ∧ t.latches.a = Descriptor.a d ∧ t.latches.b = Descriptor.b d ∧
      t.latches.c = Descriptor.c d ∧ t.latches.d = Descriptor.d d ∧ t.latches.e = Descriptor.e d ∧
      t.latches.p = Descriptor.p d

/-- R41: a busy machine accepts no request and takes no other move, however long the run. That a step
leaves every busy state as it is, is the model's choice (log entry 6): its steps run whole operations, so
that busy between two steps is the hang of R255, where R40 goes from `Busy(k)` to `Busy(k+1)`. -/
def Obligations.BusyAcceptsNothing : Prop :=
  ∀ (s : State) (k n : Nat), s.fault = none → s.seq = .busy k → step s = .next s ∧ advance n s = s

/-- R256: a fault is kept for the rest of the run, whatever the host presents. -/
def Obligations.FaultEndsTheRun : Prop :=
  ∀ (s : State) (f : FaultRecord) (n : Nat), s.fault = some f →
    step s = .fault (Fault.of f.kind f.op s) ∧ advance n s = s

/-- R256: an operation that faults raises a fault of its row of the table, with its `OP`; the fault is
recorded; the events already emitted stay and are counted by the position, which is not idle. -/
def Obligations.FaultLeavesItsMark : Prop :=
  ∀ (i : Instr) (s : State) (f : Fault), s.cfg.width ≤ 32767 → exec i s = .fault f →
    f.record.kind.raisedBy i = true ∧ f.record.op = i.opByte s.cfg ∧
    f.left.fault = some f.record ∧
    ∃ evs, f.left.trace = s.trace ++ evs ∧ f.left.seq = .busy evs.length

/-- R42, R257: `inited` is false at power-on and never cleared; an INIT that ends sets it, and nothing
else does: no other instruction, no INIT that hangs, and no step but one that ends an INIT the host asked
for. While it is false every host operation but INIT is refused, and exec has no other refusal. -/
def Obligations.InitGate : Prop :=
  (∀ c, (State.powerOn c).inited = false) ∧
  (∀ s t, exec .init s = .next t → t.seq = .idle → t.inited = true) ∧
  (∀ s, s.inited = true → Outcome.onLeft (step s) fun t => t.inited = true) ∧
  (∀ i s, Outcome.onLeft (exec i s) fun t => t.inited = s.inited ∨ (i = .init ∧ t.seq = .idle)) ∧
  (∀ s, Outcome.onLeft (step s) fun t => t.inited = s.inited ∨
    (t.seq = .idle ∧ ∃ d rest, s.inputs = .request d :: rest ∧ decodeDescriptor d = .ok .init)) ∧
  (∀ i s, i.isHost = true → i ≠ .init → s.inited = false → exec i s = .refused .notInitialised) ∧
  (∀ i s r, exec i s = .refused r → i.isHost = true ∧ i ≠ .init ∧ s.inited = false)

/-- R292, R65: the one way a byte of HOST memory changes is a move the host has while the machine is
idle; it changes that byte and no other. -/
def Obligations.HostOwnsItsMemory : Prop :=
  (∀ (s : State) (a : Addr) (v : Byte) (rest : List HostMove),
    s.fault = none → s.seq = .idle → s.port = none → s.inputs = .poke a v :: rest →
    ∃ m : Memory, step s = .next { s with inputs := rest, host := m } ∧
      ∀ b, m.read b = if b = a.toNat then v else s.host.read b) ∧
  ∀ (i : Instr) (s : State), Outcome.onLeft (exec i s) fun t => t.host = s.host

/-! ### Power-on and INIT -/

/-- R280: at power-on the sequencer is idle and `inited` is false, for every configuration, and reset is
power-on. -/
def Obligations.PowerOnIsIdle : Prop :=
  (∀ c, (State.powerOn c).seq = .idle ∧ (State.powerOn c).inited = false
    ∧ (State.powerOn c).cfg = c ∧ (State.powerOn c).trace = []) ∧
  State.reset = State.powerOn Config.t0

/-- R160, R161 to R169, the right-hand column of R50: INIT completes from every state in an environment
that answers, with the 52 or 50 events of R160; the four values of DeviceState are free values. -/
def Obligations.InitResult : Prop :=
  ∀ (s : State), s.env.isLive →
    (initEvents s.cfg).length = (if s.cfg.useCs then 52 else 50) ∧
    exec .init s = .next
      { afterEvents (initEvents s.cfg) s with
        seq := .idle
        inited := true
        rstLine := true
        dcLine := .cmd
        csLine := released s
        txe := true
        tc := true
        blkEn := false
        blkSrc := .gammaN
        blkLen := 16
        curX := Config.freeValue s.freeCount
        curY := Config.freeValue (s.freeCount + 1)
        color := Config.freeValue (s.freeCount + 2)
        bgColor := Config.freeValue (s.freeCount + 3)
        freeCount := s.freeCount + 4 }

/-- R160, R80, R81, R86: whatever the panel's state before, INIT leaves it known, awake and on, with the
configured registers, and with no specified pixel. That `RST(1)` leaves the sink as it is, where R81 says
nothing of it, and that the sequence of INIT is complete at display-on are the model's (log entry 8). -/
def Obligations.InitLeavesThePanelKnown : Prop :=
  ∀ (s t : State), s.env.isLive → s.cfg.wf = true → exec .init s = .next t →
    t.panel.status = .known ∧
    t.panel.regs =
      { sleepOut := true, normalOn := true, displayOn := true, inversion := some s.cfg.invert
        madctl := some s.cfg.madctlValue, colmod := some s.cfg.colmodValue
        gammaP := s.cfg.gammaP, gammaN := s.cfg.gammaN } ∧
    ∀ col row, t.panel.cell col row = none

/-! ### The twelve panel commands -/

/-- R161, R166 to R169: the five commands with no parameter send their byte and a delay. That each runs as
an instruction of its own, without INIT and without a bracket, is the model's port (log entry 4). -/
def Obligations.SettledCommands : Prop :=
  ∀ (s : State), s.env.isLive →
    exec .slpout s = .next { afterEvents [.byte .cmd s.cfg.opcodes.slpout, .delay s.cfg.tSlpout] s with
      seq := .idle, dcLine := .cmd, txe := true } ∧
    exec .invon s = .next { afterEvents [.byte .cmd s.cfg.opcodes.invon, .delay s.cfg.tSettle] s with
      seq := .idle, dcLine := .cmd, txe := true } ∧
    exec .invoff s = .next { afterEvents [.byte .cmd s.cfg.opcodes.invoff, .delay s.cfg.tSettle] s with
      seq := .idle, dcLine := .cmd, txe := true } ∧
    exec .noron s = .next { afterEvents [.byte .cmd s.cfg.opcodes.noron, .delay s.cfg.tSettle] s with
      seq := .idle, dcLine := .cmd, txe := true } ∧
    exec .dispon s = .next { afterEvents [.byte .cmd s.cfg.opcodes.dispon, .delay s.cfg.tSettle] s with
      seq := .idle, dcLine := .cmd, txe := true }

/-- R162, R163: the two commands with one configured parameter byte, and no delay. That each runs as an
instruction of its own, without INIT and without a bracket, is the model's port (log entry 4). -/
def Obligations.ConfiguredCommands : Prop :=
  ∀ (s : State), s.env.isLive →
    exec .madctl s = .next
      { afterEvents [.byte .cmd s.cfg.opcodes.madctl, .byte .data s.cfg.madctlValue] s with
        seq := .idle, dcLine := .data, txe := true } ∧
    exec .colmod s = .next
      { afterEvents [.byte .cmd s.cfg.opcodes.colmod, .byte .data s.cfg.colmodValue] s with
        seq := .idle, dcLine := .data, txe := true }

/-- R164, R165: the gamma commands send their sixteen table bytes, in index order, by one block. That each
runs as an instruction of its own, without INIT and without a bracket, is the model's port (log entry 4). -/
def Obligations.GammaCommands : Prop :=
  ∀ (s : State), s.env.isLive → s.cfg.gammaP.length = 16 → s.cfg.gammaN.length = 16 →
    exec .gmctrp1 s = .next
      { afterEvents (.byte .cmd s.cfg.opcodes.gmctrp1 :: s.cfg.gammaP.map (Event.byte .data)) s with
        seq := .idle, dcLine := .data, txe := true, tc := true, blkEn := false, blkSrc := .gammaP
        blkLen := 16 } ∧
    exec .gmctrn1 s = .next
      { afterEvents (.byte .cmd s.cfg.opcodes.gmctrn1 :: s.cfg.gammaN.map (Event.byte .data)) s with
        seq := .idle, dcLine := .data, txe := true, tc := true, blkEn := false, blkSrc := .gammaN
        blkLen := 16 }

/-- R170, R171: the window commands send start and end, each high byte first. That each runs as an
instruction of its own, without INIT and without a bracket, and with unordered bounds too where R175 wants
start ≤ end, is the model's port (log entry 4). -/
def Obligations.WindowCommands : Prop :=
  ∀ (s : State) (a b : Half), s.env.isLive →
    exec (.caset a b) s = .next
      { afterEvents [.byte .cmd s.cfg.opcodes.caset, .byte .data (hi8 a), .byte .data (lo8 a),
          .byte .data (hi8 b), .byte .data (lo8 b)] s with
        seq := .idle, dcLine := .data, txe := true } ∧
    exec (.raset a b) s = .next
      { afterEvents [.byte .cmd s.cfg.opcodes.raset, .byte .data (hi8 a), .byte .data (lo8 a),
          .byte .data (hi8 b), .byte .data (lo8 b)] s with
        seq := .idle, dcLine := .data, txe := true }

/-- R172, R103: memory-write sends its byte and its payload, two bytes a pixel, high byte first. That it
runs as an instruction of its own, without INIT, window or bracket, and with any payload, is the model's
port (log entry 4). -/
def Obligations.MemoryWriteCommand : Prop :=
  ∀ (s : State) (pixels : List Half), s.env.isLive →
    exec (.ramwr pixels) s = .next
      { afterEvents (.byte .cmd s.cfg.opcodes.ramwr
          :: pixels.flatMap fun v => [.byte .data (hi8 v), .byte .data (lo8 v)]) s with
        seq := .idle, dcLine := if pixels = [] then .cmd else .data, txe := true }

/-! ### The Transport -/

/-- R144 to R147: the byte routines, with the line set, the flag ready again, and one event a byte, high
byte first. -/
def Obligations.ByteRoutines : Prop :=
  ∀ (s : State) (v : Byte) (w : Half), s.env.isLive →
    sendCommand v s = .done { afterEvents [.byte .cmd v] s with
      seq := s.seq.plus 1, dcLine := .cmd, txe := true } ∧
    sendData8 v s = .done { afterEvents [.byte .data v] s with
      seq := s.seq.plus 1, dcLine := .data, txe := true } ∧
    sendData16 w s = .done { afterEvents [.byte .data (hi8 w), .byte .data (lo8 w)] s with
      seq := s.seq.plus 2, dcLine := .data, txe := true }

/-- R150, R151, R153, R288: a block transfer sends exactly `length × repeat_count` bytes, the buffer's in
ascending order and the whole again for each pass, whatever `tc` held before; `tc` ends set and the
engine disabled. A length or count out of range is a fault before anything else. -/
def Obligations.BlockTransferIsExact : Prop :=
  ∀ (s : State) (src : BlockSrc) (len reps : Nat),
    (s.env.isLive → 1 ≤ len → len ≤ blockLenMax → 1 ≤ reps → reps ≤ repeatMax →
      sendBlock src len reps s = .done
        { afterEvents ((List.replicate reps ((List.range len).map fun j =>
            Event.byte .data (sourceByte s src j))).flatten) s with
          seq := s.seq.plus (len * reps), dcLine := .data, tc := true, blkEn := false
          blkSrc := src, blkLen := BitVec.ofNat 16 len }) ∧
    ((len = 0 ∨ blockLenMax < len ∨ reps = 0 ∨ repeatMax < reps) →
      sendBlock src len reps s = .raised .blockLength s)

/-- R144, R255: the first byte of a pixel when the byte engine never answers: the byte is on the wire,
`txe` stays 0, chip-select stays asserted, and the sequencer stays there for ever. -/
def Obligations.StalledByteEngine : Prop :=
  ∀ (s : State) (x y c : Half) (n : Nat),
    s.inited = true → s.fault = none → s.txe = true → s.env.spi = some 0 →
    ∃ t, exec (.drawPixel x y c) s = .next t ∧
      t = { afterEvents (csEvents s.cfg .assert ++ [.byte .cmd s.cfg.opcodes.caset]) s with
            seq := .busy (if s.cfg.useCs then 2 else 1), dcLine := .cmd
            csLine := if s.cfg.useCs then .assert else s.csLine, txe := false } ∧
      advance n t = t

/-- R150, R255, R32: a fill whose block engine never completes: the window and a part of the first pass
are on the wire, even when `tc` was left set, and the engine stays enabled. -/
def Obligations.StalledBlockEngine : Prop :=
  ∀ (s : State) (x y w h c : Half) (n : Nat),
    s.inited = true → s.fault = none → s.env.spi = none → s.env.dma = some 0 →
    s.cfg.width ≤ 32767 → w ≠ 0 → h ≠ 0 →
    beyond (offX s.cfg x) w.toNat = false → beyond (offY s.cfg y) h.toNat = false →
    w.toNat ≤ s.cfg.width →
    ∃ t, exec (.fillRect x y w h c) s = .next t ∧
      t.trace = s.trace ++ csEvents s.cfg .assert
        ++ windowEvents s.cfg (offX s.cfg x) (offY s.cfg y) (u16 (farCorner (offX s.cfg x) w.toNat))
            (u16 (farCorner (offY s.cfg y) h.toNat))
        ++ (payloadEvents (List.replicate w.toNat c)).take s.env.dmaPartial ∧
      t.tc = false ∧ t.blkEn = true ∧ t.blkLen = BitVec.ofNat 16 (2 * w.toNat) ∧ t.seq ≠ .idle ∧
      advance n t = t

/-! ### The Text Engine -/

/-- R220, R221, R222: the cursor takes its operands with the offsets added, a colour setter writes its
register; nothing else changes, there is no event, and no environment matters. -/
def Obligations.SetterResults : Prop :=
  ∀ (s : State) (x y c : Half), s.inited = true →
    exec (.setCursor x y) s = .next
      { s with seq := .idle, curX := x + s.cfg.xOffset, curY := y + s.cfg.yOffset } ∧
    exec (.setColor c) s = .next { s with seq := .idle, color := c } ∧
    exec (.setBgColor c) s = .next { s with seq := .idle, bgColor := c }

/-- R224, R227: a glyph is one transaction of 35 pixels at the cursor, staged in GLYPHBUF and sent once;
the cursor stays. -/
def Obligations.PrintCharResult : Prop :=
  ∀ (s : State) (ch : Byte), s.inited = true → s.env.isLive →
    ch.toNat < s.cfg.glyphCount → s.curX.toNat + 4 ≤ 65535 → s.curY.toNat + 6 ≤ 65535 →
    ∃ g : Memory, (∀ a, g.read a = glyphBufByte s ch a) ∧
      exec (.printChar ch) s = .next
        { afterEvents ((glyphTransaction s s.curX ch).events s.cfg) s with
          seq := .idle, dcLine := .data, csLine := released s, txe := true, tc := true, blkEn := false
          blkSrc := .glyphBuf 0, blkLen := 70, glyphBuf := g }

/-- R225, R226: a string of printable characters is their glyphs from left to right, six columns apart,
and the cursor ends six columns further for each; an empty string does nothing, in any environment. -/
def Obligations.PrintResult : Prop :=
  ∀ (s : State) (len : Half) (addr : Addr), s.inited = true →
    exec (.print 0 addr) s = .next { s with seq := .idle } ∧
    (s.env.isLive → len ≠ 0 →
      (∀ i < len.toNat, s.printable i (s.host.read (hostAddr addr i))) →
      ∃ g : Memory,
        (∀ a, g.read a = glyphBufByte s (s.host.read (hostAddr addr (len.toNat - 1))) a) ∧
        exec (.print len addr) s = .next
          { afterEvents ((glyphTransactions s (stringChars s.host addr len.toNat)).flatMap
              (fun t => t.events s.cfg)) s with
            seq := .idle, dcLine := .data, csLine := released s, txe := true, tc := true, blkEn := false
            blkSrc := .glyphBuf 0, blkLen := 70, glyphBuf := g
            curX := BitVec.ofNat 16 (s.curX.toNat + 6 * len.toNat) })

/-- R230, R231, R124: a number is its decimal text, right-aligned in the cells its width asks for; NUMBUF
holds the text up to index 10 and the terminator at index 11. -/
def Obligations.PrintNumberResult : Prop :=
  ∀ (s : State) (n : Addr) (width : Half), s.inited = true → s.env.isLive →
    (∀ i ch, (numberChars n width)[i]? = some ch → s.printable i ch) →
    ∃ g b : Memory,
      (∀ a ch, (numberText n).getLast? = some ch → g.read a = glyphBufByte s ch a) ∧
      (∀ i ch, (numberText n)[i]? = some ch → b.read (11 - (numberText n).length + i) = ch) ∧
      b.read 11 = 0x00 ∧
      (∀ a, a < 11 - (numberText n).length ∨ 11 < a → b.read a = s.numBuf.read a) ∧
      exec (.printNumber n width) s = .next
        { afterEvents ((glyphTransactions s (numberChars n width)).flatMap (fun t => t.events s.cfg)) s with
          seq := .idle, dcLine := .data, csLine := released s, txe := true, tc := true, blkEn := false
          blkSrc := .glyphBuf 0, blkLen := 70, glyphBuf := g, numBuf := b
          curX := BitVec.ofNat 16 (s.curX.toNat + 6 * (numberChars n width).length) }

/-- R230, R231, R124: what is printed for a number: at most eleven characters of text, a minus at its head
exactly when the number is negative and decimal digits everywhere else, with no zero before another digit,
which read as the number; padded to the cells that reach the width, never cut. -/
def Obligations.NumberTextIsTheNumber : Prop :=
  ∀ (n : Addr) (width : Half),
    1 ≤ (numberText n).length ∧ (numberText n).length ≤ 11 ∧
    ((numberText n).head? = some 0x2D ↔ n.toInt < 0) ∧
    (∀ k ch, (numberText n)[k]? = some ch →
      (0x30 ≤ ch.toNat ∧ ch.toNat ≤ 0x39) ∨ (k = 0 ∧ ch = 0x2D ∧ n.toInt < 0)) ∧
    (n ≠ 0 → ((numberText n).filter (fun ch => ch != 0x2D)).head? ≠ some 0x30) ∧
    ((numberText n).filter (fun ch => ch != 0x2D)).foldl
        (fun v ch => 10 * v + (ch.toNat - 0x30)) 0 = n.toInt.natAbs ∧
    (numberChars n width).length = max (numberText n).length ((width.toNat + 5) / 6) ∧
    width.toNat ≤ 6 * (numberChars n width).length ∧
    (∀ k ch, k + (numberText n).length < (numberChars n width).length →
      (numberChars n width)[k]? = some ch → ch = 0x20) ∧
    numberText n <:+ numberChars n width

/-- R224, R258: a glyph the table does not have, then a window that does not fit, is a fault before any
buffer write and any event. -/
def Obligations.GlyphFaults : Prop :=
  ∀ (s : State) (ch : Byte), s.inited = true →
    (s.cfg.glyphCount ≤ ch.toNat →
      exec (.printChar ch) s = .fault (.glyphIndex 0x04
        { s with seq := .busy 0, fault := some { kind := .glyphIndex, op := 0x04 } })) ∧
    (ch.toNat < s.cfg.glyphCount → (65535 < s.curX.toNat + 4 ∨ 65535 < s.curY.toNat + 6) →
      exec (.printChar ch) s = .fault (.windowRange 0x04
        { s with seq := .busy 0, fault := some { kind := .windowRange, op := 0x04 } }))

/-- R226, R230, R258: a string, and a number, faults at its first character that cannot be printed,
`GlyphIndex` before `WindowRange`; the glyphs before it are on the wire, the cursor has advanced over them,
the faulting one adds nothing, and the number's text stays in NUMBUF. -/
def Obligations.PrintFaultsAtItsCharacter : Prop :=
  (∀ (s : State) (len : Half) (addr : Addr) (j : Nat), s.inited = true → s.env.isLive →
    j < len.toNat →
    (∀ i < j, s.printable i (s.host.read (hostAddr addr i))) →
    ¬ s.printable j (s.host.read (hostAddr addr j)) →
    ∃ t, exec (.print len addr) s = .fault
        (if s.cfg.glyphCount ≤ (s.host.read (hostAddr addr j)).toNat then .glyphIndex 0x05 t
          else .windowRange 0x05 t) ∧
      t.trace = s.trace ++ (glyphTransactions s (stringChars s.host addr j)).flatMap
        (fun q => q.events s.cfg) ∧
      t.curX = BitVec.ofNat 16 (s.curX.toNat + 6 * j) ∧ t.curY = s.curY ∧ t.seq ≠ .idle) ∧
  ∀ (s : State) (n : Addr) (width : Half) (j : Nat) (ch : Byte), s.inited = true → s.env.isLive →
    (∀ i < j, ∀ c, (numberChars n width)[i]? = some c → s.printable i c) →
    (numberChars n width)[j]? = some ch → ¬ s.printable j ch →
    ∃ t, exec (.printNumber n width) s = .fault
        (if s.cfg.glyphCount ≤ ch.toNat then .glyphIndex 0x06 t else .windowRange 0x06 t) ∧
      t.trace = s.trace ++ (glyphTransactions s ((numberChars n width).take j)).flatMap
        (fun q => q.events s.cfg) ∧
      (∀ i c, (numberText n)[i]? = some c → t.numBuf.read (11 - (numberText n).length + i) = c) ∧
      t.curX = BitVec.ofNat 16 (s.curX.toNat + 6 * j) ∧ t.curY = s.curY ∧ t.seq ≠ .idle

/-! ### The Rasterizer -/

/-- R190: a pixel is one transaction of a 1 × 1 window, 15 events with chip-select and 13 without. -/
def Obligations.DrawPixelResult : Prop :=
  ∀ (s : State) (x y c : Half), s.inited = true → s.env.isLive →
    ((pixelTransaction s.cfg x y c).events s.cfg).length = (if s.cfg.useCs then 15 else 13) ∧
    exec (.drawPixel x y c) s = .next
      { afterEvents ((pixelTransaction s.cfg x y c).events s.cfg) s with
        seq := .idle, dcLine := .data, csLine := released s, txe := true }

/-- R194, R192: a fill is one transaction of its window and `w * h` pixels of its colour; only the first
`2 * w` bytes of ROWBUF are written. -/
def Obligations.FillRectResult : Prop :=
  ∀ (s : State) (x y w h c : Half), s.inited = true → s.env.isLive → s.cfg.width ≤ 32767 →
    w ≠ 0 → h ≠ 0 → w.toNat ≤ s.cfg.width →
    (offX s.cfg x).toNat + w.toNat - 1 ≤ 65535 → (offY s.cfg y).toNat + h.toNat - 1 ≤ 65535 →
    ∃ b : Memory, (∀ a, b.read a = stagedByte c w.toNat s.rowBuf a) ∧
      exec (.fillRect x y w h c) s = .next
        { afterEvents ((fillTransaction s.cfg x y w h c).events s.cfg) s with
          seq := .idle, dcLine := .data, csLine := released s, txe := true, tc := true, blkEn := false
          blkSrc := .rowBuf 0, blkLen := BitVec.ofNat 16 (2 * w.toNat), rowBuf := b }

/-- R196, R200: an outline is four transactions, top, bottom, left, right, of full sides. -/
def Obligations.DrawRectResult : Prop :=
  ∀ (s : State) (x y w h c : Half), s.inited = true → s.env.isLive → s.cfg.width ≤ 32767 →
    w ≠ 0 → h ≠ 0 → w.toNat ≤ s.cfg.width → h.toNat ≤ s.cfg.width →
    (offX s.cfg x).toNat + w.toNat - 1 ≤ 65535 → (offY s.cfg y).toNat + h.toNat - 1 ≤ 65535 →
    ∃ b : Memory, (∀ a, b.read a = stagedByte c (max w.toNat h.toNat) s.rowBuf a) ∧
      exec (.drawRect x y w h c) s = .next
        { afterEvents
            ([hLineTransaction s.cfg x y w.toNat c, hLineTransaction s.cfg x (y + h - 1) w.toNat c,
              vLineTransaction s.cfg x y h.toNat c, vLineTransaction s.cfg (x + w - 1) y h.toNat c].flatMap
              fun t => t.events s.cfg) s with
          seq := .idle, dcLine := .data, csLine := released s, txe := true, tc := true, blkEn := false
          blkSrc := .rowBuf 0, blkLen := BitVec.ofNat 16 (2 * h.toNat), rowBuf := b }

/-- R204, R65: a bitmap is one transaction of its window and its pixels in HOST, streamed once; no buffer
is written. -/
def Obligations.DrawBitmapResult : Prop :=
  ∀ (s : State) (x y w h : Half) (addr : Addr), s.inited = true → s.env.isLive →
    w ≠ 0 → h ≠ 0 → 2 * w.toNat * h.toNat ≤ 65535 →
    (offX s.cfg x).toNat + w.toNat - 1 ≤ 65535 → (offY s.cfg y).toNat + h.toNat - 1 ≤ 65535 →
    exec (.drawBitmap x y w h addr) s = .next
      { afterEvents ((bitmapTransaction s.cfg s.host x y w h addr).events s.cfg) s with
        seq := .idle, dcLine := .data, csLine := released s, txe := true, tc := true, blkEn := false
        blkSrc := .host addr, blkLen := BitVec.ofNat 16 (2 * w.toNat * h.toNat) }

/-- R196, R198, R208: a vertical line, a single point among them, and a horizontal line are one
transaction of both ends and all between, from the smaller coordinate. -/
def Obligations.AxisLineResult : Prop :=
  ∀ (s : State) (a b0 b1 c : Half), s.inited = true → s.env.isLive → s.cfg.width ≤ 32767 →
    span b0 b1 + 1 ≤ s.cfg.width →
    ((offY s.cfg (lower b0 b1)).toNat + span b0 b1 ≤ 65535 →
      ∃ m : Memory, (∀ k, m.read k = stagedByte c (span b0 b1 + 1) s.rowBuf k) ∧
        exec (.drawLine a b0 a b1 c) s = .next
          { afterEvents ((vLineTransaction s.cfg a (lower b0 b1) (span b0 b1 + 1) c).events s.cfg) s with
            seq := .idle, dcLine := .data, csLine := released s, txe := true, tc := true, blkEn := false
            blkSrc := .rowBuf 0, blkLen := BitVec.ofNat 16 (2 * (span b0 b1 + 1)), rowBuf := m }) ∧
    (b0 ≠ b1 → (offX s.cfg (lower b0 b1)).toNat + span b0 b1 ≤ 65535 →
      ∃ m : Memory, (∀ k, m.read k = stagedByte c (span b0 b1 + 1) s.rowBuf k) ∧
        exec (.drawLine b0 a b1 a c) s = .next
          { afterEvents ((hLineTransaction s.cfg (lower b0 b1) a (span b0 b1 + 1) c).events s.cfg) s with
            seq := .idle, dcLine := .data, csLine := released s, txe := true, tc := true, blkEn := false
            blkSrc := .rowBuf 0, blkLen := BitVec.ofNat 16 (2 * (span b0 b1 + 1)), rowBuf := m })

/-- R208, R210: any other line is a pixel for each of its points, in the closed form of the error
recurrence, from the end with the smaller long-axis coordinate; it never faults. -/
def Obligations.ObliqueLineResult : Prop :=
  ∀ (s : State) (x0 y0 x1 y1 c : Half), s.inited = true → s.env.isLive → x0 ≠ x1 → y0 ≠ y1 →
    exec (.drawLine x0 y0 x1 y1 c) s = .next
      { afterEvents ((linePoints x0 y0 x1 y1).flatMap fun p =>
          (pixelTransaction s.cfg p.1 p.2 c).events s.cfg) s with
        seq := .idle, dcLine := .data, csLine := released s, txe := true }

/-- R210 (d), R212: a line has `max(|Δx|, |Δy|) + 1` points, runs from one end to the other, and moves
by at most one pixel on each axis at a step. -/
def Obligations.ObliqueLinePoints : Prop :=
  ∀ (x0 y0 x1 y1 : Half), x0 ≠ x1 → y0 ≠ y1 →
    (linePoints x0 y0 x1 y1).length = max (span x0 x1) (span y0 y1) + 1 ∧
    (((linePoints x0 y0 x1 y1).head? = some (x0, y0) ∧ (linePoints x0 y0 x1 y1).getLast? = some (x1, y1)) ∨
      ((linePoints x0 y0 x1 y1).head? = some (x1, y1) ∧
        (linePoints x0 y0 x1 y1).getLast? = some (x0, y0))) ∧
    ∀ k p q, (linePoints x0 y0 x1 y1)[k]? = some p → (linePoints x0 y0 x1 y1)[k + 1]? = some q →
      span p.1 q.1 ≤ 1 ∧ span p.2 q.2 ≤ 1

/-- R210 (f), R208: a line and the same line from its other end have the same outcome, in every state. -/
def Obligations.LineHasNoDirection : Prop :=
  ∀ (s : State) (x0 y0 x1 y1 c : Half),
    exec (.drawLine x0 y0 x1 y1 c) s = exec (.drawLine x1 y1 x0 y0 c) s

/-- R193: a fill, an outline or a bitmap with a zero side does nothing, before any other check, and so
does a fast line of length zero. -/
def Obligations.ZeroSizesDoNothing : Prop :=
  ∀ (s : State) (x y w h c : Half) (addr : Addr),
    (s.inited = true → w = 0 ∨ h = 0 →
      exec (.fillRect x y w h c) s = .next { s with seq := .idle } ∧
      exec (.drawRect x y w h c) s = .next { s with seq := .idle } ∧
      exec (.drawBitmap x y w h addr) s = .next { s with seq := .idle }) ∧
    fastHLine x y 0 c s = .done s ∧ fastVLine x y 0 c s = .done s

/-- R194, R204, R258: the faults of a fill and of a bitmap, in the order of R258, before any buffer byte
and any event. -/
def Obligations.RectangleFaults : Prop :=
  ∀ (s : State) (x y w h c : Half) (addr : Addr), s.inited = true → w ≠ 0 → h ≠ 0 →
    ((65535 < (offX s.cfg x).toNat + w.toNat - 1 ∨ 65535 < (offY s.cfg y).toNat + h.toNat - 1) →
      exec (.fillRect x y w h c) s = .fault (.windowRange 0x0A
        { s with seq := .busy 0, fault := some { kind := .windowRange, op := 0x0A } }) ∧
      exec (.drawBitmap x y w h addr) s = .fault (.windowRange 0x0B
        { s with seq := .busy 0, fault := some { kind := .windowRange, op := 0x0B } })) ∧
    ((offX s.cfg x).toNat + w.toNat - 1 ≤ 65535 → (offY s.cfg y).toNat + h.toNat - 1 ≤ 65535 →
      (s.cfg.width < w.toNat →
        exec (.fillRect x y w h c) s = .fault (.rowBufOverflow 0x0A
          { s with seq := .busy 0, fault := some { kind := .rowBufOverflow, op := 0x0A } })) ∧
      (65535 < 2 * w.toNat * h.toNat →
        exec (.drawBitmap x y w h addr) s = .fault (.blockLength 0x0B
          { s with seq := .busy 0, fault := some { kind := .blockLength, op := 0x0B } })))

/-- R208, R258, R294: a vertical or horizontal line whose window does not fit, or else longer than the
panel is wide, is a fault before any event; the vertical one too is limited by the width. -/
def Obligations.AxisLineFaults : Prop :=
  ∀ (s : State) (a b0 b1 c : Half), s.inited = true →
    (65535 < (offY s.cfg (lower b0 b1)).toNat + span b0 b1 →
      exec (.drawLine a b0 a b1 c) s = .fault (.windowRange 0x08
        { s with seq := .busy 0, fault := some { kind := .windowRange, op := 0x08 } })) ∧
    ((offY s.cfg (lower b0 b1)).toNat + span b0 b1 ≤ 65535 → s.cfg.width < span b0 b1 + 1 →
      exec (.drawLine a b0 a b1 c) s = .fault (.rowBufOverflow 0x08
        { s with seq := .busy 0, fault := some { kind := .rowBufOverflow, op := 0x08 } })) ∧
    (b0 ≠ b1 → 65535 < (offX s.cfg (lower b0 b1)).toNat + span b0 b1 →
      exec (.drawLine b0 a b1 a c) s = .fault (.windowRange 0x08
        { s with seq := .busy 0, fault := some { kind := .windowRange, op := 0x08 } })) ∧
    (b0 ≠ b1 → (offX s.cfg (lower b0 b1)).toNat + span b0 b1 ≤ 65535 → s.cfg.width < span b0 b1 + 1 →
      exec (.drawLine b0 a b1 a c) s = .fault (.rowBufOverflow 0x08
        { s with seq := .busy 0, fault := some { kind := .rowBufOverflow, op := 0x08 } }))

/-- R200, R258: the faults of an outline, in the order its sides are sent. A far column past 65535, or
else a side wider than the panel, faults at the top before any event; otherwise the top and the bottom are
sent and stay sent, and a far row past 65535, or else a height above the panel's width, faults at the
left; where the environment answers, no other operands with sides of at least 1 fault. -/
def Obligations.DrawRectFaultKeepsItsEdges : Prop :=
  ∀ (s : State) (x y w h c : Half), s.inited = true → w ≠ 0 → h ≠ 0 →
    (65535 < (offX s.cfg x).toNat + w.toNat - 1 →
      exec (.drawRect x y w h c) s = .fault (.windowRange 0x09
        { s with seq := .busy 0, fault := some { kind := .windowRange, op := 0x09 } })) ∧
    ((offX s.cfg x).toNat + w.toNat - 1 ≤ 65535 → s.cfg.width < w.toNat →
      exec (.drawRect x y w h c) s = .fault (.rowBufOverflow 0x09
        { s with seq := .busy 0, fault := some { kind := .rowBufOverflow, op := 0x09 } })) ∧
    (s.env.isLive → s.cfg.width ≤ 32767 → w.toNat ≤ s.cfg.width →
      (offX s.cfg x).toNat + w.toNat - 1 ≤ 65535 →
      ((65535 < (offY s.cfg y).toNat + h.toNat - 1 ∨ s.cfg.width < h.toNat) →
        ∃ t, exec (.drawRect x y w h c) s = .fault
            (if 65535 < (offY s.cfg y).toNat + h.toNat - 1 then .windowRange 0x09 t
              else .rowBufOverflow 0x09 t) ∧
          t.trace = s.trace ++ (hLineTransaction s.cfg x y w.toNat c).events s.cfg
            ++ (hLineTransaction s.cfg x (y + h - 1) w.toNat c).events s.cfg ∧
          (∀ a, t.rowBuf.read a = stagedByte c w.toNat s.rowBuf a) ∧ t.seq ≠ .idle) ∧
      ((offY s.cfg y).toNat + h.toNat - 1 ≤ 65535 → h.toNat ≤ s.cfg.width →
        ∃ t, exec (.drawRect x y w h c) s = .next t))

/-! ### Frames, in every environment and in every next state -/

/-- What a drawing operation leaves alone (R20, R190 to R210): DeviceState, GLYPHBUF, NUMBUF, HOST, the
reset line and the rest; of ROWBUF, every byte beyond those it stages. -/
def Obligations.RasterFrame : Prop :=
  ∀ (i : Instr) (s : State), i.isRaster = true → Outcome.onLeft (exec i s) fun t =>
    t.cfg = s.cfg ∧ t.curX = s.curX ∧ t.curY = s.curY ∧ t.color = s.color ∧ t.bgColor = s.bgColor ∧
    t.latches = s.latches ∧ t.inited = s.inited ∧ t.rstLine = s.rstLine ∧ t.inputs = s.inputs ∧ t.port = s.port ∧
    t.freeCount = s.freeCount ∧ t.refused = s.refused ∧
    (∀ a, t.glyphBuf.read a = s.glyphBuf.read a) ∧ (∀ a, t.numBuf.read a = s.numBuf.read a) ∧
    (∀ a, t.host.read a = s.host.read a) ∧
    ∀ a, i.stagedBytes ≤ a → t.rowBuf.read a = s.rowBuf.read a

/-- What a text operation leaves alone (R220 to R230): the row of the cursor and the colours but for
their setters, ROWBUF, HOST and the rest; GLYPHBUF beyond its 70 bytes and NUMBUF outside the number's
text. -/
def Obligations.TextFrame : Prop :=
  ∀ (i : Instr) (s : State), i.isText = true → Outcome.onLeft (exec i s) fun t =>
    t.cfg = s.cfg ∧ t.latches = s.latches ∧ t.inited = s.inited ∧ t.rstLine = s.rstLine ∧
    t.inputs = s.inputs ∧ t.port = s.port ∧ t.freeCount = s.freeCount ∧ t.refused = s.refused ∧
    ((∀ x y, i ≠ .setCursor x y) → t.curY = s.curY) ∧
    ((∀ c, i ≠ .setColor c) → t.color = s.color) ∧
    ((∀ c, i ≠ .setBgColor c) → t.bgColor = s.bgColor) ∧
    ((∀ x y, i ≠ .setCursor x y) → (∀ len addr, i ≠ .print len addr) →
      (∀ n width, i ≠ .printNumber n width) → t.curX = s.curX) ∧
    (∀ a, t.rowBuf.read a = s.rowBuf.read a) ∧ (∀ a, t.host.read a = s.host.read a) ∧
    (∀ a, glyphBufCap ≤ a → t.glyphBuf.read a = s.glyphBuf.read a) ∧
    ((∀ n width, i ≠ .printNumber n width) → ∀ a, t.numBuf.read a = s.numBuf.read a) ∧
    (∀ n width, i = .printNumber n width → ∀ a, a < 11 - (numberText n).length ∨ 11 < a →
      t.numBuf.read a = s.numBuf.read a)

/-- What INIT and the panel commands leave alone (R160, R281): the buffers, HOST and the rest; an INIT that
hangs also leaves DeviceState and `inited`; a panel command on its own (log entry 4) leaves these, the
reset line and chip-select and, but for the gamma commands, the block engine. -/
def Obligations.ProtocolFrame : Prop :=
  ∀ (i : Instr) (s : State), i = .init ∨ i.isHost = false → Outcome.onLeft (exec i s) fun t =>
    t.cfg = s.cfg ∧ t.latches = s.latches ∧ t.inputs = s.inputs ∧ t.port = s.port ∧ t.fault = s.fault ∧
    t.refused = s.refused ∧
    (∀ a, t.rowBuf.read a = s.rowBuf.read a) ∧ (∀ a, t.glyphBuf.read a = s.glyphBuf.read a) ∧
    (∀ a, t.numBuf.read a = s.numBuf.read a) ∧ (∀ a, t.host.read a = s.host.read a) ∧
    (i ≠ .init ∨ t.seq ≠ .idle → t.curX = s.curX ∧ t.curY = s.curY ∧ t.color = s.color ∧
      t.bgColor = s.bgColor ∧ t.inited = s.inited ∧ t.freeCount = s.freeCount) ∧
    (i ≠ .init → t.rstLine = s.rstLine ∧ t.csLine = s.csLine) ∧
    (i ≠ .init → i ≠ .gmctrp1 → i ≠ .gmctrn1 →
      t.tc = s.tc ∧ t.blkEn = s.blkEn ∧ t.blkSrc = s.blkSrc ∧ t.blkLen = s.blkLen)

/-! ### Rules of the whole machine -/

/-- R142, R144, R297, R60: the invariant of every state from which a step answers a next state holds
there too: the configuration legal, the memories canonical and inside their spaces, and, whenever the
sequencer is idle, the byte engine ready, the block engine off and chip-select released. -/
def Obligations.StepKeepsInv : Prop :=
  ∀ (s : State), s.Inv → Outcome.onNext (step s) State.Inv

/-- The invariant holds at reset, and at power-on with any legal configuration. That `txe` is 1 and
`blk_en` is 0 there is the launch premise of R284 (log entry 2), not a reset value of the spec. -/
def Obligations.ResetInv : Prop :=
  State.reset.Inv ∧ ∀ c : Config, c.wf = true → (State.powerOn c).Inv

/-- R45: no step changes the configuration. -/
def Obligations.ConfigurationIsFixed : Prop :=
  ∀ (s : State), Outcome.onLeft (step s) fun t => t.cfg = s.cfg

/-- R40, R73, R256: every operation follows its event list, in every environment: it ends idle with all
of the list and no fault, or it is stuck after some of it, or it faults after all of it as its plan says.
The position counts the events, and the panel has taken exactly those. That one step runs to the end or to
the hang is log entry 6; that a panel command is an operation of its own is log entry 4. -/
def Obligations.PlanDecidesTheTrace : Prop :=
  ∀ (i : Instr) (s : State), s.cfg.width ≤ 32767 →
    match exec i s with
    | .next t => ∃ k, k ≤ (plan i s).events.length ∧
        t.trace = s.trace ++ (plan i s).events.take k ∧
        t.panel = panelAfter s.cfg ((plan i s).events.take k) s.panel ∧
        ((t.seq = .idle ∧ k = (plan i s).events.length ∧ (plan i s).fault = none) ∨
          (t.seq = .busy k ∧ ¬ s.env.isLive))
    | .fault f => (plan i s).fault = some f.record.kind ∧
        f.left.trace = s.trace ++ (plan i s).events ∧
        f.left.panel = panelAfter s.cfg (plan i s).events s.panel ∧
        f.left.seq = .busy (plan i s).events.length
    | .refused r => r = .notInitialised ∧ i.isHost = true ∧ i ≠ .init ∧ s.inited = false

/-- R296, R212, R232: where the environment answers, every operation that is not refused and whose plan
has no fault ends, idle again, after the finite list of its plan. -/
def Obligations.LiveOperationsEnd : Prop :=
  ∀ (i : Instr) (s : State), s.env.isLive → s.cfg.width ≤ 32767 →
    (s.inited = true ∨ i = .init ∨ i.isHost = false) → (plan i s).fault = none →
    ∃ t, exec i s = .next t ∧ t.seq = .idle ∧ t.trace = s.trace ++ (plan i s).events ∧ t.env = s.env

/-- R255: an operation that does not end keeps the machine where it is, for ever. -/
def Obligations.StuckForEver : Prop :=
  ∀ (i : Instr) (s t : State) (n : Nat), s.fault = none → exec i s = .next t → t.seq ≠ .idle →
    advance n t = t

/-- R107, R104: no step, whatever the request and its operands, emits a command byte that is none of the
twelve. -/
def Obligations.OnlyTheTwelveCommands : Prop :=
  ∀ (s : State) (v : Byte), Outcome.onLeft (step s) fun t =>
    Event.byte .cmd v ∈ t.trace.drop s.trace.length → ∃ k : PanelCmd, v = s.cfg.opcodes.code k

/-- R175, R176, R177, R178: what a drawing or printing operation emits is whole transactions, each an
ordered window filled exactly, also when it faults. -/
def Obligations.TransactionsFillTheirWindows : Prop :=
  ∀ (i : Instr) (s : State), i.isRaster = true ∨ i.isText = true → s.inited = true → s.env.isLive →
    s.cfg.width ≤ 32767 →
    ∃ ts : List Transaction, Outcome.newEvents s.trace.length (exec i s)
        = some (ts.flatMap fun t => t.events s.cfg) ∧
      ∀ t ∈ ts, t.exact

/-- R142: without a chip-select line the events are those with one, the chip-select events deleted. -/
def Obligations.NoChipSelectLine : Prop :=
  ∀ (i : Instr) (s : State), s.env.isLive → s.cfg.width ≤ 32767 →
    Outcome.newEvents s.trace.length (exec i { s with cfg := { s.cfg with useCs := false } })
      = (Outcome.newEvents s.trace.length (exec i { s with cfg := { s.cfg with useCs := true } })).map
          fun evs => evs.filter fun e => !e.isCs

/-- R195, R84: after a fill the cells of its rectangle have its colour and every other is as before, and
the same cells are what the pixels of the rectangle leave, drawn one by one in any order. -/
def Obligations.FillEqualsPixels : Prop :=
  ∀ (s : State) (x y w h c : Half) (pts : List (Nat × Nat)),
    s.inited = true → s.env.isLive → s.cfg.wf = true →
    s.panel.status = .known → s.panel.regs.colmod = some s.cfg.colmodValue →
    w ≠ 0 → h ≠ 0 → w.toNat ≤ s.cfg.width →
    (offX s.cfg x).toNat + w.toNat ≤ min 65536 s.cfg.gramCols →
    (offY s.cfg y).toNat + h.toNat ≤ min 65536 s.cfg.gramRows →
    pts.Perm (grid w.toNat h.toNat) →
    ∃ t u, exec (.fillRect x y w h c) s = .next t ∧
      execAll (pts.map fun p => .drawPixel (x + u16 p.1) (y + u16 p.2) c) s = some u ∧
      ∀ col row : Half,
        t.panel.cell col row = (if (offX s.cfg x).toNat ≤ col.toNat ∧
            col.toNat < (offX s.cfg x).toNat + w.toNat ∧ (offY s.cfg y).toNat ≤ row.toNat ∧
            row.toNat < (offY s.cfg y).toNat + h.toNat
          then some c else s.panel.cell col row) ∧
        u.panel.cell col row = t.panel.cell col row

/-- R49, R46: no operation reads the trace or the panel. That none reads the latches is the model's choice
(log entry 16): its meanings take their operands from the decoded instruction, where R40 has the latched
ones. -/
def Obligations.NothingReadsTheObservation : Prop :=
  ∀ (i : Instr) (s : State) (tr : List Event) (p : Panel) (l : Latches),
    Outcome.mapState State.unread (exec i { s with trace := tr, panel := p, latches := l })
      = Outcome.mapState State.unread (exec i s)

/-- R40, R62, R290, R288: the events an operation emits depend on the configuration, DeviceState,
`inited` and HOST alone: not on what the buffers, the flags, the lines or the block engine's registers
were left holding. -/
def Obligations.StaleStateIsNotSent : Prop :=
  ∀ (i : Instr) (s t : State), s.env.isLive → t.env.isLive → s.cfg.width ≤ 32767 →
    t.cfg = s.cfg → t.curX = s.curX → t.curY = s.curY → t.color = s.color → t.bgColor = s.bgColor →
    t.inited = s.inited → t.host = s.host →
    Outcome.newEvents t.trace.length (exec i t) = Outcome.newEvents s.trace.length (exec i s)

/-- R20, R227: who writes DeviceState: the cursor's column only SET_CURSOR, PRINT, PRINT_NUMBER and INIT;
its row only SET_CURSOR and INIT; each colour only its setter and INIT. -/
def Obligations.WhoWritesDeviceState : Prop :=
  ∀ (i : Instr) (s : State), Outcome.onLeft (exec i s) fun t =>
    (t.curX = s.curX ∨ i = .init ∨ (∃ x y, i = .setCursor x y) ∨ (∃ len addr, i = .print len addr) ∨
      ∃ n width, i = .printNumber n width) ∧
    (t.curY = s.curY ∨ i = .init ∨ ∃ x y, i = .setCursor x y) ∧
    (t.color = s.color ∨ i = .init ∨ ∃ c, i = .setColor c) ∧
    (t.bgColor = s.bgColor ∨ i = .init ∨ ∃ c, i = .setBgColor c)

/-! ### Operand assembly -/

/-- R120, R121: the colour packings, field by field, and the one that `COLOR_ORDER` selects. -/
def Obligations.ColourPacking : Prop :=
  ∀ (r g b : Byte),
    (rgb565 r g b).extractLsb' 11 5 = r.extractLsb' 3 5 ∧
    (rgb565 r g b).extractLsb' 5 6 = g.extractLsb' 2 6 ∧
    (rgb565 r g b).extractLsb' 0 5 = b.extractLsb' 3 5 ∧
    bgr565 r g b = rgb565 b g r ∧
    ∀ c : Config, packColor c r g b = if c.colorOrder = .bgr then bgr565 r g b else rgb565 r g b
end

