-- ==== Sys2Proof/Laws/Decode.lean ====
section
/-! SUPPORT. The fields of a packed descriptor (30_encoding.md R108). -/

namespace Sys2Proof

/-- A bit of a packed descriptor is a bit of one of its fields. -/
theorem getLsbD_pack (op : Byte) (a b c d e : Half) (p : Addr) (k : Nat) :
    (Descriptor.pack op a b c d e p).getLsbD k =
      if k < 32 then p.getLsbD k else if k < 48 then e.getLsbD (k - 32)
      else if k < 64 then d.getLsbD (k - 48) else if k < 80 then c.getLsbD (k - 64)
      else if k < 96 then b.getLsbD (k - 80) else if k < 112 then a.getLsbD (k - 96)
      else if k < 120 then false else op.getLsbD (k - 120) := by
  show BitVec.getLsbD (w := 8 + 8 + 16 + 16 + 16 + 16 + 16 + 32) _ _ = _
  unfold Descriptor.pack
  simp only [BitVec.getLsbD_append]
  simp only [Nat.sub_sub, BitVec.getLsbD_zero, Nat.reduceAdd, BitVec.ofNat_eq_ofNat]
  repeat' split
  all_goals first | rfl | omega

/-- A field's bits, from the descriptor's. -/
theorem field_pack {n : Nat} (start : Nat) (v : BitVec n) (op : Byte) (a b c d e : Half) (p : Addr)
    (h : ∀ k < n, (Descriptor.pack op a b c d e p).getLsbD (start + k) = v.getLsbD k) :
    (Descriptor.pack op a b c d e p).extractLsb' start n = v := by
  apply BitVec.eq_of_getLsbD_eq
  intro k hk
  rw [BitVec.getLsbD_extractLsb', h k hk]
  simp [hk]

@[simp] theorem op_pack (op : Byte) (a b c d e : Half) (p : Addr) :
    Descriptor.op (Descriptor.pack op a b c d e p) = op := by
  refine field_pack 120 _ op a b c d e p fun k hk => ?_
  rw [getLsbD_pack]
  repeat' split
  all_goals first
    | omega
    | (congr 1; omega)

@[simp] theorem rsv_pack (op : Byte) (a b c d e : Half) (p : Addr) :
    Descriptor.rsv (Descriptor.pack op a b c d e p) = 0 := by
  refine field_pack 112 _ op a b c d e p fun k hk => ?_
  rw [getLsbD_pack]
  repeat' split
  all_goals first
    | omega
    | simp

@[simp] theorem a_pack (op : Byte) (a b c d e : Half) (p : Addr) :
    Descriptor.a (Descriptor.pack op a b c d e p) = a := by
  refine field_pack 96 _ op a b c d e p fun k hk => ?_
  rw [getLsbD_pack]
  repeat' split
  all_goals first
    | omega
    | (congr 1; omega)

@[simp] theorem b_pack (op : Byte) (a b c d e : Half) (p : Addr) :
    Descriptor.b (Descriptor.pack op a b c d e p) = b := by
  refine field_pack 80 _ op a b c d e p fun k hk => ?_
  rw [getLsbD_pack]
  repeat' split
  all_goals first
    | omega
    | (congr 1; omega)

@[simp] theorem c_pack (op : Byte) (a b c d e : Half) (p : Addr) :
    Descriptor.c (Descriptor.pack op a b c d e p) = c := by
  refine field_pack 64 _ op a b c d e p fun k hk => ?_
  rw [getLsbD_pack]
  repeat' split
  all_goals first
    | omega
    | (congr 1; omega)

@[simp] theorem d_pack (op : Byte) (a b c d e : Half) (p : Addr) :
    Descriptor.d (Descriptor.pack op a b c d e p) = d := by
  refine field_pack 48 _ op a b c d e p fun k hk => ?_
  rw [getLsbD_pack]
  repeat' split
  all_goals first
    | omega
    | (congr 1; omega)

@[simp] theorem e_pack (op : Byte) (a b c d e : Half) (p : Addr) :
    Descriptor.e (Descriptor.pack op a b c d e p) = e := by
  refine field_pack 32 _ op a b c d e p fun k hk => ?_
  rw [getLsbD_pack]
  repeat' split
  all_goals first
    | omega
    | (congr 1; omega)

@[simp] theorem p_pack (op : Byte) (a b c d e : Half) (p : Addr) :
    Descriptor.p (Descriptor.pack op a b c d e p) = p := by
  refine field_pack 0 _ op a b c d e p fun k hk => ?_
  rw [getLsbD_pack]
  repeat' split
  all_goals first
    | omega
    | (congr 1; omega)

end Sys2Proof
end

