-- ==== Sys2Proof/Laws/State.lean ====
section
/-! SUPPORT. What each update of the state leaves in each field: one lemma per field per update, true
by unfolding the update. Generated from the field list. -/

namespace Sys2Proof.Machine

@[simp] theorem emit_cfg (e : Event) (s : State) : (emit e s).cfg = s.cfg := rfl
@[simp] theorem emit_curX (e : Event) (s : State) : (emit e s).curX = s.curX := rfl
@[simp] theorem emit_curY (e : Event) (s : State) : (emit e s).curY = s.curY := rfl
@[simp] theorem emit_color (e : Event) (s : State) : (emit e s).color = s.color := rfl
@[simp] theorem emit_bgColor (e : Event) (s : State) : (emit e s).bgColor = s.bgColor := rfl
@[simp] theorem emit_latches (e : Event) (s : State) : (emit e s).latches = s.latches := rfl
@[simp] theorem emit_inited (e : Event) (s : State) : (emit e s).inited = s.inited := rfl
@[simp] theorem emit_rstLine (e : Event) (s : State) : (emit e s).rstLine = s.rstLine := rfl
@[simp] theorem emit_dcLine (e : Event) (s : State) : (emit e s).dcLine = s.dcLine := rfl
@[simp] theorem emit_csLine (e : Event) (s : State) : (emit e s).csLine = s.csLine := rfl
@[simp] theorem emit_txe (e : Event) (s : State) : (emit e s).txe = s.txe := rfl
@[simp] theorem emit_tc (e : Event) (s : State) : (emit e s).tc = s.tc := rfl
@[simp] theorem emit_blkEn (e : Event) (s : State) : (emit e s).blkEn = s.blkEn := rfl
@[simp] theorem emit_blkSrc (e : Event) (s : State) : (emit e s).blkSrc = s.blkSrc := rfl
@[simp] theorem emit_blkLen (e : Event) (s : State) : (emit e s).blkLen = s.blkLen := rfl
@[simp] theorem emit_rowBuf (e : Event) (s : State) : (emit e s).rowBuf = s.rowBuf := rfl
@[simp] theorem emit_glyphBuf (e : Event) (s : State) : (emit e s).glyphBuf = s.glyphBuf := rfl
@[simp] theorem emit_numBuf (e : Event) (s : State) : (emit e s).numBuf = s.numBuf := rfl
@[simp] theorem emit_host (e : Event) (s : State) : (emit e s).host = s.host := rfl
@[simp] theorem emit_env (e : Event) (s : State) : (emit e s).env = s.env := rfl
@[simp] theorem emit_inputs (e : Event) (s : State) : (emit e s).inputs = s.inputs := rfl
@[simp] theorem emit_port (e : Event) (s : State) : (emit e s).port = s.port := rfl
@[simp] theorem emit_freeCount (e : Event) (s : State) : (emit e s).freeCount = s.freeCount := rfl
@[simp] theorem emit_fault (e : Event) (s : State) : (emit e s).fault = s.fault := rfl
@[simp] theorem emit_refused (e : Event) (s : State) : (emit e s).refused = s.refused := rfl

@[simp] theorem emit_trace (e : Event) (s : State) : (emit e s).trace = s.trace ++ [e] := rfl
@[simp] theorem emit_seq (e : Event) (s : State) : (emit e s).seq = s.seq.next := rfl
@[simp] theorem emit_panel (e : Event) (s : State) :
    (emit e s).panel = s.panel.accept s.cfg e := rfl

@[simp] theorem afterEvents_cfg (evs : List Event) (s : State) : (afterEvents evs s).cfg = s.cfg := rfl
@[simp] theorem afterEvents_curX (evs : List Event) (s : State) : (afterEvents evs s).curX = s.curX := rfl
@[simp] theorem afterEvents_curY (evs : List Event) (s : State) : (afterEvents evs s).curY = s.curY := rfl
@[simp] theorem afterEvents_color (evs : List Event) (s : State) : (afterEvents evs s).color = s.color := rfl
@[simp] theorem afterEvents_bgColor (evs : List Event) (s : State) : (afterEvents evs s).bgColor = s.bgColor := rfl
@[simp] theorem afterEvents_latches (evs : List Event) (s : State) : (afterEvents evs s).latches = s.latches := rfl
@[simp] theorem afterEvents_seq (evs : List Event) (s : State) : (afterEvents evs s).seq = s.seq := rfl
@[simp] theorem afterEvents_inited (evs : List Event) (s : State) : (afterEvents evs s).inited = s.inited := rfl
@[simp] theorem afterEvents_rstLine (evs : List Event) (s : State) : (afterEvents evs s).rstLine = s.rstLine := rfl
@[simp] theorem afterEvents_dcLine (evs : List Event) (s : State) : (afterEvents evs s).dcLine = s.dcLine := rfl
@[simp] theorem afterEvents_csLine (evs : List Event) (s : State) : (afterEvents evs s).csLine = s.csLine := rfl
@[simp] theorem afterEvents_txe (evs : List Event) (s : State) : (afterEvents evs s).txe = s.txe := rfl
@[simp] theorem afterEvents_tc (evs : List Event) (s : State) : (afterEvents evs s).tc = s.tc := rfl
@[simp] theorem afterEvents_blkEn (evs : List Event) (s : State) : (afterEvents evs s).blkEn = s.blkEn := rfl
@[simp] theorem afterEvents_blkSrc (evs : List Event) (s : State) : (afterEvents evs s).blkSrc = s.blkSrc := rfl
@[simp] theorem afterEvents_blkLen (evs : List Event) (s : State) : (afterEvents evs s).blkLen = s.blkLen := rfl
@[simp] theorem afterEvents_rowBuf (evs : List Event) (s : State) : (afterEvents evs s).rowBuf = s.rowBuf := rfl
@[simp] theorem afterEvents_glyphBuf (evs : List Event) (s : State) : (afterEvents evs s).glyphBuf = s.glyphBuf := rfl
@[simp] theorem afterEvents_numBuf (evs : List Event) (s : State) : (afterEvents evs s).numBuf = s.numBuf := rfl
@[simp] theorem afterEvents_host (evs : List Event) (s : State) : (afterEvents evs s).host = s.host := rfl
@[simp] theorem afterEvents_env (evs : List Event) (s : State) : (afterEvents evs s).env = s.env := rfl
@[simp] theorem afterEvents_inputs (evs : List Event) (s : State) : (afterEvents evs s).inputs = s.inputs := rfl
@[simp] theorem afterEvents_port (evs : List Event) (s : State) : (afterEvents evs s).port = s.port := rfl
@[simp] theorem afterEvents_freeCount (evs : List Event) (s : State) : (afterEvents evs s).freeCount = s.freeCount := rfl
@[simp] theorem afterEvents_fault (evs : List Event) (s : State) : (afterEvents evs s).fault = s.fault := rfl
@[simp] theorem afterEvents_refused (evs : List Event) (s : State) : (afterEvents evs s).refused = s.refused := rfl

@[simp] theorem afterEvents_trace (evs : List Event) (s : State) :
    (afterEvents evs s).trace = s.trace ++ evs := rfl
@[simp] theorem afterEvents_panel (evs : List Event) (s : State) :
    (afterEvents evs s).panel = panelAfter s.cfg evs s.panel := rfl

@[simp] theorem armBlock_cfg (src : BlockSrc) (len : Nat) (s : State) : (armBlock src len s).cfg = s.cfg := rfl
@[simp] theorem armBlock_curX (src : BlockSrc) (len : Nat) (s : State) : (armBlock src len s).curX = s.curX := rfl
@[simp] theorem armBlock_curY (src : BlockSrc) (len : Nat) (s : State) : (armBlock src len s).curY = s.curY := rfl
@[simp] theorem armBlock_color (src : BlockSrc) (len : Nat) (s : State) : (armBlock src len s).color = s.color := rfl
@[simp] theorem armBlock_bgColor (src : BlockSrc) (len : Nat) (s : State) : (armBlock src len s).bgColor = s.bgColor := rfl
@[simp] theorem armBlock_latches (src : BlockSrc) (len : Nat) (s : State) : (armBlock src len s).latches = s.latches := rfl
@[simp] theorem armBlock_seq (src : BlockSrc) (len : Nat) (s : State) : (armBlock src len s).seq = s.seq := rfl
@[simp] theorem armBlock_inited (src : BlockSrc) (len : Nat) (s : State) : (armBlock src len s).inited = s.inited := rfl
@[simp] theorem armBlock_rstLine (src : BlockSrc) (len : Nat) (s : State) : (armBlock src len s).rstLine = s.rstLine := rfl
@[simp] theorem armBlock_csLine (src : BlockSrc) (len : Nat) (s : State) : (armBlock src len s).csLine = s.csLine := rfl
@[simp] theorem armBlock_txe (src : BlockSrc) (len : Nat) (s : State) : (armBlock src len s).txe = s.txe := rfl
@[simp] theorem armBlock_tc (src : BlockSrc) (len : Nat) (s : State) : (armBlock src len s).tc = s.tc := rfl
@[simp] theorem armBlock_rowBuf (src : BlockSrc) (len : Nat) (s : State) : (armBlock src len s).rowBuf = s.rowBuf := rfl
@[simp] theorem armBlock_glyphBuf (src : BlockSrc) (len : Nat) (s : State) : (armBlock src len s).glyphBuf = s.glyphBuf := rfl
@[simp] theorem armBlock_numBuf (src : BlockSrc) (len : Nat) (s : State) : (armBlock src len s).numBuf = s.numBuf := rfl
@[simp] theorem armBlock_host (src : BlockSrc) (len : Nat) (s : State) : (armBlock src len s).host = s.host := rfl
@[simp] theorem armBlock_panel (src : BlockSrc) (len : Nat) (s : State) : (armBlock src len s).panel = s.panel := rfl
@[simp] theorem armBlock_trace (src : BlockSrc) (len : Nat) (s : State) : (armBlock src len s).trace = s.trace := rfl
@[simp] theorem armBlock_env (src : BlockSrc) (len : Nat) (s : State) : (armBlock src len s).env = s.env := rfl
@[simp] theorem armBlock_inputs (src : BlockSrc) (len : Nat) (s : State) : (armBlock src len s).inputs = s.inputs := rfl
@[simp] theorem armBlock_port (src : BlockSrc) (len : Nat) (s : State) : (armBlock src len s).port = s.port := rfl
@[simp] theorem armBlock_freeCount (src : BlockSrc) (len : Nat) (s : State) : (armBlock src len s).freeCount = s.freeCount := rfl
@[simp] theorem armBlock_fault (src : BlockSrc) (len : Nat) (s : State) : (armBlock src len s).fault = s.fault := rfl
@[simp] theorem armBlock_refused (src : BlockSrc) (len : Nat) (s : State) : (armBlock src len s).refused = s.refused := rfl

@[simp] theorem armBlock_dcLine (src : BlockSrc) (len : Nat) (s : State) :
    (armBlock src len s).dcLine = .data := rfl
@[simp] theorem armBlock_blkSrc (src : BlockSrc) (len : Nat) (s : State) :
    (armBlock src len s).blkSrc = src := rfl
@[simp] theorem armBlock_blkLen (src : BlockSrc) (len : Nat) (s : State) :
    (armBlock src len s).blkLen = u16 len := rfl
@[simp] theorem armBlock_blkEn (src : BlockSrc) (len : Nat) (s : State) :
    (armBlock src len s).blkEn = true := rfl

@[simp] theorem finishInit_cfg (s : State) : (finishInit s).cfg = s.cfg := rfl
@[simp] theorem finishInit_latches (s : State) : (finishInit s).latches = s.latches := rfl
@[simp] theorem finishInit_seq (s : State) : (finishInit s).seq = s.seq := rfl
@[simp] theorem finishInit_rstLine (s : State) : (finishInit s).rstLine = s.rstLine := rfl
@[simp] theorem finishInit_dcLine (s : State) : (finishInit s).dcLine = s.dcLine := rfl
@[simp] theorem finishInit_csLine (s : State) : (finishInit s).csLine = s.csLine := rfl
@[simp] theorem finishInit_txe (s : State) : (finishInit s).txe = s.txe := rfl
@[simp] theorem finishInit_tc (s : State) : (finishInit s).tc = s.tc := rfl
@[simp] theorem finishInit_blkEn (s : State) : (finishInit s).blkEn = s.blkEn := rfl
@[simp] theorem finishInit_blkSrc (s : State) : (finishInit s).blkSrc = s.blkSrc := rfl
@[simp] theorem finishInit_blkLen (s : State) : (finishInit s).blkLen = s.blkLen := rfl
@[simp] theorem finishInit_rowBuf (s : State) : (finishInit s).rowBuf = s.rowBuf := rfl
@[simp] theorem finishInit_glyphBuf (s : State) : (finishInit s).glyphBuf = s.glyphBuf := rfl
@[simp] theorem finishInit_numBuf (s : State) : (finishInit s).numBuf = s.numBuf := rfl
@[simp] theorem finishInit_host (s : State) : (finishInit s).host = s.host := rfl
@[simp] theorem finishInit_panel (s : State) : (finishInit s).panel = s.panel := rfl
@[simp] theorem finishInit_trace (s : State) : (finishInit s).trace = s.trace := rfl
@[simp] theorem finishInit_env (s : State) : (finishInit s).env = s.env := rfl
@[simp] theorem finishInit_inputs (s : State) : (finishInit s).inputs = s.inputs := rfl
@[simp] theorem finishInit_port (s : State) : (finishInit s).port = s.port := rfl
@[simp] theorem finishInit_fault (s : State) : (finishInit s).fault = s.fault := rfl
@[simp] theorem finishInit_refused (s : State) : (finishInit s).refused = s.refused := rfl

@[simp] theorem finishInit_inited (s : State) : (finishInit s).inited = true := rfl
@[simp] theorem finishInit_freeCount (s : State) :
    (finishInit s).freeCount = s.freeCount + 4 := rfl

end Sys2Proof.Machine
end

