-- ==== Sys2Proof/Laws/Transport.lean ====
section
/-! SUPPORT. What the Transport can do (40_transport.md), said once per routine: the fields it leaves
alone (`Wire`), the events it emits and where it can stop (`Follows`), and the lines and flags it leaves
when it is done. -/

namespace Sys2Proof.Machine

/-! ### Small lemmas of the definitions -/

@[simp] theorem Run.andThen_done (s : State) (f : State → Run) : (Run.done s).andThen f = f s := rfl
@[simp] theorem Run.andThen_stuck (s : State) (f : State → Run) :
    (Run.stuck s).andThen f = .stuck s := rfl
@[simp] theorem Run.andThen_raised (k : FaultKind) (s : State) (f : State → Run) :
    (Run.raised k s).andThen f = .raised k s := rfl

theorem Run.andThen_assoc (r : Run) (f g : State → Run) :
    (r.andThen f).andThen g = r.andThen fun s => (f s).andThen g := by cases r <;> rfl

@[simp] theorem Seq.plus_zero (q : Seq) : q.plus 0 = q := by cases q <;> rfl
@[simp] theorem Seq.next_eq_plus (q : Seq) : q.next = q.plus 1 := by cases q <;> rfl
@[simp] theorem Seq.plus_plus (q : Seq) (m n : Nat) : (q.plus m).plus n = q.plus (m + n) := by
  cases q <;> simp [Seq.plus, Nat.add_assoc]

@[simp] theorem panelAfter_nil (c : Config) (p : Panel) : panelAfter c [] p = p := rfl
@[simp] theorem panelAfter_cons (c : Config) (e : Event) (evs : List Event) (p : Panel) :
    panelAfter c (e :: evs) p = panelAfter c evs (p.accept c e) := rfl
@[simp] theorem panelAfter_append (c : Config) (a b : List Event) (p : Panel) :
    panelAfter c (a ++ b) p = panelAfter c b (panelAfter c a p) := by
  simp [panelAfter, List.foldl_append]

/-! ### What no Transport routine touches -/

/-- `t` differs from `s` only in the other two lines, flags, block registers, position, trace, panel and answers. -/
structure Wire (s t : State) : Prop where
  cfg : t.cfg = s.cfg
  curX : t.curX = s.curX
  curY : t.curY = s.curY
  color : t.color = s.color
  bgColor : t.bgColor = s.bgColor
  latches : t.latches = s.latches
  inited : t.inited = s.inited
  rstLine : t.rstLine = s.rstLine
  rowBuf : t.rowBuf = s.rowBuf
  glyphBuf : t.glyphBuf = s.glyphBuf
  numBuf : t.numBuf = s.numBuf
  host : t.host = s.host
  inputs : t.inputs = s.inputs
  port : t.port = s.port
  freeCount : t.freeCount = s.freeCount
  fault : t.fault = s.fault
  refused : t.refused = s.refused

theorem Wire.refl (s : State) : Wire s s := by constructor <;> rfl

theorem Wire.trans {s t u : State} (h : Wire s t) (k : Wire t u) : Wire s u := by
  constructor
  · exact k.cfg.trans h.cfg
  · exact k.curX.trans h.curX
  · exact k.curY.trans h.curY
  · exact k.color.trans h.color
  · exact k.bgColor.trans h.bgColor
  · exact k.latches.trans h.latches
  · exact k.inited.trans h.inited
  · exact k.rstLine.trans h.rstLine
  · exact k.rowBuf.trans h.rowBuf
  · exact k.glyphBuf.trans h.glyphBuf
  · exact k.numBuf.trans h.numBuf
  · exact k.host.trans h.host
  · exact k.inputs.trans h.inputs
  · exact k.port.trans h.port
  · exact k.freeCount.trans h.freeCount
  · exact k.fault.trans h.fault
  · exact k.refused.trans h.refused

/-- A predicate on the state a run leaves, however it ends. -/
def Run.Leaves (r : Run) (p : State → Prop) : Prop :=
  match r with
  | .done t => p t
  | .stuck t => p t
  | .raised _ t => p t

theorem Run.Leaves.mono {r : Run} {p q : State → Prop} (h : r.Leaves p) (hpq : ∀ t, p t → q t) :
    r.Leaves q := by cases r <;> exact hpq _ h

theorem Run.Leaves.of_done {r : Run} {p : State → Prop} {t : State} (h : r.Leaves p) (e : r = .done t) :
    p t := by
  subst e
  exact h

/-- A relation that is transitive passes through a sequence. -/
theorem Run.Leaves.andThen {rel : State → State → Prop} (tr : ∀ {a b c}, rel a b → rel b c → rel a c)
    {s : State} {r : Run} {f : State → Run} (h : r.Leaves (rel s))
    (k : ∀ t, rel s t → (f t).Leaves (rel t)) : (r.andThen f).Leaves (rel s) := by
  cases r with
  | done t => exact (k t h).mono fun _ => tr h
  | stuck t => exact h
  | raised _ t => exact h

theorem Wire.emit (e : Event) (s : State) : Wire s (emit e s) := by constructor <;> rfl

theorem awaitTxe_wire (s : State) : (awaitTxe s).Leaves (Wire s) := by
  unfold awaitTxe
  split
  · exact Wire.refl s
  · split <;> constructor <;> rfl

theorem awaitTc_wire (s : State) : (awaitTc s).Leaves (Wire s) := by
  unfold awaitTc
  split
  · exact Wire.refl s
  · split <;> constructor <;> rfl

theorem awaitTimer_wire (s : State) : (awaitTimer s).Leaves (Wire s) := by
  unfold awaitTimer
  split <;> constructor <;> rfl

theorem delay_wire (t : Nat) (s : State) : (delay t s).Leaves (Wire s) :=
  (awaitTimer_wire _).mono fun _ h => (Wire.emit _ s).trans h

theorem driveReset_wire (l : Bool) (s : State) :
    Wire { s with rstLine := (driveReset l s).rstLine } (driveReset l s) := by constructor <;> rfl

/-- The hardware reset touches the reset line besides (R140). -/
theorem resetPanel_wire (s : State) :
    (resetPanel s).Leaves fun t => Wire { s with rstLine := t.rstLine } t := by
  have tr : ∀ {a b c : State}, Wire { a with rstLine := b.rstLine } b →
      Wire { b with rstLine := c.rstLine } c → Wire { a with rstLine := c.rstLine } c := by
    intro a b c h k
    exact ⟨k.cfg.trans h.cfg, k.curX.trans h.curX, k.curY.trans h.curY, k.color.trans h.color,
      k.bgColor.trans h.bgColor, k.latches.trans h.latches, k.inited.trans h.inited, rfl,
      k.rowBuf.trans h.rowBuf, k.glyphBuf.trans h.glyphBuf, k.numBuf.trans h.numBuf,
      k.host.trans h.host, k.inputs.trans h.inputs, k.port.trans h.port, k.freeCount.trans h.freeCount,
      k.fault.trans h.fault, k.refused.trans h.refused⟩
  have one : ∀ l n (s : State), (delay n (driveReset l s)).Leaves fun t =>
      Wire { s with rstLine := t.rstLine } t := by
    intro l n s
    refine (delay_wire n (driveReset l s)).mono fun t h => ?_
    have h2 := (driveReset_wire l s).trans h
    rw [← h.rstLine] at h2
    exact h2
  exact Run.Leaves.andThen (rel := fun a b => Wire { a with rstLine := b.rstLine } b) tr
    (one false _ s) fun t _ => one true _ t

theorem select_wire (s : State) : Wire s (select s) := by
  unfold select
  split <;> constructor <;> rfl

theorem deselect_wire (s : State) : Wire s (deselect s) := by
  unfold deselect
  split <;> constructor <;> rfl

theorem sendByte_wire (k : Kind) (v : Byte) (s : State) : (sendByte k v s).Leaves (Wire s) :=
  Run.Leaves.andThen (rel := Wire) Wire.trans (awaitTxe_wire s) fun t _ =>
    (awaitTxe_wire _).mono fun _ h => Wire.trans (by constructor <;> rfl) h

theorem sendCommand_wire (v : Byte) (s : State) : (sendCommand v s).Leaves (Wire s) :=
  sendByte_wire _ _ s

theorem sendData8_wire (v : Byte) (s : State) : (sendData8 v s).Leaves (Wire s) :=
  sendByte_wire _ _ s

theorem sendData16_wire (v : Half) (s : State) : (sendData16 v s).Leaves (Wire s) :=
  Run.Leaves.andThen (rel := Wire) Wire.trans (sendByte_wire _ _ s) fun t _ => sendByte_wire _ _ t

theorem feed_wire (bs : List Byte) (s : State) : Wire s (feed bs s) := by
  induction bs generalizing s with
  | nil => exact Wire.refl s
  | cons v rest ih => exact (Wire.emit _ s).trans (ih _)

theorem blockPass_wire (src : BlockSrc) (len : Nat) (s : State) :
    (blockPass src len s).Leaves (Wire s) :=
  (awaitTc_wire _).mono fun _ h => Wire.trans (by constructor <;> rfl) ((feed_wire _ _).trans h)

theorem blockPasses_wire (src : BlockSrc) (len n : Nat) (s : State) :
    (blockPasses src len n s).Leaves (Wire s) := by
  induction n generalizing s with
  | zero => exact Wire.refl s
  | succ n ih =>
    exact Run.Leaves.andThen (rel := Wire) Wire.trans (blockPass_wire _ _ s) fun t _ => ih t

theorem sendBlock_wire (src : BlockSrc) (len reps : Nat) (s : State) :
    (sendBlock src len reps s).Leaves (Wire s) := by
  unfold sendBlock
  split
  · exact Wire.refl s
  · refine Run.Leaves.andThen (rel := Wire) Wire.trans
      ((blockPasses_wire _ _ _ _).mono fun _ h => Wire.trans (by constructor <;> rfl) h) ?_
    intro t _
    constructor <;> rfl

theorem casetFrame_wire (x0 x1 : Half) (s : State) : (casetFrame x0 x1 s).Leaves (Wire s) :=
  Run.Leaves.andThen (rel := Wire) Wire.trans (sendCommand_wire _ s) fun t _ =>
    Run.Leaves.andThen (rel := Wire) Wire.trans (sendData16_wire _ t) fun u _ => sendData16_wire _ u

theorem rasetFrame_wire (y0 y1 : Half) (s : State) : (rasetFrame y0 y1 s).Leaves (Wire s) :=
  Run.Leaves.andThen (rel := Wire) Wire.trans (sendCommand_wire _ s) fun t _ =>
    Run.Leaves.andThen (rel := Wire) Wire.trans (sendData16_wire _ t) fun u _ => sendData16_wire _ u

theorem setWindow_wire (x0 y0 x1 y1 : Half) (s : State) :
    (setWindow x0 y0 x1 y1 s).Leaves (Wire s) :=
  Run.Leaves.andThen (rel := Wire) Wire.trans (casetFrame_wire _ _ s) fun t _ =>
    Run.Leaves.andThen (rel := Wire) Wire.trans (rasetFrame_wire _ _ t) fun u _ =>
      sendCommand_wire _ u

theorem blockTransaction_wire (x0 y0 x1 y1 : Half) (src : BlockSrc) (len reps : Nat) (s : State) :
    (blockTransaction x0 y0 x1 y1 src len reps s).Leaves (Wire s) :=
  Run.Leaves.andThen (rel := Wire) Wire.trans
    ((setWindow_wire _ _ _ _ _).mono fun _ h => (select_wire s).trans h) fun t _ =>
    Run.Leaves.andThen (rel := Wire) Wire.trans (sendBlock_wire _ _ _ t) fun u _ => deselect_wire u

theorem pixel_wire (x y c : Half) (s : State) : (pixel x y c s).Leaves (Wire s) :=
  Run.Leaves.andThen (rel := Wire) Wire.trans
    ((setWindow_wire _ _ _ _ _).mono fun _ h => (select_wire s).trans h) fun t _ =>
    Run.Leaves.andThen (rel := Wire) Wire.trans (sendData16_wire _ t) fun u _ => deselect_wire u

/-! ### The events of a routine, and where it can stop -/

/-- `t` is `s` after events: trace, position and panel have taken them. -/
structure Took (evs : List Event) (s t : State) : Prop where
  cfg : t.cfg = s.cfg
  trace : t.trace = s.trace ++ evs
  seq : t.seq = s.seq.plus evs.length
  panel : t.panel = panelAfter s.cfg evs s.panel

theorem Took.refl (s : State) : Took [] s s :=
  ⟨rfl, by simp, by simp, rfl⟩

theorem Took.trans {a b : List Event} {s t u : State} (h : Took a s t) (k : Took b t u) :
    Took (a ++ b) s u := by
  refine ⟨k.cfg.trans h.cfg, ?_, ?_, ?_⟩
  · rw [k.trace, h.trace, List.append_assoc]
  · rw [k.seq, h.seq, Seq.plus_plus, List.length_append]
  · rw [k.panel, h.panel, h.cfg, panelAfter_append]

theorem Took.emit (e : Event) (s : State) : Took [e] s (emit e s) := by
  refine ⟨rfl, rfl, ?_, rfl⟩
  simp

/-- A run follows a plan: done with all of its events and no fault, or stuck after some of them in an
environment that does not answer for ever, or raised with its fault after all of them. A live
environment stays as it is. -/
def Follows (pl : Plan) (s : State) (r : Run) : Prop :=
  match r with
  | .done t => pl.fault = none ∧ Took pl.events s t ∧ (s.env.isLive → t.env = s.env)
  | .stuck t => ¬ s.env.isLive ∧ ∃ k, k ≤ pl.events.length ∧ Took (pl.events.take k) s t
  | .raised k t => pl.fault = some k ∧ Took pl.events s t

@[simp] theorem Plan.nothing_andThen (q : Plan) : Plan.nothing.andThen q = q := by
  cases q; rfl

theorem Plan.emits_andThen_emits (a b : List Event) :
    (Plan.emits a).andThen (Plan.emits b) = Plan.emits (a ++ b) := rfl

theorem Follows.done {s t : State} {evs : List Event} (h : Took evs s t) (he : t.env = s.env) :
    Follows (Plan.emits evs) s (.done t) := ⟨rfl, h, fun _ => he⟩

theorem Follows.andThen {p q : Plan} {s : State} {r : Run} {f : State → Run} (h : Follows p s r)
    (k : ∀ t, r = .done t → Took p.events s t → Follows q t (f t)) :
    Follows (p.andThen q) s (r.andThen f) := by
  cases r with
  | done t =>
    obtain ⟨hf, ht, hl⟩ := h
    have hk := k t rfl ht
    simp only [Run.andThen_done]
    have hp : p.andThen q = { events := p.events ++ q.events, fault := q.fault } := by
      simp [Plan.andThen, hf]
    rw [hp]
    cases hft : f t with
    | done u =>
      rw [hft] at hk
      obtain ⟨hf2, ht2, hl2⟩ := hk
      refine ⟨hf2, ht.trans ht2, fun hlive => ?_⟩
      have := hl hlive
      rw [hl2 (by rw [this]; exact hlive), this]
    | stuck u =>
      rw [hft] at hk
      obtain ⟨hn, m, hm, ht2⟩ := hk
      refine ⟨fun hlive => hn (by rw [hl hlive]; exact hlive), p.events.length + m, ?_, ?_⟩
      · simp only [List.length_append]
        omega
      · have : (p.events ++ q.events).take (p.events.length + m) = p.events ++ q.events.take m :=
          List.take_length_add_append m
        rw [show (Plan.mk (p.events ++ q.events) q.fault).events = p.events ++ q.events from rfl, this]
        exact ht.trans ht2
    | raised k2 u =>
      rw [hft] at hk
      exact ⟨hk.1, ht.trans hk.2⟩
  | stuck t =>
    obtain ⟨hn, m, hm, ht⟩ := h
    refine ⟨hn, m, ?_, ?_⟩
    · unfold Plan.andThen
      split
      · exact hm
      · simp only [List.length_append]
        omega
    · unfold Plan.andThen
      split
      · exact ht
      · simp only [List.take_append_of_le_length hm]
        exact ht
  | raised k2 t =>
    obtain ⟨hf, ht⟩ := h
    have hp : p.andThen q = p := by simp [Plan.andThen, hf]
    rw [hp]
    exact ⟨hf, ht⟩

/-- Events emitted without a wait before a run. -/
theorem Follows.after {evs : List Event} {q : Plan} {s t : State} {r : Run} (ht : Took evs s t)
    (he : t.env = s.env) (h : Follows q t r) : Follows ((Plan.emits evs).andThen q) s r := by
  have := Follows.andThen (f := fun _ => r) (Follows.done ht he) (q := q) (fun u hu _ => by
    cases hu; exact h)
  simpa using this

theorem awaitTxe_follows (s : State) : Follows Plan.nothing s (awaitTxe s) := by
  unfold awaitTxe
  split
  · exact ⟨rfl, Took.refl s, fun _ => rfl⟩
  · split
    · exact ⟨rfl, ⟨rfl, by simp [Plan.nothing], by simp [Plan.nothing], rfl⟩, fun _ => rfl⟩
    · rename_i h
      exact ⟨fun hl => by simp [hl.1] at h, 0, Nat.le_refl _, Took.refl s⟩
    · rename_i n h
      exact ⟨rfl, ⟨rfl, by simp [Plan.nothing], by simp [Plan.nothing], rfl⟩, fun hl => by simp [hl.1] at h⟩

theorem awaitTc_follows (s : State) : Follows Plan.nothing s (awaitTc s) := by
  unfold awaitTc
  split
  · exact ⟨rfl, Took.refl s, fun _ => rfl⟩
  · split
    · exact ⟨rfl, ⟨rfl, by simp [Plan.nothing], by simp [Plan.nothing], rfl⟩, fun _ => rfl⟩
    · rename_i h
      exact ⟨fun hl => by simp [hl.2.1] at h, 0, Nat.le_refl _, Took.refl s⟩
    · rename_i n h
      exact ⟨rfl, ⟨rfl, by simp [Plan.nothing], by simp [Plan.nothing], rfl⟩, fun hl => by simp [hl.2.1] at h⟩

theorem awaitTimer_follows (s : State) : Follows Plan.nothing s (awaitTimer s) := by
  unfold awaitTimer
  split
  · exact ⟨rfl, Took.refl s, fun _ => rfl⟩
  · rename_i h
    exact ⟨fun hl => by simp [hl.2.2] at h, 0, Nat.le_refl _, Took.refl s⟩
  · rename_i n h
    exact ⟨rfl, ⟨rfl, by simp [Plan.nothing], by simp [Plan.nothing], rfl⟩, fun hl => by simp [hl.2.2] at h⟩

@[simp] theorem Plan.andThen_nothing (p : Plan) : p.andThen Plan.nothing = p := by
  obtain ⟨evs, f⟩ := p
  cases f <;> simp [Plan.andThen, Plan.nothing]

theorem delay_follows (t : Nat) (s : State) : Follows (Plan.emits [.delay t]) s (delay t s) := by
  have := Follows.after (Took.emit (.delay t) s) rfl (awaitTimer_follows _)
  rwa [Plan.andThen_nothing] at this

theorem driveReset_took (l : Bool) (s : State) : Took [.rst l] s (driveReset l s) :=
  ⟨rfl, rfl, by simp [driveReset], rfl⟩

theorem resetPanel_follows (s : State) :
    Follows (Plan.emits [.rst false, .delay s.cfg.tRstLow, .rst true, .delay s.cfg.tRstHigh]) s
      (resetPanel s) := by
  have h1 := Follows.after (driveReset_took false s) rfl (delay_follows s.cfg.tRstLow _)
  have h2 := Follows.andThen (f := fun s => delay s.cfg.tRstHigh (driveReset true s)) h1
    (q := Plan.emits [.rst true, .delay s.cfg.tRstHigh]) (fun t _ ht => by
      have := Follows.after (driveReset_took true t) rfl (delay_follows t.cfg.tRstHigh _)
      rw [ht.cfg] at this ⊢
      exact this)
  exact h2

theorem select_took (s : State) : Took (csEvents s.cfg .assert) s (select s) := by
  unfold select csEvents
  split
  · exact ⟨rfl, rfl, by simp, rfl⟩
  · exact Took.refl s

theorem deselect_took (s : State) : Took (csEvents s.cfg .release) s (deselect s) := by
  unfold deselect csEvents
  split
  · exact ⟨rfl, rfl, by simp, rfl⟩
  · exact Took.refl s

@[simp] theorem select_env (s : State) : (select s).env = s.env := by
  unfold select; split <;> rfl
@[simp] theorem deselect_env (s : State) : (deselect s).env = s.env := by
  unfold deselect; split <;> rfl

theorem deselect_follows (s : State) :
    Follows (Plan.emits (csEvents s.cfg .release)) s (.done (deselect s)) :=
  Follows.done (deselect_took s) (deselect_env s)

theorem sendByte_follows (k : Kind) (v : Byte) (s : State) :
    Follows (Plan.emits [.byte k v]) s (sendByte k v s) := by
  have h := Follows.andThen (f := fun s => awaitTxe (emit (.byte k v) { s with dcLine := k, txe := false }))
    (awaitTxe_follows s) (q := Plan.emits [.byte k v]) (fun t _ _ => by
      have ht : Took [.byte k v] t (emit (.byte k v) { t with dcLine := k, txe := false }) :=
        ⟨rfl, rfl, by simp, rfl⟩
      have := Follows.after ht rfl (awaitTxe_follows _)
      rwa [Plan.andThen_nothing] at this)
  rwa [Plan.nothing_andThen] at h

theorem sendData16_follows (v : Half) (s : State) :
    Follows (Plan.emits (halfEvents v)) s (sendData16 v s) :=
  Follows.andThen (q := Plan.emits [.byte .data (lo8 v)]) (sendByte_follows _ _ s)
    fun t _ _ => sendByte_follows _ _ t

theorem casetFrame_follows (x0 x1 : Half) (s : State) :
    Follows (Plan.emits (casetEvents s.cfg x0 x1)) s (casetFrame x0 x1 s) :=
  Follows.andThen (q := Plan.emits (halfEvents x0 ++ halfEvents x1)) (sendByte_follows _ _ s)
    fun t _ _ => Follows.andThen (q := Plan.emits (halfEvents x1)) (sendData16_follows _ t)
      fun u _ _ => sendData16_follows _ u

theorem rasetFrame_follows (y0 y1 : Half) (s : State) :
    Follows (Plan.emits (rasetEvents s.cfg y0 y1)) s (rasetFrame y0 y1 s) :=
  Follows.andThen (q := Plan.emits (halfEvents y0 ++ halfEvents y1)) (sendByte_follows _ _ s)
    fun t _ _ => Follows.andThen (q := Plan.emits (halfEvents y1)) (sendData16_follows _ t)
      fun u _ _ => sendData16_follows _ u

theorem setWindow_follows (x0 y0 x1 y1 : Half) (s : State) :
    Follows (Plan.emits (windowEvents s.cfg x0 y0 x1 y1)) s (setWindow x0 y0 x1 y1 s) := by
  have h : Plan.emits (windowEvents s.cfg x0 y0 x1 y1) = (Plan.emits (casetEvents s.cfg x0 x1)).andThen
      (Plan.emits (rasetEvents s.cfg y0 y1 ++ [.byte .cmd s.cfg.opcodes.ramwr])) := by
    simp [windowEvents, Plan.emits_andThen_emits]
  rw [h]
  refine Follows.andThen (casetFrame_follows _ _ s) fun t _ ht => ?_
  have hc := ht.cfg
  have := Follows.andThen (f := fun s => sendCommand s.cfg.opcodes.ramwr s)
    (q := Plan.emits [.byte .cmd t.cfg.opcodes.ramwr]) (rasetFrame_follows y0 y1 t)
    (fun u _ hu => by rw [← hu.cfg]; exact sendByte_follows _ _ u)
  rw [hc] at this
  exact this

theorem feed_took (bs : List Byte) (s : State) :
    Took (bs.map (Event.byte .data)) s (feed bs s) := by
  induction bs generalizing s with
  | nil => exact Took.refl s
  | cons v rest ih => exact (Took.emit _ s).trans (ih _)

@[simp] theorem feed_env (bs : List Byte) (s : State) : (feed bs s).env = s.env := by
  induction bs generalizing s with
  | nil => rfl
  | cons v rest ih => simp [feed, ih]

@[simp] theorem feed_tc (bs : List Byte) (s : State) : (feed bs s).tc = s.tc := by
  induction bs generalizing s with
  | nil => rfl
  | cons v rest ih => simp [feed, ih]

theorem passBytes_length (s : State) (src : BlockSrc) (len : Nat) :
    (passBytes s src len).length = len := by simp [passBytes]

/-- A pass feeds its bytes and ends, or stalls among them. -/
theorem blockPass_follows (src : BlockSrc) (len : Nat) (s : State) :
    Follows (Plan.emits ((passBytes s src len).map (Event.byte .data))) s (blockPass src len s) := by
  have hfeed : ∀ n, Took (((passBytes s src len).take n).map (Event.byte .data)) s
      (feed ((passBytes s src len).take n) { s with tc := false }) := fun n => by
    have h := feed_took ((passBytes s src len).take n) { s with tc := false }
    exact ⟨h.cfg, h.trace, h.seq, h.panel⟩
  have hall : fedBytes s len = len → Took ((passBytes s src len).map (Event.byte .data)) s
      (feed ((passBytes s src len).take (fedBytes s len)) { s with tc := false }) := fun h => by
    have := hfeed (fedBytes s len)
    rw [h] at this ⊢
    rwa [List.take_of_length_le (by simp [passBytes_length])] at this ⊢
  unfold blockPass awaitTc
  simp only [feed_tc, Bool.false_eq_true, if_false, feed_env]
  split
  · rename_i he
    have ht := hall (by simp [fedBytes, he])
    exact ⟨rfl, ⟨ht.cfg, ht.trace, ht.seq, ht.panel⟩, fun _ => by simp⟩
  · rename_i he
    refine ⟨fun hl => by simp [hl.2.1] at he, fedBytes s len, ?_, ?_⟩
    · simp [Plan.emits, passBytes_length, fedBytes, he]
    · simp only [Plan.emits, ← List.map_take]
      exact hfeed _
  · rename_i n he
    have ht := hall (by simp [fedBytes, he])
    exact ⟨rfl, ⟨ht.cfg, ht.trace, ht.seq, ht.panel⟩, fun hl => by simp [hl.2.1] at he⟩

/-- The bytes of a pass depend on no field a Transport routine touches. -/
theorem passBytes_wire {s t : State} (h : Wire s t) (src : BlockSrc) (len : Nat) :
    passBytes t src len = passBytes s src len := by
  unfold passBytes
  congr 1
  funext j
  unfold sourceByte
  rw [h.rowBuf, h.glyphBuf, h.host, h.cfg]

theorem blockPasses_follows (src : BlockSrc) (len n : Nat) (s : State) :
    Follows (Plan.emits ((List.replicate n ((passBytes s src len).map (Event.byte .data))).flatten)) s
      (blockPasses src len n s) := by
  induction n generalizing s with
  | zero => exact ⟨rfl, Took.refl s, fun _ => rfl⟩
  | succ n ih =>
    rw [List.replicate_succ, List.flatten_cons, ← Plan.emits_andThen_emits]
    refine Follows.andThen (blockPass_follows src len s) fun t hd _ => ?_
    have hw := blockPass_wire src len s
    rw [hd] at hw
    rw [← passBytes_wire hw]
    exact ih t

/-- The events of a block transfer (R150). -/
def blockEvents (s : State) (src : BlockSrc) (len reps : Nat) : List Event :=
  (List.replicate reps ((passBytes s src len).map (Event.byte .data))).flatten

theorem sendBlock_follows {len reps : Nat} (h : ¬ (len = 0 ∨ len > blockLenMax ∨ reps = 0 ∨ reps > repeatMax))
    (src : BlockSrc) (s : State) :
    Follows (Plan.emits (blockEvents s src len reps)) s (sendBlock src len reps s) := by
  unfold sendBlock
  rw [if_neg h]
  have hw : Wire s (armBlock src len s) := by constructor <;> rfl
  have harm : Took [] s (armBlock src len s) := ⟨rfl, by simp, by simp, rfl⟩
  have h1 := blockPasses_follows src len reps (armBlock src len s)
  rw [passBytes_wire hw] at h1
  have h2 := Follows.after harm rfl h1
  have h3 := Follows.andThen (f := fun s => .done { s with blkEn := false }) h2 (q := Plan.nothing)
    (fun t _ _ => ⟨rfl, ⟨rfl, by simp [Plan.nothing], by simp [Plan.nothing], rfl⟩, fun _ => rfl⟩)
  rw [Plan.andThen_nothing, Plan.emits_andThen_emits, List.nil_append] at h3
  exact h3

/-! ### Lines and flags when a routine is done -/

theorem awaitTxe_done {s t : State} (h : awaitTxe s = .done t) :
    t.txe = true ∧ t.dcLine = s.dcLine ∧ t.csLine = s.csLine ∧ t.rstLine = s.rstLine ∧ t.tc = s.tc
      ∧ t.blkEn = s.blkEn ∧ t.blkSrc = s.blkSrc ∧ t.blkLen = s.blkLen := by
  unfold awaitTxe at h
  split at h
  · cases h
    simp_all
  · split at h <;> cases h <;> simp

theorem awaitTc_done {s t : State} (h : awaitTc s = .done t) :
    t.tc = true ∧ t.dcLine = s.dcLine ∧ t.csLine = s.csLine ∧ t.rstLine = s.rstLine ∧ t.txe = s.txe
      ∧ t.blkEn = s.blkEn ∧ t.blkSrc = s.blkSrc ∧ t.blkLen = s.blkLen := by
  unfold awaitTc at h
  split at h
  · cases h
    simp_all
  · split at h <;> cases h <;> simp

theorem awaitTimer_done {s t : State} (h : awaitTimer s = .done t) :
    t.tc = s.tc ∧ t.dcLine = s.dcLine ∧ t.csLine = s.csLine ∧ t.rstLine = s.rstLine ∧ t.txe = s.txe
      ∧ t.blkEn = s.blkEn ∧ t.blkSrc = s.blkSrc ∧ t.blkLen = s.blkLen := by
  unfold awaitTimer at h
  split at h <;> cases h <;> simp

/-- The lines and flags after bytes: the data/command line has the last byte's kind, `txe` is set, the
rest is as before. -/
structure Sent (k : Kind) (s t : State) : Prop where
  dcLine : t.dcLine = k
  txe : t.txe = true
  csLine : t.csLine = s.csLine
  rstLine : t.rstLine = s.rstLine
  tc : t.tc = s.tc
  blkEn : t.blkEn = s.blkEn
  blkSrc : t.blkSrc = s.blkSrc
  blkLen : t.blkLen = s.blkLen

theorem Sent.trans {j k : Kind} {s t u : State} (h : Sent j s t) (g : Sent k t u) : Sent k s u :=
  ⟨g.dcLine, g.txe, g.csLine.trans h.csLine, g.rstLine.trans h.rstLine, g.tc.trans h.tc,
    g.blkEn.trans h.blkEn, g.blkSrc.trans h.blkSrc, g.blkLen.trans h.blkLen⟩

/-- A done sequence was done at both parts. -/
theorem Run.andThen_eq_done {r : Run} {f : State → Run} {u : State} (h : r.andThen f = .done u) :
    ∃ t, r = .done t ∧ f t = .done u := by
  cases r with
  | done t => exact ⟨t, rfl, h⟩
  | stuck t => cases h
  | raised k t => cases h

theorem sendByte_done {k : Kind} {v : Byte} {s t : State} (h : sendByte k v s = .done t) :
    Sent k s t := by
  obtain ⟨u, h1, h2⟩ := Run.andThen_eq_done h
  obtain ⟨_, _, a2, a3, a4, a5, a6, a7⟩ := awaitTxe_done h1
  obtain ⟨b0, b1, b2, b3, b4, b5, b6, b7⟩ := awaitTxe_done h2
  exact ⟨b1, b0, b2.trans a2, b3.trans a3, b4.trans a4, b5.trans a5, b6.trans a6, b7.trans a7⟩

theorem sendData16_done {v : Half} {s t : State} (h : sendData16 v s = .done t) : Sent .data s t := by
  obtain ⟨u, h1, h2⟩ := Run.andThen_eq_done h
  exact (sendByte_done h1).trans (sendByte_done h2)

theorem casetFrame_done {x0 x1 : Half} {s t : State} (h : casetFrame x0 x1 s = .done t) :
    Sent .data s t := by
  obtain ⟨u, h1, h2⟩ := Run.andThen_eq_done h
  obtain ⟨v, h3, h4⟩ := Run.andThen_eq_done h2
  exact ((sendByte_done h1).trans (sendData16_done h3)).trans (sendData16_done h4)

theorem rasetFrame_done {y0 y1 : Half} {s t : State} (h : rasetFrame y0 y1 s = .done t) :
    Sent .data s t := by
  obtain ⟨u, h1, h2⟩ := Run.andThen_eq_done h
  obtain ⟨v, h3, h4⟩ := Run.andThen_eq_done h2
  exact ((sendByte_done h1).trans (sendData16_done h3)).trans (sendData16_done h4)

theorem setWindow_done {x0 y0 x1 y1 : Half} {s t : State} (h : setWindow x0 y0 x1 y1 s = .done t) :
    Sent .cmd s t := by
  obtain ⟨u, h1, h2⟩ := Run.andThen_eq_done h
  obtain ⟨v, h3, h4⟩ := Run.andThen_eq_done h2
  exact ((casetFrame_done h1).trans (rasetFrame_done h3)).trans (sendByte_done h4)

theorem delay_done {n : Nat} {s t : State} (h : delay n s = .done t) :
    t.tc = s.tc ∧ t.dcLine = s.dcLine ∧ t.csLine = s.csLine ∧ t.rstLine = s.rstLine ∧ t.txe = s.txe
      ∧ t.blkEn = s.blkEn ∧ t.blkSrc = s.blkSrc ∧ t.blkLen = s.blkLen := by
  have := awaitTimer_done (s := emit (.delay n) s) h
  exact this

/-- Feeding changes no line and no flag. -/
theorem feed_lines (bs : List Byte) (s : State) :
    (feed bs s).dcLine = s.dcLine ∧ (feed bs s).csLine = s.csLine ∧ (feed bs s).rstLine = s.rstLine
      ∧ (feed bs s).txe = s.txe ∧ (feed bs s).blkEn = s.blkEn ∧ (feed bs s).blkSrc = s.blkSrc
      ∧ (feed bs s).blkLen = s.blkLen := by
  induction bs generalizing s with
  | nil => exact ⟨rfl, rfl, rfl, rfl, rfl, rfl, rfl⟩
  | cons v rest ih => exact ih _

/-- The lines and flags after passes; `tc` is set if there was one. -/
structure Passed (s t : State) : Prop where
  dcLine : t.dcLine = s.dcLine
  csLine : t.csLine = s.csLine
  rstLine : t.rstLine = s.rstLine
  txe : t.txe = s.txe
  blkEn : t.blkEn = s.blkEn
  blkSrc : t.blkSrc = s.blkSrc
  blkLen : t.blkLen = s.blkLen

theorem blockPass_done {src : BlockSrc} {len : Nat} {s t : State} (h : blockPass src len s = .done t) :
    Passed s t ∧ t.tc = true := by
  obtain ⟨a0, a1, a2, a3, a4, a5, a6, a7⟩ := awaitTc_done h
  obtain ⟨b1, b2, b3, b4, b5, b6, b7⟩ :=
    feed_lines ((passBytes s src len).take (fedBytes s len)) { s with tc := false }
  exact ⟨⟨a1.trans b1, a2.trans b2, a3.trans b3, a4.trans b4, a5.trans b5, a6.trans b6, a7.trans b7⟩, a0⟩

theorem blockPasses_done {src : BlockSrc} {len n : Nat} {s t : State}
    (h : blockPasses src len n s = .done t) : Passed s t ∧ (n ≠ 0 → t.tc = true) := by
  induction n generalizing s with
  | zero =>
    cases h
    exact ⟨⟨rfl, rfl, rfl, rfl, rfl, rfl, rfl⟩, fun h => absurd rfl h⟩
  | succ n ih =>
    obtain ⟨u, h1, h2⟩ := Run.andThen_eq_done h
    obtain ⟨p, htc⟩ := blockPass_done h1
    obtain ⟨q, hn⟩ := ih h2
    refine ⟨⟨q.dcLine.trans p.dcLine, q.csLine.trans p.csLine, q.rstLine.trans p.rstLine,
      q.txe.trans p.txe, q.blkEn.trans p.blkEn, q.blkSrc.trans p.blkSrc, q.blkLen.trans p.blkLen⟩,
      fun _ => ?_⟩
    cases n with
    | zero =>
      cases h2
      exact htc
    | succ n => exact hn (by omega)

/-- The lines and flags a done block transfer leaves (R150). -/
structure Blocked (src : BlockSrc) (len : Nat) (s t : State) : Prop where
  dcLine : t.dcLine = .data
  csLine : t.csLine = s.csLine
  rstLine : t.rstLine = s.rstLine
  txe : t.txe = s.txe
  tc : t.tc = true
  blkEn : t.blkEn = false
  blkSrc : t.blkSrc = src
  blkLen : t.blkLen = u16 len

theorem sendBlock_done {src : BlockSrc} {len reps : Nat} {s t : State}
    (h : sendBlock src len reps s = .done t) : Blocked src len s t := by
  unfold sendBlock at h
  split at h
  · cases h
  · rename_i hc
    obtain ⟨u, h1, h2⟩ := Run.andThen_eq_done h
    obtain ⟨p, htc⟩ := blockPasses_done h1
    cases h2
    exact ⟨p.dcLine, p.csLine, p.rstLine, p.txe, htc (by omega), rfl, p.blkSrc, p.blkLen⟩

theorem select_lines (s : State) :
    (select s).dcLine = s.dcLine ∧ (select s).rstLine = s.rstLine ∧ (select s).txe = s.txe
      ∧ (select s).tc = s.tc ∧ (select s).blkEn = s.blkEn ∧ (select s).blkSrc = s.blkSrc
      ∧ (select s).blkLen = s.blkLen
      ∧ (select s).csLine = if s.cfg.useCs then .assert else s.csLine := by
  unfold select
  split <;> exact ⟨rfl, rfl, rfl, rfl, rfl, rfl, rfl, rfl⟩

theorem deselect_lines (s : State) :
    (deselect s).dcLine = s.dcLine ∧ (deselect s).rstLine = s.rstLine ∧ (deselect s).txe = s.txe
      ∧ (deselect s).tc = s.tc ∧ (deselect s).blkEn = s.blkEn ∧ (deselect s).blkSrc = s.blkSrc
      ∧ (deselect s).blkLen = s.blkLen ∧ (deselect s).csLine = released s := by
  unfold deselect released
  split <;> exact ⟨rfl, rfl, rfl, rfl, rfl, rfl, rfl, rfl⟩

/-- The lines and flags a done block transaction leaves. -/
structure Transacted (src : BlockSrc) (len : Nat) (s t : State) : Prop where
  dcLine : t.dcLine = .data
  csLine : t.csLine = released s
  rstLine : t.rstLine = s.rstLine
  txe : t.txe = true
  tc : t.tc = true
  blkEn : t.blkEn = false
  blkSrc : t.blkSrc = src
  blkLen : t.blkLen = u16 len

theorem released_of {s t : State} (hc : t.cfg = s.cfg)
    (h : t.csLine = if s.cfg.useCs then .assert else s.csLine) : released t = released s := by
  unfold released
  rw [hc, h]
  split <;> rfl

theorem blockTransaction_done {x0 y0 x1 y1 : Half} {src : BlockSrc} {len reps : Nat} {s t : State}
    (h : blockTransaction x0 y0 x1 y1 src len reps s = .done t) : Transacted src len s t := by
  obtain ⟨u, h1, h2⟩ := Run.andThen_eq_done h
  obtain ⟨v, h3, h4⟩ := Run.andThen_eq_done h2
  cases h4
  obtain ⟨a1, a2, a3, a4, a5, a6, a7, a8⟩ := select_lines s
  have w1 := setWindow_wire x0 y0 x1 y1 (select s)
  rw [h1] at w1
  have w2 := sendBlock_wire src len reps u
  rw [h3] at w2
  have hs := setWindow_done h1
  have hb := sendBlock_done h3
  obtain ⟨b1, b2, b3, b4, b5, b6, b7, b8⟩ := deselect_lines v
  have hcfg : v.cfg = s.cfg := w2.cfg.trans (w1.cfg.trans (select_wire s).cfg)
  refine ⟨b1.trans hb.dcLine, b8.trans (released_of hcfg ?_), ?_, ?_, b4.trans hb.tc, b5.trans hb.blkEn,
    b6.trans hb.blkSrc, b7.trans hb.blkLen⟩
  · rw [hb.csLine, hs.csLine, a8]
  · rw [b2, hb.rstLine, hs.rstLine, a2]
  · rw [b3, hb.txe, hs.txe]

/-- The lines and flags a done pixel leaves. -/
structure Dotted (s t : State) : Prop where
  dcLine : t.dcLine = .data
  csLine : t.csLine = released s
  rstLine : t.rstLine = s.rstLine
  txe : t.txe = true
  tc : t.tc = s.tc
  blkEn : t.blkEn = s.blkEn
  blkSrc : t.blkSrc = s.blkSrc
  blkLen : t.blkLen = s.blkLen

theorem pixel_done {x y c : Half} {s t : State} (h : pixel x y c s = .done t) : Dotted s t := by
  obtain ⟨u, h1, h2⟩ := Run.andThen_eq_done h
  obtain ⟨v, h3, h4⟩ := Run.andThen_eq_done h2
  cases h4
  obtain ⟨a1, a2, a3, a4, a5, a6, a7, a8⟩ := select_lines s
  have w1 := setWindow_wire (offX s.cfg x) (offY s.cfg y) (offX s.cfg x) (offY s.cfg y) (select s)
  rw [h1] at w1
  have w2 := sendData16_wire c u
  rw [h3] at w2
  have hs := setWindow_done h1
  have hb := sendData16_done h3
  obtain ⟨b1, b2, b3, b4, b5, b6, b7, b8⟩ := deselect_lines v
  have hcfg : v.cfg = s.cfg := w2.cfg.trans (w1.cfg.trans (select_wire s).cfg)
  refine ⟨b1.trans hb.dcLine, b8.trans (released_of hcfg ?_), ?_, b3.trans hb.txe, ?_, ?_, ?_, ?_⟩
  · rw [hb.csLine, hs.csLine, a8]
  · rw [b2, hb.rstLine, hs.rstLine, a2]
  · rw [b4, hb.tc, hs.tc, a4]
  · rw [b5, hb.blkEn, hs.blkEn, a5]
  · rw [b6, hb.blkSrc, hs.blkSrc, a6]
  · rw [b7, hb.blkLen, hs.blkLen, a7]

end Sys2Proof.Machine
end

