-- ==== Sys2Proof/Laws/Operation.lean ====
section
/-! SUPPORT. What running an operation can do (10_state.md R40, 60_exceptions.md R256, R257), by how its
micro-sequence ends. -/

namespace Sys2Proof.Machine

/-- A done operation leaves the sequencer idle. -/
theorem runOperation_done {op : Byte} {body : State → Run} {s t : State}
    (h : body { s with seq := .busy 0 } = .done t) :
    runOperation op body s = .next { t with seq := .idle } := by
  unfold runOperation
  rw [h]

/-- A stuck operation leaves the machine at its wait. -/
theorem runOperation_stuck {op : Byte} {body : State → Run} {s t : State}
    (h : body { s with seq := .busy 0 } = .stuck t) : runOperation op body s = .next t := by
  unfold runOperation
  rw [h]

/-- A raised fault is the operation's, with its `OP`. -/
theorem runOperation_raised {op : Byte} {body : State → Run} {s t : State} {k : FaultKind}
    (h : body { s with seq := .busy 0 } = .raised k t) :
    runOperation op body s = .fault (Fault.of k op { t with fault := some { kind := k, op := op } }) := by
  unfold runOperation
  rw [h]
  rfl

/-- After INIT a host operation runs. -/
theorem hostOperation_inited {s : State} (h : s.inited = true) (op : Byte) (body : State → Run) :
    hostOperation op body s = runOperation op body s := if_pos h

/-- Before INIT it is refused. -/
theorem hostOperation_refused {s : State} (h : s.inited = false) (op : Byte) (body : State → Run) :
    hostOperation op body s = .refused .notInitialised := by
  unfold hostOperation
  rw [h]
  rfl

@[simp] theorem Fault.left_of (k : FaultKind) (op : Byte) (t : State) : (Fault.of k op t).left = t := by
  cases k <;> rfl

@[simp] theorem Fault.record_of (k : FaultKind) (op : Byte) (t : State) :
    (Fault.of k op t).record = { kind := k, op := op } := by cases k <;> rfl

/-- A run that follows a plan without a fault is done, in an environment that answers. -/
theorem Follows.live_done {pl : Plan} {s : State} {r : Run} (h : Follows pl s r) (hl : s.env.isLive)
    (hp : pl.fault = none) : ∃ t, r = .done t ∧ Took pl.events s t ∧ t.env = s.env := by
  cases r with
  | done t => exact ⟨t, rfl, h.2.1, h.2.2 hl⟩
  | stuck t => exact absurd hl h.1
  | raised k t => simp [h.1] at hp

/-- A run that follows a plan with a fault raises it, in an environment that answers. -/
theorem Follows.live_raised {pl : Plan} {s : State} {r : Run} {k : FaultKind} (h : Follows pl s r)
    (hl : s.env.isLive) (hp : pl.fault = some k) : ∃ t, r = .raised k t ∧ Took pl.events s t := by
  cases r with
  | done t => simp [h.1] at hp
  | stuck t => exact absurd hl h.1
  | raised j t =>
    have e := h.1
    rw [hp] at e
    cases e
    exact ⟨t, rfl, h.2⟩

/-! ### The whole state, from its parts -/

/-- The state after bytes. -/
theorem Sent.state {k : Kind} {evs : List Event} {s t : State} (d : Sent k s t) (w : Wire s t)
    (e : Took evs s t) (v : t.env = s.env) :
    t = { afterEvents evs s with seq := s.seq.plus evs.length, dcLine := k, txe := true } := by
  ext1
  · exact w.cfg
  · exact w.curX
  · exact w.curY
  · exact w.color
  · exact w.bgColor
  · exact w.latches
  · exact e.seq
  · exact w.inited
  · exact d.rstLine
  · exact d.dcLine
  · exact d.csLine
  · exact d.txe
  · exact d.tc
  · exact d.blkEn
  · exact d.blkSrc
  · exact d.blkLen
  · exact w.rowBuf
  · exact w.glyphBuf
  · exact w.numBuf
  · exact w.host
  · exact e.panel
  · exact e.trace
  · exact v
  · exact w.inputs
  · exact w.port
  · exact w.freeCount
  · exact w.fault
  · exact w.refused

/-- The state after a pixel, or pixels. -/
theorem Dotted.state {evs : List Event} {s t : State} (d : Dotted s t) (w : Wire s t)
    (e : Took evs s t) (v : t.env = s.env) :
    t = { afterEvents evs s with
      seq := s.seq.plus evs.length, dcLine := .data, csLine := released s, txe := true } := by
  ext1
  · exact w.cfg
  · exact w.curX
  · exact w.curY
  · exact w.color
  · exact w.bgColor
  · exact w.latches
  · exact e.seq
  · exact w.inited
  · exact d.rstLine
  · exact d.dcLine
  · exact d.csLine
  · exact d.txe
  · exact d.tc
  · exact d.blkEn
  · exact d.blkSrc
  · exact d.blkLen
  · exact w.rowBuf
  · exact w.glyphBuf
  · exact w.numBuf
  · exact w.host
  · exact e.panel
  · exact e.trace
  · exact v
  · exact w.inputs
  · exact w.port
  · exact w.freeCount
  · exact w.fault
  · exact w.refused

/-- The state after block transactions, with what an operation may change besides. -/
theorem Transacted.state {src : BlockSrc} {len : Nat} {evs : List Event} {s t : State}
    (d : Transacted src len s t)
    (w : Wire { s with
      curX := t.curX, rowBuf := t.rowBuf, glyphBuf := t.glyphBuf, numBuf := t.numBuf } t)
    (e : Took evs s t) (v : t.env = s.env) :
    t = { afterEvents evs s with
      seq := s.seq.plus evs.length, dcLine := .data, csLine := released s, txe := true, tc := true
      blkEn := false, blkSrc := src, blkLen := u16 len, curX := t.curX, rowBuf := t.rowBuf
      glyphBuf := t.glyphBuf, numBuf := t.numBuf } := by
  ext1
  · exact w.cfg
  · rfl
  · exact w.curY
  · exact w.color
  · exact w.bgColor
  · exact w.latches
  · exact e.seq
  · exact w.inited
  · exact d.rstLine
  · exact d.dcLine
  · exact d.csLine
  · exact d.txe
  · exact d.tc
  · exact d.blkEn
  · exact d.blkSrc
  · exact d.blkLen
  · rfl
  · rfl
  · rfl
  · exact w.host
  · exact e.panel
  · exact e.trace
  · exact v
  · exact w.inputs
  · exact w.port
  · exact w.freeCount
  · exact w.fault
  · exact w.refused

/-- The window check on numbers (41_command_protocol.md R178). -/
theorem beyond_iff (x : Half) (n : Nat) : beyond x n = true ↔ 65535 < x.toNat + n - 1 := by
  unfold beyond farCorner
  simp

theorem toNat_pos_of_ne {w : Half} (h : w ≠ 0) : 0 < w.toNat := by
  rcases Nat.eq_zero_or_pos w.toNat with e | e
  · exact absurd (BitVec.eq_of_toNat_eq (by simpa using e)) h
  · exact e

end Sys2Proof.Machine
end

