-- ==== Sys2Proof/Laws/Protocol.lean ====
section
/-! SUPPORT. What the Command Protocol can do (41_command_protocol.md): the fields its frames leave
alone, the plan each follows, and the lines and flags each leaves when it is done. -/

namespace Sys2Proof.Machine

/-! ### Frames with a delay, a parameter or a table -/

theorem settledCommand_wire (v : Byte) (t : Nat) (s : State) :
    (settledCommand v t s).Leaves (Wire s) :=
  Run.Leaves.andThen (rel := Wire) Wire.trans (sendCommand_wire v s) fun u _ => delay_wire t u

theorem settledCommand_follows (v : Byte) (t : Nat) (s : State) :
    Follows (Plan.emits (settledEvents v t)) s (settledCommand v t s) :=
  Follows.andThen (q := Plan.emits [.delay t]) (sendByte_follows .cmd v s)
    fun u _ _ => delay_follows t u

theorem settledCommand_done {v : Byte} {n : Nat} {s t : State} (h : settledCommand v n s = .done t) :
    Sent .cmd s t := by
  obtain ⟨u, h1, h2⟩ := Run.andThen_eq_done h
  have a := sendByte_done h1
  obtain ⟨b1, b2, b3, b4, b5, b6, b7, b8⟩ := delay_done h2
  exact ⟨b2.trans a.dcLine, b5.trans a.txe, b3.trans a.csLine, b4.trans a.rstLine, b1.trans a.tc,
    b6.trans a.blkEn, b7.trans a.blkSrc, b8.trans a.blkLen⟩

theorem configuredCommand_wire (v p : Byte) (s : State) :
    (configuredCommand v p s).Leaves (Wire s) :=
  Run.Leaves.andThen (rel := Wire) Wire.trans (sendCommand_wire v s) fun u _ => sendData8_wire p u

theorem configuredCommand_follows (v p : Byte) (s : State) :
    Follows (Plan.emits (configuredEvents v p)) s (configuredCommand v p s) :=
  Follows.andThen (q := Plan.emits [.byte .data p]) (sendByte_follows .cmd v s)
    fun u _ _ => sendByte_follows .data p u

theorem configuredCommand_done {v p : Byte} {s t : State} (h : configuredCommand v p s = .done t) :
    Sent .data s t := by
  obtain ⟨u, h1, h2⟩ := Run.andThen_eq_done h
  exact (sendByte_done h1).trans (sendByte_done h2)

theorem gammaCommand_wire (v : Byte) (table : BlockSrc) (s : State) :
    (gammaCommand v table s).Leaves (Wire s) :=
  Run.Leaves.andThen (rel := Wire) Wire.trans (sendCommand_wire v s) fun u _ => sendBlock_wire _ _ _ u

/-- One pass of sixteen bytes. -/
theorem gamma_blockEvents (s : State) (src : BlockSrc) :
    blockEvents s src 16 1 = (List.range 16).map (fun j => .byte .data (sourceByte s src j)) := by
  simp [blockEvents, passBytes, List.map_map, Function.comp_def]

theorem gammaCommand_follows {src : BlockSrc} {table : List Byte} (v : Byte) (s : State)
    (h : ∀ t : State, t.cfg = s.cfg → ∀ j, sourceByte t src j = table.getD j 0) :
    Follows (Plan.emits (gammaEvents v table)) s (gammaCommand v src s) := by
  have hp : Plan.emits (gammaEvents v table) = (Plan.emits [.byte .cmd v]).andThen
      (Plan.emits ((List.range 16).map (fun j => .byte .data (table.getD j 0)))) := by
    simp [gammaEvents, Plan.emits_andThen_emits]
  rw [hp]
  refine Follows.andThen (sendByte_follows .cmd v s) fun u _ hu => ?_
  have := sendBlock_follows (len := 16) (reps := 1) (by decide) src u
  rw [gamma_blockEvents] at this
  simpa only [h u hu.cfg] using this

theorem gammaCommand_done {v : Byte} {src : BlockSrc} {s t : State}
    (h : gammaCommand v src s = .done t) :
    t.dcLine = .data ∧ t.csLine = s.csLine ∧ t.rstLine = s.rstLine ∧ t.txe = true ∧ t.tc = true
      ∧ t.blkEn = false ∧ t.blkSrc = src ∧ t.blkLen = 16 := by
  obtain ⟨u, h1, h2⟩ := Run.andThen_eq_done h
  have a := sendByte_done h1
  have b := sendBlock_done h2
  exact ⟨b.dcLine, b.csLine.trans a.csLine, b.rstLine.trans a.rstLine, b.txe.trans a.txe, b.tc, b.blkEn,
    b.blkSrc, b.blkLen⟩

/-! ### Payloads -/

theorem sendPixels_wire (ps : List Half) (s : State) : (sendPixels ps s).Leaves (Wire s) := by
  induction ps generalizing s with
  | nil => exact Wire.refl s
  | cons v rest ih =>
    exact Run.Leaves.andThen (rel := Wire) Wire.trans (sendData16_wire v s) fun t _ => ih t

theorem sendPixels_follows (ps : List Half) (s : State) :
    Follows (Plan.emits (payloadEvents ps)) s (sendPixels ps s) := by
  induction ps generalizing s with
  | nil => exact ⟨rfl, Took.refl s, fun _ => rfl⟩
  | cons v rest ih =>
    have hp : Plan.emits (payloadEvents (v :: rest))
        = (Plan.emits (halfEvents v)).andThen (Plan.emits (payloadEvents rest)) := by
      simp [payloadEvents, Plan.emits_andThen_emits]
    rw [hp]
    exact Follows.andThen (sendData16_follows v s) fun t _ _ => ih t

theorem ramwrFrame_wire (ps : List Half) (s : State) : (ramwrFrame ps s).Leaves (Wire s) :=
  Run.Leaves.andThen (rel := Wire) Wire.trans (sendCommand_wire _ s) fun t _ => sendPixels_wire ps t

theorem ramwrFrame_follows (ps : List Half) (s : State) :
    Follows (Plan.emits (.byte .cmd s.cfg.opcodes.ramwr :: payloadEvents ps)) s (ramwrFrame ps s) :=
  Follows.andThen (q := Plan.emits (payloadEvents ps)) (sendByte_follows .cmd _ s)
    fun t _ _ => sendPixels_follows ps t

theorem sendPixels_done {k : Kind} {ps : List Half} {r s t : State} (h : sendPixels ps s = .done t)
    (hs : Sent k r s) : Sent (if ps = [] then k else .data) r t := by
  induction ps generalizing k s with
  | nil =>
    cases h
    exact hs
  | cons v rest ih =>
    obtain ⟨u, h1, h2⟩ := Run.andThen_eq_done h
    have := ih h2 (hs.trans (sendData16_done h1))
    simpa using this

theorem ramwrFrame_done {ps : List Half} {s t : State} (h : ramwrFrame ps s = .done t) :
    Sent (if ps = [] then .cmd else .data) s t := by
  obtain ⟨u, h1, h2⟩ := Run.andThen_eq_done h
  exact sendPixels_done h2 (sendByte_done h1)

/-! ### INIT -/

/-- `t` differs from `s` in the Transport's state and in what the end of INIT sets. -/
structure InitOnly (s t : State) : Prop where
  wire : Wire { s with
    curX := t.curX, curY := t.curY, color := t.color, bgColor := t.bgColor
    freeCount := t.freeCount, inited := t.inited, rstLine := t.rstLine } t
  inited : s.inited = true → t.inited = true

theorem InitOnly.refl (s : State) : InitOnly s s := ⟨Wire.refl s, id⟩

theorem InitOnly.of_wire {s t : State} (h : Wire s t) : InitOnly s t := by
  refine ⟨?_, fun hi => h.inited.trans hi⟩
  constructor
  · exact h.cfg
  · rfl
  · rfl
  · rfl
  · rfl
  · exact h.latches
  · rfl
  · rfl
  · exact h.rowBuf
  · exact h.glyphBuf
  · exact h.numBuf
  · exact h.host
  · exact h.inputs
  · exact h.port
  · rfl
  · exact h.fault
  · exact h.refused

theorem InitOnly.trans {s t u : State} (h : InitOnly s t) (k : InitOnly t u) : InitOnly s u := by
  refine ⟨?_, fun hi => k.inited (h.inited hi)⟩
  have h1 := h.wire
  have h2 := k.wire
  constructor
  · exact h2.cfg.trans h1.cfg
  · rfl
  · rfl
  · rfl
  · rfl
  · exact h2.latches.trans h1.latches
  · rfl
  · rfl
  · exact h2.rowBuf.trans h1.rowBuf
  · exact h2.glyphBuf.trans h1.glyphBuf
  · exact h2.numBuf.trans h1.numBuf
  · exact h2.host.trans h1.host
  · exact h2.inputs.trans h1.inputs
  · exact h2.port.trans h1.port
  · rfl
  · exact h2.fault.trans h1.fault
  · exact h2.refused.trans h1.refused

theorem finishInit_initOnly (s : State) : InitOnly s (finishInit s) :=
  ⟨by constructor <;> rfl, fun _ => rfl⟩

theorem resetPanel_initOnly (s : State) : (resetPanel s).Leaves (InitOnly s) := by
  refine (resetPanel_wire s).mono fun t h => ⟨?_, fun hi => h.inited.trans hi⟩
  exact ⟨h.cfg, rfl, rfl, rfl, rfl, h.latches, rfl, rfl, h.rowBuf, h.glyphBuf, h.numBuf, h.host, h.inputs, h.port,
    rfl, h.fault, h.refused⟩

/-- The frame of INIT that inverts or does not (R166, R167). -/
theorem inversion_eq (s : State) :
    (if s.cfg.invert then invonFrame s else invoffFrame s)
      = settledCommand (if s.cfg.invert then s.cfg.opcodes.invon else s.cfg.opcodes.invoff)
          s.cfg.tSettle s := by
  unfold invonFrame invoffFrame
  split <;> rfl

theorem initSequence_only (s : State) : (initSequence s).Leaves (InitOnly s) := by
  have tr := @InitOnly.trans
  have ow : ∀ {s : State} {r : Run}, r.Leaves (Wire s) → r.Leaves (InitOnly s) :=
    fun h => h.mono fun _ => InitOnly.of_wire
  refine Run.Leaves.andThen (rel := InitOnly) tr (resetPanel_initOnly s) fun a _ => ?_
  refine Run.Leaves.andThen (rel := InitOnly) tr ?_ fun b _ => ?_
  · refine (ow (settledCommand_wire _ _ (select a))).mono fun t ht => ?_
    exact (InitOnly.of_wire (select_wire a)).trans ht
  refine Run.Leaves.andThen (rel := InitOnly) tr (ow (configuredCommand_wire _ _ b)) fun c _ => ?_
  refine Run.Leaves.andThen (rel := InitOnly) tr (ow (configuredCommand_wire _ _ c)) fun d _ => ?_
  refine Run.Leaves.andThen (rel := InitOnly) tr (ow (gammaCommand_wire _ _ d)) fun e _ => ?_
  refine Run.Leaves.andThen (rel := InitOnly) tr (ow (gammaCommand_wire _ _ e)) fun f _ => ?_
  refine Run.Leaves.andThen (rel := InitOnly) tr ?_ fun g _ => ?_
  · rw [inversion_eq]
    exact ow (settledCommand_wire _ _ f)
  refine Run.Leaves.andThen (rel := InitOnly) tr (ow (settledCommand_wire _ _ g)) fun h _ => ?_
  refine Run.Leaves.andThen (rel := InitOnly) tr (ow (settledCommand_wire _ _ h)) fun i _ => ?_
  exact (InitOnly.of_wire (deselect_wire i)).trans (finishInit_initOnly _)

/-- A part of INIT before its end: the reset line and what no Transport routine keeps. -/
abbrev InitPart (s t : State) : Prop := Wire { s with rstLine := t.rstLine } t

theorem InitPart.of_wire {s t : State} (h : Wire s t) : InitPart s t := by
  have e := h.rstLine
  cases s
  cases t
  cases e
  exact h

theorem InitPart.trans {s t u : State} (h : InitPart s t) (k : InitPart t u) : InitPart s u := by
  constructor
  · exact k.cfg.trans h.cfg
  · exact k.curX.trans h.curX
  · exact k.curY.trans h.curY
  · exact k.color.trans h.color
  · exact k.bgColor.trans h.bgColor
  · exact k.latches.trans h.latches
  · exact k.inited.trans h.inited
  · rfl
  · exact k.rowBuf.trans h.rowBuf
  · exact k.glyphBuf.trans h.glyphBuf
  · exact k.numBuf.trans h.numBuf
  · exact k.host.trans h.host
  · exact k.inputs.trans h.inputs
  · exact k.port.trans h.port
  · exact k.freeCount.trans h.freeCount
  · exact k.fault.trans h.fault
  · exact k.refused.trans h.refused

/-- A sequence that hangs has hung in its first part or in its second. -/
theorem InitPart.andThen_stuck {s u : State} {r : Run} {f : State → Run} (h : r.Leaves (InitPart s))
    (k : ∀ t, f t = .stuck u → InitPart t u) (e : r.andThen f = .stuck u) : InitPart s u := by
  cases r with
  | done t => exact h.trans (k t e)
  | stuck t => cases e; exact h
  | raised _ _ => cases e

/-- An INIT that hangs has written neither DeviceState nor `inited` (R160: both come at its end). -/
theorem initSequence_stuck {s u : State} (h : initSequence s = .stuck u) : InitPart s u := by
  have ow : ∀ {s : State} {r : Run}, r.Leaves (Wire s) → r.Leaves (InitPart s) :=
    fun h => h.mono fun _ => InitPart.of_wire
  refine InitPart.andThen_stuck (resetPanel_wire s) (fun a e => ?_) h
  refine InitPart.andThen_stuck (s := a) ?_ (fun b e => ?_) e
  · refine (ow (settledCommand_wire _ _ (select a))).mono fun t ht => ?_
    exact (InitPart.of_wire (select_wire a)).trans ht
  refine InitPart.andThen_stuck (ow (configuredCommand_wire _ _ b)) (fun c e => ?_) e
  refine InitPart.andThen_stuck (ow (configuredCommand_wire _ _ c)) (fun d e => ?_) e
  refine InitPart.andThen_stuck (ow (gammaCommand_wire _ _ d)) (fun f e => ?_) e
  refine InitPart.andThen_stuck (ow (gammaCommand_wire _ _ f)) (fun g e => ?_) e
  refine InitPart.andThen_stuck ?_ (fun i e => ?_) e
  · rw [inversion_eq]
    exact ow (settledCommand_wire _ _ g)
  refine InitPart.andThen_stuck (ow (settledCommand_wire _ _ i)) (fun j e => ?_) e
  refine InitPart.andThen_stuck (ow (settledCommand_wire _ _ j)) (fun k e => ?_) e
  cases e

/-- INIT follows the event list of R160. -/
theorem initSequence_follows (s : State) :
    Follows (Plan.emits (initEvents s.cfg)) s (initSequence s) := by
  have hp : Plan.emits (initEvents s.cfg) =
      (Plan.emits [.rst false, .delay s.cfg.tRstLow, .rst true, .delay s.cfg.tRstHigh]).andThen
      (((Plan.emits (csEvents s.cfg .assert)).andThen
        (Plan.emits (settledEvents s.cfg.opcodes.slpout s.cfg.tSlpout))).andThen
      ((Plan.emits (configuredEvents s.cfg.opcodes.madctl s.cfg.madctlValue)).andThen
      ((Plan.emits (configuredEvents s.cfg.opcodes.colmod s.cfg.colmodValue)).andThen
      ((Plan.emits (gammaEvents s.cfg.opcodes.gmctrp1 s.cfg.gammaP)).andThen
      ((Plan.emits (gammaEvents s.cfg.opcodes.gmctrn1 s.cfg.gammaN)).andThen
      ((Plan.emits (settledEvents
        (if s.cfg.invert then s.cfg.opcodes.invon else s.cfg.opcodes.invoff) s.cfg.tSettle)).andThen
      ((Plan.emits (settledEvents s.cfg.opcodes.noron s.cfg.tSettle)).andThen
      ((Plan.emits (settledEvents s.cfg.opcodes.dispon s.cfg.tSettle)).andThen
      (Plan.emits (csEvents s.cfg .release)))))))))) := by
    simp only [initEvents, Plan.emits_andThen_emits, List.append_assoc]
  rw [hp]
  refine Follows.andThen (resetPanel_follows s) fun a _ ha => ?_
  have ca := ha.cfg
  refine Follows.andThen ?_ fun b _ hb => ?_
  · rw [← ca]
    have := settledCommand_follows (select a).cfg.opcodes.slpout (select a).cfg.tSlpout (select a)
    rw [(select_wire a).cfg] at this
    have h2 := Follows.after (select_took a) (select_env a) this
    unfold slpoutFrame
    rw [(select_wire a).cfg]
    exact h2
  have cb := hb.cfg.trans ca
  refine Follows.andThen ?_ fun c _ hc => ?_
  · rw [← cb]; exact configuredCommand_follows _ _ b
  have cc := hc.cfg.trans cb
  refine Follows.andThen ?_ fun d _ hd => ?_
  · rw [← cc]; exact configuredCommand_follows _ _ c
  have cd := hd.cfg.trans cc
  refine Follows.andThen ?_ fun e _ he => ?_
  · rw [← cd]
    exact gammaCommand_follows _ d fun t ht j => by simp [sourceByte, ht]
  have ce := he.cfg.trans cd
  refine Follows.andThen ?_ fun f _ hf => ?_
  · rw [← ce]
    exact gammaCommand_follows _ e fun t ht j => by simp [sourceByte, ht]
  have cf := hf.cfg.trans ce
  refine Follows.andThen ?_ fun g _ hg => ?_
  · rw [← cf, inversion_eq]; exact settledCommand_follows _ _ f
  have cg := hg.cfg.trans cf
  refine Follows.andThen ?_ fun h _ hh => ?_
  · rw [← cg]; exact settledCommand_follows _ _ g
  have ch := hh.cfg.trans cg
  refine Follows.andThen ?_ fun i _ hi => ?_
  · rw [← ch]; exact settledCommand_follows _ _ h
  have ci := hi.cfg.trans ch
  rw [← ci]
  refine Follows.done ?_ ?_
  · have := deselect_took i
    exact ⟨this.cfg, this.trace, this.seq, this.panel⟩
  · exact deselect_env i

/-- The lines, flags and DeviceState a done INIT leaves (10_state.md R50). -/
structure Initialised (s t : State) : Prop where
  rstLine : t.rstLine = true
  dcLine : t.dcLine = .cmd
  csLine : t.csLine = released s
  txe : t.txe = true
  tc : t.tc = true
  blkEn : t.blkEn = false
  blkSrc : t.blkSrc = .gammaN
  blkLen : t.blkLen = 16
  inited : t.inited = true
  curX : t.curX = Config.freeValue s.freeCount
  curY : t.curY = Config.freeValue (s.freeCount + 1)
  color : t.color = Config.freeValue (s.freeCount + 2)
  bgColor : t.bgColor = Config.freeValue (s.freeCount + 3)
  freeCount : t.freeCount = s.freeCount + 4

theorem resetPanel_done {s t : State} (h : resetPanel s = .done t) :
    t.rstLine = true ∧ t.csLine = s.csLine := by
  obtain ⟨u, h1, h2⟩ := Run.andThen_eq_done h
  obtain ⟨_, _, a3, a4, _⟩ := delay_done h1
  obtain ⟨_, _, b3, b4, _⟩ := delay_done h2
  exact ⟨b4, b3.trans a3⟩

theorem initSequence_done {s t : State} (h : initSequence s = .done t) : Initialised s t := by
  obtain ⟨a, ha, h⟩ := Run.andThen_eq_done h
  obtain ⟨b, hb, h⟩ := Run.andThen_eq_done h
  obtain ⟨c, hc, h⟩ := Run.andThen_eq_done h
  obtain ⟨d, hd, h⟩ := Run.andThen_eq_done h
  obtain ⟨e, he, h⟩ := Run.andThen_eq_done h
  obtain ⟨f, hf, h⟩ := Run.andThen_eq_done h
  obtain ⟨g, hg, h⟩ := Run.andThen_eq_done h
  obtain ⟨i, hi, h⟩ := Run.andThen_eq_done h
  obtain ⟨j, hj, h⟩ := Run.andThen_eq_done h
  cases h
  have wa : Wire { s with rstLine := a.rstLine } a := (resetPanel_wire s).of_done ha
  have wb : Wire (select a) b := (settledCommand_wire _ _ _).of_done hb
  have wc : Wire b c := (configuredCommand_wire _ _ _).of_done hc
  have wd : Wire c d := (configuredCommand_wire _ _ _).of_done hd
  have we : Wire d e := (gammaCommand_wire _ _ _).of_done he
  have wf : Wire e f := (gammaCommand_wire _ _ _).of_done hf
  have wg : Wire f g := by
    rw [inversion_eq] at hg
    exact (settledCommand_wire _ _ _).of_done hg
  have wi : Wire g i := (settledCommand_wire _ _ _).of_done hi
  have wj : Wire i j := (settledCommand_wire _ _ _).of_done hj
  have w : Wire { s with rstLine := a.rstLine } j := ((((((((Wire.trans wa (select_wire a)).trans wb).trans wc).trans wd).trans we).trans
    wf).trans wg).trans wi).trans wj
  rw [inversion_eq] at hg
  have pb := settledCommand_done hb
  have pc := configuredCommand_done hc
  have pd := configuredCommand_done hd
  obtain ⟨e1, e2, e3, e4, e5, e6, e7, e8⟩ := gammaCommand_done he
  obtain ⟨f1, f2, f3, f4, f5, f6, f7, f8⟩ := gammaCommand_done hf
  have pg := settledCommand_done hg
  have pi := settledCommand_done hi
  have pj := settledCommand_done hj
  obtain ⟨ra, rc⟩ := resetPanel_done ha
  obtain ⟨_, a2, _, _, _, _, _, a8⟩ := select_lines a
  obtain ⟨j1, j2, j3, j4, j5, j6, j7, j8⟩ := deselect_lines j
  have wd' := deselect_wire j
  refine ⟨?_, ?_, ?_, ?_, ?_, ?_, ?_, ?_, rfl, ?_, ?_, ?_, ?_, ?_⟩
  · exact j2.trans (pj.rstLine.trans (pi.rstLine.trans (pg.rstLine.trans (f3.trans (e3.trans
      (pd.rstLine.trans (pc.rstLine.trans (pb.rstLine.trans (a2.trans ra)))))))))
  · exact j1.trans pj.dcLine
  · refine j8.trans (released_of w.cfg ?_)
    rw [pj.csLine, pi.csLine, pg.csLine, f2, e2, pd.csLine, pc.csLine, pb.csLine, a8, rc, Wire.cfg wa]
  · exact j3.trans pj.txe
  · exact j4.trans (pj.tc.trans (pi.tc.trans (pg.tc.trans f5)))
  · exact j5.trans (pj.blkEn.trans (pi.blkEn.trans (pg.blkEn.trans f6)))
  · exact j6.trans (pj.blkSrc.trans (pi.blkSrc.trans (pg.blkSrc.trans f7)))
  · exact j7.trans (pj.blkLen.trans (pi.blkLen.trans (pg.blkLen.trans f8)))
  · show Config.freeValue (deselect j).freeCount = _
    rw [wd'.freeCount, w.freeCount]
  · show Config.freeValue ((deselect j).freeCount + 1) = _
    rw [wd'.freeCount, w.freeCount]
  · show Config.freeValue ((deselect j).freeCount + 2) = _
    rw [wd'.freeCount, w.freeCount]
  · show Config.freeValue ((deselect j).freeCount + 3) = _
    rw [wd'.freeCount, w.freeCount]
  · show (deselect j).freeCount + 4 = _
    rw [wd'.freeCount, w.freeCount]

end Sys2Proof.Machine
end

