-- ==== Sys2Proof/Laws/Memory.lean ====
section
/-! SUPPORT. The laws of the sparse memories: a read after a write, and the canonical form that every
operation keeps. -/

namespace Sys2Proof.Machine

variable {α : Type}

theorem Cells.get?_put_same (a : Nat) (v : α) (m : List (Nat × α)) :
    Cells.get? (Cells.put a v m) a = some v := by
  induction m with
  | nil => simp [Cells.put, Cells.get?]
  | cons e rest ih =>
    obtain ⟨k, w⟩ := e
    simp only [Cells.put]
    split
    · simp [Cells.get?]
    · split
      · simp [Cells.get?]
      · rename_i h1 h2
        simp [Cells.get?, ih, Ne.symm h2]

theorem Cells.get?_put_other {a b : Nat} (h : b ≠ a) (v : α) (m : List (Nat × α)) :
    Cells.get? (Cells.put a v m) b = Cells.get? m b := by
  induction m with
  | nil => simp [Cells.put, Cells.get?, Ne.symm h]
  | cons e rest ih =>
    obtain ⟨k, w⟩ := e
    simp only [Cells.put]
    split
    · simp [Cells.get?, Ne.symm h]
    · split
      · rename_i h1 h2
        subst h2
        simp [Cells.get?, Ne.symm h]
      · simp only [Cells.get?, ih]

theorem Cells.sortedFrom_mono {lo lo' : Nat} (h : lo' ≤ lo) {m : List (Nat × α)}
    (hm : Cells.sortedFrom lo m = true) : Cells.sortedFrom lo' m = true := by
  cases m with
  | nil => rfl
  | cons e rest =>
    obtain ⟨k, w⟩ := e
    simp only [Cells.sortedFrom, Bool.and_eq_true, decide_eq_true_eq] at hm ⊢
    exact ⟨by omega, hm.2⟩

theorem Cells.sortedFrom_put {lo a : Nat} (h : lo ≤ a) (v : α) {m : List (Nat × α)}
    (hm : Cells.sortedFrom lo m = true) : Cells.sortedFrom lo (Cells.put a v m) = true := by
  induction m generalizing lo with
  | nil => simp [Cells.put, Cells.sortedFrom, h]
  | cons e rest ih =>
    obtain ⟨k, w⟩ := e
    simp only [Cells.sortedFrom, Bool.and_eq_true, decide_eq_true_eq] at hm
    simp only [Cells.put]
    split
    · rename_i h1
      simp only [Cells.sortedFrom, Bool.and_eq_true, decide_eq_true_eq]
      exact ⟨h, by omega, hm.2⟩
    · split
      · rename_i h1 h2
        subst h2
        simp only [Cells.sortedFrom, Bool.and_eq_true, decide_eq_true_eq]
        exact ⟨h, hm.2⟩
      · simp only [Cells.sortedFrom, Bool.and_eq_true, decide_eq_true_eq]
        exact ⟨hm.1, ih (by omega) hm.2⟩

theorem Cells.sortedFrom_erase {lo : Nat} (a : Nat) {m : List (Nat × α)}
    (hm : Cells.sortedFrom lo m = true) : Cells.sortedFrom lo (Cells.erase a m) = true := by
  induction m generalizing lo with
  | nil => rfl
  | cons e rest ih =>
    obtain ⟨k, w⟩ := e
    simp only [Cells.sortedFrom, Bool.and_eq_true, decide_eq_true_eq] at hm
    have hr := ih hm.2
    unfold Cells.erase at hr ⊢
    by_cases h : k = a
    · rw [List.filter_cons_of_neg (by simp [h])]
      exact Cells.sortedFrom_mono (by omega) hr
    · rw [List.filter_cons_of_pos (by simp [h])]
      simp only [Cells.sortedFrom, Bool.and_eq_true, decide_eq_true_eq]
      exact ⟨hm.1, hr⟩

theorem Cells.get?_erase_same (a : Nat) (m : List (Nat × α)) :
    Cells.get? (Cells.erase a m) a = none := by
  induction m with
  | nil => rfl
  | cons e rest ih =>
    obtain ⟨k, w⟩ := e
    unfold Cells.erase at ih ⊢
    by_cases h : k = a
    · rw [List.filter_cons_of_neg (by simp [h])]
      exact ih
    · rw [List.filter_cons_of_pos (by simp [h])]
      simp only [Cells.get?, h, if_false]
      exact ih

theorem Cells.get?_erase_other {a b : Nat} (h : b ≠ a) (m : List (Nat × α)) :
    Cells.get? (Cells.erase a m) b = Cells.get? m b := by
  induction m with
  | nil => rfl
  | cons e rest ih =>
    obtain ⟨k, w⟩ := e
    unfold Cells.erase at ih ⊢
    by_cases hk : k = a
    · subst hk
      rw [List.filter_cons_of_neg (by simp), ih]
      simp [Cells.get?, Ne.symm h]
    · rw [List.filter_cons_of_pos (by simp [hk])]
      simp only [Cells.get?, ih]

/-- Every entry after a `put` is the new one or an old one. -/
theorem Cells.all_put {p : Nat × α → Bool} {a : Nat} {v : α} {m : List (Nat × α)}
    (hm : m.all p = true) (hv : p (a, v) = true) : (Cells.put a v m).all p = true := by
  induction m with
  | nil => simp [Cells.put, hv]
  | cons e rest ih =>
    obtain ⟨k, w⟩ := e
    simp only [List.all_cons, Bool.and_eq_true] at hm
    simp only [Cells.put]
    split
    · simp [List.all_cons, hv, hm.1, hm.2]
    · split
      · simp [List.all_cons, hv, hm.2]
      · simp [List.all_cons, hm.1, ih hm.2]

/-- Every entry after an `erase` is an old one. -/
theorem Cells.all_erase {p : Nat × α → Bool} {a : Nat} {m : List (Nat × α)}
    (hm : m.all p = true) : (Cells.erase a m).all p = true := by
  rw [List.all_eq_true] at hm ⊢
  exact fun e he => hm e (List.mem_of_mem_filter he)

/-- A write keeps the canonical form. -/
theorem Memory.wf_write {m : Memory} (hm : Memory.wf m = true) (a : Nat) (v : Byte) :
    Memory.wf (Memory.write m a v) = true := by
  simp only [Memory.wf, Bool.and_eq_true] at hm ⊢
  unfold Memory.write
  split
  · exact ⟨Cells.sortedFrom_erase a hm.1, Cells.all_erase hm.2⟩
  · rename_i hv
    exact ⟨Cells.sortedFrom_put (Nat.zero_le a) v hm.1, Cells.all_put hm.2 (by simpa using hv)⟩

/-- A write inside a space leaves the memory inside it. -/
theorem Memory.below_write {m : Memory} {n a : Nat} (hm : Cells.below n m = true) (h : a < n)
    (v : Byte) : Cells.below n (Memory.write m a v) = true := by
  unfold Memory.write Cells.below at *
  split
  · exact Cells.all_erase hm
  · exact Cells.all_put hm (by simpa using h)

/-- A read after a write to the same place gives the value written. -/
theorem Memory.read_write_same (m : Memory) (a : Nat) (v : Byte) :
    Memory.read (Memory.write m a v) a = v := by
  unfold Memory.read Memory.write
  split
  · rename_i hv
    rw [Cells.get?_erase_same]
    exact hv.symm
  · rw [Cells.get?_put_same]
    rfl

/-- A write leaves every other place alone. -/
theorem Memory.read_write_other {a b : Nat} (h : b ≠ a) (m : Memory) (v : Byte) :
    Memory.read (Memory.write m a v) b = Memory.read m b := by
  unfold Memory.read Memory.write
  split
  · rw [Cells.get?_erase_other h]
  · rw [Cells.get?_put_other h]

theorem Memory.wf_nil : Memory.wf [] = true := rfl

theorem Memory.read_nil (a : Nat) : Memory.read [] a = Memory.unlisted := rfl

end Sys2Proof.Machine
end

