-- ==== Sys2Proof/Laws/Raster.lean ====
section
/-! SUPPORT. What the Rasterizer can do (42_rasterizer.md): the staged bytes, the fields each routine
leaves alone, and the plan each routine follows. -/

namespace Sys2Proof.Machine

/-! ### Staged runs -/

/-- The bytes a staged run leaves (R192): the run's own, and every other as it was. -/
theorem stagePixels_read (c : Half) (n : Nat) (m : Memory) (a : Nat) :
    Memory.read (stagePixels c n m) a =
      if a < 2 * n then (if a % 2 = 0 then hi8 c else lo8 c) else Memory.read m a := by
  induction n with
  | zero => simp [stagePixels]
  | succ n ih =>
    simp only [stagePixels]
    by_cases h1 : a = 2 * n + 1
    · subst h1
      rw [Memory.read_write_same, if_pos (by omega), if_neg (by omega)]
    · rw [Memory.read_write_other h1]
      by_cases h2 : a = 2 * n
      · subst h2
        rw [Memory.read_write_same, if_pos (by omega), if_pos (by omega)]
      · rw [Memory.read_write_other h2, ih]
        by_cases h3 : a < 2 * n
        · simp only [h3, if_true, show a < 2 * (n + 1) from by omega]
        · simp only [h3, if_false, show ¬ a < 2 * (n + 1) from by omega]

theorem stagePixels_wf (c : Half) (n : Nat) {m : Memory} (h : Memory.wf m = true) :
    Memory.wf (stagePixels c n m) = true := by
  induction n with
  | zero => exact h
  | succ n ih => exact Memory.wf_write (Memory.wf_write ih _ _) _ _

theorem stagePixels_below (c : Half) {n cap : Nat} (hn : 2 * n ≤ cap) {m : Memory}
    (h : Cells.below cap m = true) : Cells.below cap (stagePixels c n m) = true := by
  induction n with
  | zero => exact h
  | succ n ih =>
    exact Memory.below_write (Memory.below_write (ih (by omega)) (by omega) _) (by omega) _

/-! ### Payloads -/

@[simp] theorem payloadEvents_nil : payloadEvents [] = [] := rfl

@[simp] theorem payloadEvents_append (a b : List Half) :
    payloadEvents (a ++ b) = payloadEvents a ++ payloadEvents b := by
  simp [payloadEvents, List.flatMap_append]

@[simp] theorem payloadEvents_singleton (v : Half) : payloadEvents [v] = halfEvents v := by
  simp [payloadEvents]

/-- The bytes of a buffer that holds pixels, high byte first, are the payload of those pixels. -/
theorem pass_payload (f : Nat → Byte) (px : Nat → Half) (n : Nat)
    (h : ∀ k < n, f (2 * k) = hi8 (px k) ∧ f (2 * k + 1) = lo8 (px k)) :
    ((List.range (2 * n)).map f).map (Event.byte .data) = payloadEvents ((List.range n).map px) := by
  induction n with
  | zero => rfl
  | succ n ih =>
    rw [show 2 * (n + 1) = 2 * n + 1 + 1 from by omega, List.range_succ, List.range_succ,
      List.range_succ]
    simp only [List.map_append, payloadEvents_append, List.map_cons, List.map_nil,
      payloadEvents_singleton]
    rw [ih fun k hk => h k (by omega), (h n (by omega)).1, (h n (by omega)).2]
    simp [halfEvents]

theorem map_range_const (n : Nat) (c : Half) :
    (List.range n).map (fun _ => c) = List.replicate n c := by
  simp

/-- Replaying one payload is the payload of the repeated pixels. -/
theorem replicate_payload (w h : Nat) (c : Half) :
    (List.replicate h (payloadEvents (List.replicate w c))).flatten
      = payloadEvents (List.replicate (w * h) c) := by
  induction h with
  | zero => simp
  | succ h ih =>
    rw [List.replicate_succ, List.flatten_cons, ih, ← payloadEvents_append, ← List.replicate_add]
    congr 2
    rw [Nat.mul_succ]
    omega

/-- The events of a block transfer of a staged run. -/
theorem staged_blockEvents (s : State) (c : Half) (n reps : Nat) :
    blockEvents { s with rowBuf := stagePixels c n s.rowBuf } (.rowBuf 0) (2 * n) reps
      = payloadEvents (List.replicate (n * reps) c) := by
  unfold blockEvents passBytes
  rw [pass_payload _ (fun _ => c) n, map_range_const, replicate_payload]
  intro k hk
  simp only [sourceByte, Nat.zero_add, stagePixels_read]
  rw [if_pos (by omega), if_pos (by omega), if_pos (by omega), if_neg (by omega)]
  exact ⟨rfl, rfl⟩

theorem hi8_append (a b : Byte) : hi8 (a ++ b) = a := by
  unfold hi8
  ext i hi
  simp only [BitVec.getElem_extractLsb', BitVec.getLsbD_append]
  simp [hi]

theorem lo8_append (a b : Byte) : lo8 (a ++ b) = b := by
  unfold lo8
  ext i hi
  simp only [BitVec.getElem_extractLsb', BitVec.getLsbD_append]
  simp [hi]

/-- The events of a bitmap's block transfer (R204, 20_memory.md R65). -/
theorem bitmap_blockEvents (s : State) (addr : Addr) (n : Nat) :
    blockEvents s (.host addr) (2 * n) 1
      = payloadEvents ((List.range n).map (bitmapPixel s.host addr)) := by
  unfold blockEvents passBytes
  rw [pass_payload _ (bitmapPixel s.host addr) n]
  · simp
  · intro k _
    simp only [sourceByte, bitmapPixel, hi8_append, lo8_append, and_self]

/-! ### Transactions -/

theorem blockTransaction_follows {len reps : Nat}
    (h : ¬ (len = 0 ∨ len > blockLenMax ∨ reps = 0 ∨ reps > repeatMax)) (x0 y0 x1 y1 : Half)
    (src : BlockSrc) (s : State) :
    Follows (Plan.emits (csEvents s.cfg .assert ++ windowEvents s.cfg x0 y0 x1 y1
      ++ blockEvents s src len reps ++ csEvents s.cfg .release)) s
      (blockTransaction x0 y0 x1 y1 src len reps s) := by
  have hp : Plan.emits (csEvents s.cfg .assert ++ windowEvents s.cfg x0 y0 x1 y1
      ++ blockEvents s src len reps ++ csEvents s.cfg .release)
      = ((Plan.emits (csEvents s.cfg .assert)).andThen (Plan.emits (windowEvents s.cfg x0 y0 x1 y1))).andThen
        ((Plan.emits (blockEvents s src len reps)).andThen (Plan.emits (csEvents s.cfg .release))) := by
    simp [Plan.emits_andThen_emits]
  rw [hp]
  refine Follows.andThen (Follows.after (select_took s) (select_env s) ?_) fun t hd _ => ?_
  · have := setWindow_follows x0 y0 x1 y1 (select s)
    rwa [(select_wire s).cfg] at this
  · have hw := setWindow_wire x0 y0 x1 y1 (select s)
    rw [hd] at hw
    have hw : Wire s t := (select_wire s).trans hw
    have hb : blockEvents t src len reps = blockEvents s src len reps := by
      unfold blockEvents
      rw [passBytes_wire hw]
    rw [← hb]
    refine Follows.andThen (sendBlock_follows h src t) fun u hd2 hu => ?_
    rw [← hw.cfg, ← hu.cfg]
    exact deselect_follows u

theorem pixel_follows (x y c : Half) (s : State) :
    Follows (Plan.transaction s.cfg (pixelTransaction s.cfg x y c)) s (pixel x y c s) := by
  have hp : Plan.transaction s.cfg (pixelTransaction s.cfg x y c)
      = ((Plan.emits (csEvents s.cfg .assert)).andThen (Plan.emits (windowEvents s.cfg (offX s.cfg x)
          (offY s.cfg y) (offX s.cfg x) (offY s.cfg y)))).andThen
        ((Plan.emits (halfEvents c)).andThen (Plan.emits (csEvents s.cfg .release))) := by
    simp [Plan.emits_andThen_emits, Plan.transaction, Transaction.events, pixelTransaction]
  rw [hp]
  refine Follows.andThen (Follows.after (select_took s) (select_env s) ?_) fun t hd ht => ?_
  · have := setWindow_follows (offX s.cfg x) (offY s.cfg y) (offX s.cfg x) (offY s.cfg y) (select s)
    rwa [(select_wire s).cfg] at this
  · have hw := setWindow_wire (offX s.cfg x) (offY s.cfg y) (offX s.cfg x) (offY s.cfg y) (select s)
    rw [hd] at hw
    have hw : Wire s t := (select_wire s).trans hw
    refine Follows.andThen (sendData16_follows c t) fun u _ hu => ?_
    rw [← hw.cfg, ← hu.cfg]
    exact deselect_follows u

/-! ### Frames: a raster routine writes only ROWBUF besides the Transport's state -/

/-- `t` differs from `s` only in ROWBUF and in what the Transport touches, and ROWBUF stays a canonical
memory inside its space. -/
structure RowOnly (s t : State) : Prop where
  wire : Wire { s with rowBuf := t.rowBuf } t
  wf : Memory.wf s.rowBuf = true → Memory.wf t.rowBuf = true
  below : Cells.below s.cfg.rowBufCap s.rowBuf = true → Cells.below s.cfg.rowBufCap t.rowBuf = true

theorem RowOnly.refl (s : State) : RowOnly s s := ⟨Wire.refl s, id, id⟩

theorem RowOnly.trans {s t u : State} (h : RowOnly s t) (k : RowOnly t u) : RowOnly s u := by
  have hc : t.cfg = s.cfg := h.wire.cfg
  refine ⟨?_, fun w => k.wf (h.wf w), fun w => ?_⟩
  · have h1 := h.wire
    have h2 := k.wire
    constructor
    · exact h2.cfg.trans h1.cfg
    · exact h2.curX.trans h1.curX
    · exact h2.curY.trans h1.curY
    · exact h2.color.trans h1.color
    · exact h2.bgColor.trans h1.bgColor
    · exact h2.latches.trans h1.latches
    · exact h2.inited.trans h1.inited
    · exact h2.rstLine.trans h1.rstLine
    · rfl
    · exact h2.glyphBuf.trans h1.glyphBuf
    · exact h2.numBuf.trans h1.numBuf
    · exact h2.host.trans h1.host
    · exact h2.inputs.trans h1.inputs
    · exact h2.port.trans h1.port
    · exact h2.freeCount.trans h1.freeCount
    · exact h2.fault.trans h1.fault
    · exact h2.refused.trans h1.refused
  · have := k.below
    rw [hc] at this
    exact this (h.below w)

theorem RowOnly.of_wire {s t : State} (h : Wire s t) : RowOnly s t := by
  refine ⟨?_, fun w => ?_, fun w => ?_⟩
  · have : { s with rowBuf := t.rowBuf } = s := by rw [h.rowBuf]
    rw [this]
    exact h
  · rw [h.rowBuf]
    exact w
  · rw [h.rowBuf]
    exact w

/-- Staging is a fault or writes the run. -/
theorem stageRun_cases (c : Half) (n : Nat) (s : State) :
    (n > s.cfg.width ∧ stageRun c n s = .raised .rowBufOverflow s) ∨
    (n ≤ s.cfg.width ∧ stageRun c n s = .done { s with rowBuf := stagePixels c n s.rowBuf }) := by
  unfold stageRun Config.rowBufCap
  by_cases h : 2 * n > 2 * s.cfg.width
  · exact .inl ⟨by omega, if_pos h⟩
  · exact .inr ⟨by omega, if_neg h⟩

theorem stage_rowOnly (c : Half) {n : Nat} {s : State} (h : n ≤ s.cfg.width) :
    RowOnly s { s with rowBuf := stagePixels c n s.rowBuf } :=
  ⟨Wire.refl _, stagePixels_wf c n, stagePixels_below c (by unfold Config.rowBufCap; omega)⟩

/-- A staged run and its transaction: the shape of a fill and of both fast lines. -/
theorem staged_rowOnly (c : Half) (n : Nat) (x0 y0 x1 y1 : Half) (reps : Nat) (s : State) :
    ((stageRun c n s).andThen fun s =>
      blockTransaction x0 y0 x1 y1 (.rowBuf 0) (2 * n) reps s).Leaves (RowOnly s) := by
  rcases stageRun_cases c n s with ⟨_, h⟩ | ⟨hn, h⟩
  · rw [h]
    exact RowOnly.refl s
  · rw [h]
    exact (blockTransaction_wire _ _ _ _ _ _ _ _).mono fun t ht =>
      (stage_rowOnly c hn).trans (RowOnly.of_wire ht)

theorem fillRect_rowOnly (x y w h c : Half) (s : State) :
    (fillRect x y w h c s).Leaves (RowOnly s) := by
  unfold fillRect
  split
  · exact RowOnly.refl s
  · simp only
    split
    · exact RowOnly.refl s
    · exact staged_rowOnly c w.toNat _ _ _ _ _ s

theorem fastHLine_rowOnly (x y : Half) (len : Nat) (c : Half) (s : State) :
    (fastHLine x y len c s).Leaves (RowOnly s) := by
  unfold fastHLine
  split
  · exact RowOnly.refl s
  · simp only
    split
    · exact RowOnly.refl s
    · exact staged_rowOnly c len _ _ _ _ _ s

theorem fastVLine_rowOnly (x y : Half) (len : Nat) (c : Half) (s : State) :
    (fastVLine x y len c s).Leaves (RowOnly s) := by
  unfold fastVLine
  split
  · exact RowOnly.refl s
  · simp only
    split
    · exact RowOnly.refl s
    · exact staged_rowOnly c len _ _ _ _ _ s

theorem drawRect_rowOnly (x y w h c : Half) (s : State) :
    (drawRect x y w h c s).Leaves (RowOnly s) := by
  unfold drawRect
  split
  · exact RowOnly.refl s
  · exact Run.Leaves.andThen (rel := RowOnly) RowOnly.trans (fastHLine_rowOnly _ _ _ _ s) fun t _ =>
      Run.Leaves.andThen (rel := RowOnly) RowOnly.trans (fastHLine_rowOnly _ _ _ _ t) fun u _ =>
        Run.Leaves.andThen (rel := RowOnly) RowOnly.trans (fastVLine_rowOnly _ _ _ _ u) fun v _ =>
          fastVLine_rowOnly _ _ _ _ v

theorem drawBitmap_wire (x y w h : Half) (p : Addr) (s : State) :
    (drawBitmap x y w h p s).Leaves (Wire s) := by
  unfold drawBitmap
  split
  · exact Wire.refl s
  · simp only
    split
    · exact Wire.refl s
    · split
      · exact Wire.refl s
      · exact blockTransaction_wire _ _ _ _ _ _ _ s

theorem bresenhamLoop_wire (steep : Bool) (dx dy ys : Int) (c : Half) (n : Nat) (xx yy err : Int)
    (s : State) : (bresenhamLoop steep dx dy ys c n xx yy err s).Leaves (Wire s) := by
  induction n generalizing xx yy err s with
  | zero => exact Wire.refl s
  | succ n ih =>
    unfold bresenhamLoop
    refine Run.Leaves.andThen (rel := Wire) Wire.trans ?_ fun t _ => ?_
    · split <;> exact pixel_wire _ _ _ s
    · split <;> exact ih _ _ _ t

theorem bresenham_wire (x0 y0 x1 y1 : Int) (c : Half) (s : State) :
    (bresenham x0 y0 x1 y1 c s).Leaves (Wire s) := by
  unfold bresenham bresenhamOrdered bresenhamFrom
  split <;> split <;> exact bresenhamLoop_wire _ _ _ _ _ _ _ _ _ s

theorem drawLine_rowOnly (x0 y0 x1 y1 c : Half) (s : State) :
    (drawLine x0 y0 x1 y1 c s).Leaves (RowOnly s) := by
  unfold drawLine
  split
  · exact fastVLine_rowOnly _ _ _ _ s
  · split
    · exact fastHLine_rowOnly _ _ _ _ s
    · exact (bresenham_wire _ _ _ _ _ s).mono fun _ => RowOnly.of_wire

/-! ### The plans -/

/-- A staged run and its transaction follow the window check's plan after it. -/
theorem staged_follows (c : Half) {n reps : Nat} (hn0 : n ≠ 0) (hr0 : reps ≠ 0) (hr : reps ≤ repeatMax)
    (x0 y0 x1 y1 : Half) (s : State) (hw : s.cfg.width ≤ 32767) :
    Follows (if n > s.cfg.width then Plan.fails .rowBufOverflow
      else Plan.transaction s.cfg { x0 := x0, y0 := y0, x1 := x1, y1 := y1, pixels := List.replicate (n * reps) c }) s
      ((stageRun c n s).andThen fun s => blockTransaction x0 y0 x1 y1 (.rowBuf 0) (2 * n) reps s) := by
  rcases stageRun_cases c n s with ⟨hn, h⟩ | ⟨hn, h⟩
  · rw [h, if_pos hn]
    exact ⟨rfl, Took.refl s⟩
  · rw [h, if_neg (by omega)]
    have hc : ¬ (2 * n = 0 ∨ 2 * n > blockLenMax ∨ reps = 0 ∨ reps > repeatMax) := by
      unfold blockLenMax
      omega
    have hf := blockTransaction_follows hc x0 y0 x1 y1 (.rowBuf 0)
      { s with rowBuf := stagePixels c n s.rowBuf }
    rw [staged_blockEvents] at hf
    have ht : Took [] s { s with rowBuf := stagePixels c n s.rowBuf } :=
      ⟨rfl, by simp, by simp, rfl⟩
    have := Follows.after ht rfl hf
    rw [Plan.emits_andThen_emits, List.nil_append] at this
    exact this

theorem fillRect_follows (x y w h c : Half) (s : State) (hw : s.cfg.width ≤ 32767) :
    Follows (fillPlan s.cfg x y w h c) s (fillRect x y w h c s) := by
  unfold fillPlan fillRect
  split
  · exact ⟨rfl, Took.refl s, fun _ => rfl⟩
  · rename_i h0
    simp only
    split
    · exact ⟨rfl, Took.refl s⟩
    · have hw0 : w.toNat ≠ 0 := fun e => h0 (.inl (BitVec.eq_of_toNat_eq (by simpa using e)))
      have hh0 : h.toNat ≠ 0 := fun e => h0 (.inr (BitVec.eq_of_toNat_eq (by simpa using e)))
      exact staged_follows c hw0 hh0 (by have := h.isLt; unfold repeatMax; omega) _ _ _ _ s hw

theorem fastHLine_follows (x y : Half) (len : Nat) (c : Half) (s : State) (hw : s.cfg.width ≤ 32767) :
    Follows (hLinePlan s.cfg x y len c) s (fastHLine x y len c s) := by
  unfold hLinePlan fastHLine
  split
  · exact ⟨rfl, Took.refl s, fun _ => rfl⟩
  · rename_i h0
    simp only
    split
    · exact ⟨rfl, Took.refl s⟩
    · have := staged_follows c h0 (reps := 1) (by omega) (by unfold repeatMax; omega)
        (offX s.cfg x) (offY s.cfg y) (u16 (farCorner (offX s.cfg x) len)) (offY s.cfg y) s hw
      rw [Nat.mul_one] at this
      exact this

theorem fastVLine_follows (x y : Half) (len : Nat) (c : Half) (s : State) (hw : s.cfg.width ≤ 32767) :
    Follows (vLinePlan s.cfg x y len c) s (fastVLine x y len c s) := by
  unfold vLinePlan fastVLine
  split
  · exact ⟨rfl, Took.refl s, fun _ => rfl⟩
  · rename_i h0
    simp only
    split
    · exact ⟨rfl, Took.refl s⟩
    · have := staged_follows c h0 (reps := 1) (by omega) (by unfold repeatMax; omega)
        (offX s.cfg x) (offY s.cfg y) (offX s.cfg x) (u16 (farCorner (offY s.cfg y) len)) s hw
      rw [Nat.mul_one] at this
      exact this

theorem u16_corner (a b : Half) (hb : b ≠ 0) : u16 (a.toNat + b.toNat - 1) = a + b - 1 := by
  unfold u16
  have : b.toNat ≠ 0 := fun e => hb (BitVec.eq_of_toNat_eq (by simpa using e))
  apply BitVec.eq_of_toNat_eq
  have ha := a.isLt
  have hb' := b.isLt
  simp only [BitVec.toNat_ofNat, BitVec.toNat_sub, BitVec.toNat_add, show (1 : Half).toNat = 1 from rfl]
  omega

theorem drawRect_follows (x y w h c : Half) (s : State) (hw : s.cfg.width ≤ 32767) :
    Follows (rectPlan s.cfg x y w h c) s (drawRect x y w h c s) := by
  unfold rectPlan drawRect
  split
  · exact ⟨rfl, Took.refl s, fun _ => rfl⟩
  · rename_i h0
    have hw0 : w ≠ 0 := fun e => h0 (.inl e)
    have hh0 : h ≠ 0 := fun e => h0 (.inr e)
    rw [u16_corner y h hh0, u16_corner x w hw0]
    rw [← Run.andThen_assoc, ← Run.andThen_assoc]
    refine Follows.andThen (Follows.andThen (Follows.andThen (fastHLine_follows _ _ _ _ s hw)
      fun t _ ht => ?_) fun t _ ht => ?_) fun t _ ht => ?_
    · rw [← ht.cfg]
      exact fastHLine_follows _ _ _ _ t (by rw [ht.cfg]; exact hw)
    · rw [← ht.cfg]
      exact fastVLine_follows _ _ _ _ t (by rw [ht.cfg]; exact hw)
    · rw [← ht.cfg]
      exact fastVLine_follows _ _ _ _ t (by rw [ht.cfg]; exact hw)

theorem drawBitmap_follows (x y w h : Half) (p : Addr) (s : State) :
    Follows (bitmapPlan s.cfg s.host x y w h p) s (drawBitmap x y w h p s) := by
  unfold bitmapPlan drawBitmap
  split
  · exact ⟨rfl, Took.refl s, fun _ => rfl⟩
  · rename_i h0
    simp only
    split
    · exact ⟨rfl, Took.refl s⟩
    · split
      · exact ⟨rfl, Took.refl s⟩
      · rename_i hlen
        have hw0 : w.toNat ≠ 0 := fun e => h0 (.inl (BitVec.eq_of_toNat_eq (by simpa using e)))
        have hh0 : h.toNat ≠ 0 := fun e => h0 (.inr (BitVec.eq_of_toNat_eq (by simpa using e)))
        have hm : w.toNat * h.toNat ≠ 0 := Nat.mul_ne_zero hw0 hh0
        have hc : ¬ (2 * w.toNat * h.toNat = 0 ∨ 2 * w.toNat * h.toNat > blockLenMax ∨ 1 = 0
            ∨ 1 > repeatMax) := by
          rw [Nat.mul_assoc] at hlen ⊢
          unfold repeatMax
          omega
        have hf := blockTransaction_follows hc (offX s.cfg x) (offY s.cfg y)
          (u16 (farCorner (offX s.cfg x) w.toNat)) (u16 (farCorner (offY s.cfg y) h.toNat))
          (.host p) s
        rw [show blockEvents s (.host p) (2 * w.toNat * h.toNat) 1 = payloadEvents
          ((List.range (w.toNat * h.toNat)).map (bitmapPixel s.host p)) from by
            rw [Nat.mul_assoc]; exact bitmap_blockEvents s p _] at hf
        exact hf

/-- What a done staged run and its transaction leave. -/
theorem staged_done {c x0 y0 x1 y1 : Half} {n reps : Nat} {s t : State}
    (h : ((stageRun c n s).andThen fun s =>
      blockTransaction x0 y0 x1 y1 (.rowBuf 0) (2 * n) reps s) = .done t) :
    Transacted (.rowBuf 0) (2 * n) s t ∧ t.rowBuf = stagePixels c n s.rowBuf := by
  obtain ⟨u, h1, h2⟩ := Run.andThen_eq_done h
  rcases stageRun_cases c n s with ⟨_, h3⟩ | ⟨_, h3⟩
  · rw [h3] at h1
    cases h1
  · rw [h3] at h1
    cases h1
    have a := blockTransaction_done h2
    have b : Wire _ t := (blockTransaction_wire _ _ _ _ _ _ _ _).of_done h2
    exact ⟨⟨a.dcLine, a.csLine, a.rstLine, a.txe, a.tc, a.blkEn, a.blkSrc, a.blkLen⟩, b.rowBuf⟩

/-! ### Bresenham's points in closed form -/

/-- The number of steps is the one that keeps the error term in `0 .. dx - 1`. -/
theorem lineSteps_unique {dx dy i k : Nat} (h0 : (0 : Int) ≤ ((dx / 2 : Nat) : Int) - i * dy + k * dx)
    (h1 : ((dx / 2 : Nat) : Int) - i * dy + k * dx < dx) : lineSteps dx dy i = k := by
  unfold lineSteps
  have hq : k * dx ≤ i * dy + (dx - 1 - dx / 2) ∧ i * dy + (dx - 1 - dx / 2) < k * dx + dx := by
    have e1 : ((i * dy : Nat) : Int) = (i : Int) * dy := by push_cast; rfl
    have e2 : ((k * dx : Nat) : Int) = (k : Int) * dx := by push_cast; rfl
    rw [← e1, ← e2] at h0 h1
    omega
  have hpos : 0 < dx := by
    rcases Nat.eq_zero_or_pos dx with h | h
    · subst h
      simp at hq
    · exact h
  rw [Nat.div_eq_iff hpos]
  constructor
  · exact hq.1
  · omega

theorem lineSteps_zero {dx : Nat} (dy : Nat) (h : 0 < dx) : lineSteps dx dy 0 = 0 :=
  lineSteps_unique (by simp; omega) (by simp; omega)

/-- The error term after `i` points. -/
def lineError (dx dy i : Nat) : Int := ((dx / 2 : Nat) : Int) - i * dy + lineSteps dx dy i * dx

theorem lineError_bounds {dx : Nat} (dy i : Nat) (h : 0 < dx) :
    0 ≤ lineError dx dy i ∧ lineError dx dy i < dx := by
  unfold lineError lineSteps
  have h1 := Nat.div_add_mod (i * dy + (dx - 1 - dx / 2)) dx
  have h2 := Nat.mod_lt (i * dy + (dx - 1 - dx / 2)) h
  set q := (i * dy + (dx - 1 - dx / 2)) / dx with hq
  have e1 : ((i * dy : Nat) : Int) = (i : Int) * dy := by push_cast; rfl
  have e2 : ((dx * q : Nat) : Int) = (q : Int) * dx := by push_cast; ring
  rw [← e1, ← e2]
  omega

/-- One pass of the loop: the error goes negative exactly when the next point steps (R210). -/
theorem lineSteps_succ {dx dy : Nat} (i : Nat) (h : 0 < dx) (hd : dy ≤ dx) :
    (lineError dx dy i - dy < 0 → lineSteps dx dy (i + 1) = lineSteps dx dy i + 1) ∧
    (¬ lineError dx dy i - dy < 0 → lineSteps dx dy (i + 1) = lineSteps dx dy i) := by
  have hb := lineError_bounds dy i h
  unfold lineError at *
  have e : ((i + 1 : Nat) : Int) * dy = (i : Int) * dy + dy := by push_cast; ring
  have e2 : ((lineSteps dx dy i + 1 : Nat) : Int) * dx = (lineSteps dx dy i : Int) * dx + dx := by
    push_cast; ring
  constructor
  · intro hn
    apply lineSteps_unique
    · rw [e, e2]; omega
    · rw [e, e2]; omega
  · intro hn
    apply lineSteps_unique
    · rw [e]; omega
    · rw [e]; omega

theorem lineError_succ {dx dy : Nat} (i : Nat) (h : 0 < dx) (hd : dy ≤ dx) :
    lineError dx dy (i + 1)
      = if lineError dx dy i - dy < 0 then lineError dx dy i - dy + dx else lineError dx dy i - dy := by
  obtain ⟨h1, h2⟩ := lineSteps_succ i h hd
  have e : ((i + 1 : Nat) : Int) * dy = (i : Int) * dy + dy := by push_cast; ring
  split
  · rename_i hn
    have := h1 hn
    unfold lineError at *
    rw [this, e]
    push_cast
    ring
  · rename_i hn
    have := h2 hn
    unfold lineError at *
    rw [this, e]
    ring

/-- A line of `dx` long-axis steps makes at most `dy` short-axis steps. -/
theorem lineSteps_le {dx dy i : Nat} (h : 0 < dx) (hi : i ≤ dx) : lineSteps dx dy i ≤ dy := by
  unfold lineSteps
  have : i * dy + (dx - 1 - dx / 2) < (dy + 1) * dx := by
    have h1 : i * dy ≤ dx * dy := Nat.mul_le_mul_right dy hi
    have h2 : (dy + 1) * dx = dx * dy + dx := by ring
    omega
  exact Nat.le_of_lt_succ ((Nat.div_lt_iff_lt_mul h).mpr this)

/-- The pixel a line draws at a point, with the axes put back (R210). -/
def linePixel (steep : Bool) (p : Half × Half) : Half × Half := if steep then (p.2, p.1) else p

theorem u16Int_nat (n : Nat) : u16Int (n : Int) = u16 n := by
  unfold u16Int u16
  exact BitVec.ofInt_natCast 16 n

/-- The short-axis coordinate of the loop at point `i`. -/
def lineShort (b0 : Nat) (up : Bool) (k : Nat) : Int := if up then b0 + k else b0 - k

theorem linePoint_eq {b0 b1 : Half} {dx dy i : Nat} (a0 : Half) (h : 0 < dx) (hi : i ≤ dx)
    (hdy : dy = span b0 b1) :
    linePoint a0 b0 b1 dx dy i = (u16Int ((a0.toNat : Int) + i),
      u16Int (lineShort b0.toNat (decide (b0 ≤ b1)) (lineSteps dx dy i))) := by
  have hk := lineSteps_le (dy := dy) h hi
  unfold linePoint lineShort
  have e1 : ((a0.toNat : Int) + i) = ((a0.toNat + i : Nat) : Int) := by push_cast; rfl
  rw [e1, u16Int_nat]
  by_cases hb : b0 ≤ b1
  · have e2 : ((b0.toNat : Int) + lineSteps dx dy i) = ((b0.toNat + lineSteps dx dy i : Nat) : Int) := by
      push_cast; rfl
    simp only [hb, if_true, decide_true]
    rw [e2, u16Int_nat]
  · have hlt : b1.toNat < b0.toNat := by
      simp only [BitVec.le_def] at hb
      omega
    have hle : lineSteps dx dy i ≤ b0.toNat := by
      have hk := hk.trans_eq hdy
      unfold span at hk
      have h1 : max b0.toNat b1.toNat = b0.toNat := by omega
      have h2 : min b0.toNat b1.toNat = b1.toNat := by omega
      rw [h1, h2] at hk
      exact hk.trans (Nat.sub_le _ _)
    have e2 : ((b0.toNat : Int) - lineSteps dx dy i) = ((b0.toNat - lineSteps dx dy i : Nat) : Int) := by
      rw [Int.ofNat_sub hle]
    simp only [hb, if_false, decide_false, Bool.false_eq_true]
    rw [e2, u16Int_nat]

theorem pixel_if (steep : Bool) (a b c : Half) (s : State) :
    (if steep then pixel b a c s else pixel a b c s)
      = pixel (linePixel steep (a, b)).1 (linePixel steep (a, b)).2 c s := by
  unfold linePixel
  cases steep <;> rfl

/-- The loop of R210 draws the points of the closed form, from point `i` on. -/
theorem bresenhamLoop_follows (steep : Bool) {b0 b1 : Half} {dx dy : Nat} (a0 c : Half) (h : 0 < dx)
    (hd : dy ≤ dx) (hdy : dy = span b0 b1) (n i : Nat) (hn : i + n ≤ dx + 1) (s : State) :
    Follows (Plan.emits ((List.range' i n).flatMap fun j =>
        (pixelTransaction s.cfg (linePixel steep (linePoint a0 b0 b1 dx dy j)).1
          (linePixel steep (linePoint a0 b0 b1 dx dy j)).2 c).events s.cfg)) s
      (bresenhamLoop steep dx dy (if b0 ≤ b1 then 1 else -1) c n ((a0.toNat : Int) + i)
        (lineShort b0.toNat (decide (b0 ≤ b1)) (lineSteps dx dy i)) (lineError dx dy i) s) := by
  induction n generalizing i s with
  | zero => exact ⟨rfl, Took.refl s, fun _ => rfl⟩
  | succ n ih =>
    unfold bresenhamLoop
    rw [List.range'_succ, List.flatMap_cons, ← Plan.emits_andThen_emits]
    have hp := linePoint_eq (b0 := b0) (b1 := b1) (dx := dx) (dy := dy) (i := i) a0 h (by omega) hdy
    rw [pixel_if, ← hp]
    refine Follows.andThen (pixel_follows _ _ c s) fun t _ ht => ?_
    have hk := ih (i + 1) (by omega) t
    rw [ht.cfg] at hk
    obtain ⟨h1, h2⟩ := lineSteps_succ i h hd
    have he := lineError_succ i h hd
    have ex : ((a0.toNat : Int) + i) + 1 = (a0.toNat : Int) + ((i + 1 : Nat) : Int) := by push_cast; ring
    rw [ex]
    split
    · rename_i hneg
      rw [if_pos hneg] at he
      rw [he, h1 hneg] at hk
      have ey : lineShort b0.toNat (decide (b0 ≤ b1)) (lineSteps dx dy i) + (if b0 ≤ b1 then 1 else -1)
          = lineShort b0.toNat (decide (b0 ≤ b1)) (lineSteps dx dy i + 1) := by
        unfold lineShort
        by_cases hb : b0 ≤ b1 <;> simp [hb] <;> ring
      rw [ey]
      exact hk
    · rename_i hneg
      rw [if_neg hneg] at he
      rw [he, h2 hneg] at hk
      exact hk

theorem span_comm (a b : Half) : span a b = span b a := by
  unfold span
  rw [max_comm, min_comm]

theorem span_int (a b : Half) : |(a.toNat : Int) - b.toNat| = span a b := by
  unfold span
  rcases Nat.le_total a.toNat b.toNat with h | h
  · rw [abs_of_nonpos (by omega)]
    have h1 : max a.toNat b.toNat = b.toNat := by omega
    have h2 : min a.toNat b.toNat = a.toNat := by omega
    omega
  · rw [abs_of_nonneg (by omega)]
    have h1 : max a.toNat b.toNat = a.toNat := by omega
    have h2 : min a.toNat b.toNat = b.toNat := by omega
    omega

/-- The loop from the smaller long-axis end. -/
theorem bresenhamFrom_follows (steep : Bool) {a0 b0 a1 b1 : Half} (c : Half) (ha : a0 < a1)
    (hb : b0 ≠ b1) (hd : span b0 b1 ≤ span a0 a1) (s : State) :
    Follows (Plan.emits (((List.range (span a0 a1 + 1)).map (linePoint a0 b0 b1 (span a0 a1) (span b0 b1))).flatMap
        fun p => (pixelTransaction s.cfg (linePixel steep p).1 (linePixel steep p).2 c).events s.cfg)) s
      (bresenhamFrom steep a0.toNat b0.toNat a1.toNat b1.toNat c s) := by
  have hlt : a0.toNat < a1.toNat := ha
  have hspan : span a0 a1 = a1.toNat - a0.toNat := by
    unfold span
    have h1 : max a0.toNat a1.toNat = a1.toNat := by omega
    have h2 : min a0.toNat a1.toNat = a0.toNat := by omega
    omega
  have hpos : 0 < span a0 a1 := by omega
  have hne : b0.toNat ≠ b1.toNat := fun e => hb (BitVec.eq_of_toNat_eq e)
  have e1 : (a1.toNat : Int) - a0.toNat = (span a0 a1 : Nat) := by omega
  have e2 : |(b1.toNat : Int) - b0.toNat| = (span b0 b1 : Nat) := by rw [span_int, span_comm]
  have e3 : ((b0.toNat : Int) < b1.toNat) = (b0 ≤ b1) := by
    simp only [BitVec.le_def, eq_iff_iff]
    omega
  unfold bresenhamFrom
  simp only [e1, e2, Int.toNat_natCast, e3]
  have hf := bresenhamLoop_follows steep (b0 := b0) (b1 := b1) a0 c hpos hd rfl (span a0 a1 + 1) 0
    (by omega) s
  have z1 : lineSteps (span a0 a1) (span b0 b1) 0 = 0 := lineSteps_zero _ hpos
  have z2 : lineError (span a0 a1) (span b0 b1) 0 = ((span a0 a1 : Nat) : Int) / 2 := by
    unfold lineError
    rw [z1]
    push_cast
    ring
  have z3 : lineShort b0.toNat (decide (b0 ≤ b1)) 0 = b0.toNat := by
    unfold lineShort
    split <;> simp
  rw [z1, z2, z3, ← List.range_eq_range'] at hf
  rw [List.flatMap_map]
  simpa using hf

theorem bresenhamOrdered_follows (steep : Bool) {a0 b0 a1 b1 : Half} (c : Half) (ha : a0 ≠ a1)
    (hb : b0 ≠ b1) (hd : span b0 b1 ≤ span a0 a1) (s : State) :
    Follows (Plan.emits ((longPoints a0 b0 a1 b1).flatMap
        fun p => (pixelTransaction s.cfg (linePixel steep p).1 (linePixel steep p).2 c).events s.cfg)) s
      (bresenhamOrdered steep a0.toNat b0.toNat a1.toNat b1.toNat c s) := by
  unfold bresenhamOrdered longPoints
  have hne : a0.toNat ≠ a1.toNat := fun e => ha (BitVec.eq_of_toNat_eq e)
  by_cases h : a0 ≤ a1
  · rw [if_pos h, if_neg (by simp only [BitVec.le_def] at h; omega)]
    exact bresenhamFrom_follows steep c (by simp only [BitVec.le_def, BitVec.lt_def] at *; omega) hb hd s
  · rw [if_neg h, if_pos (by simp only [BitVec.le_def] at h; omega), span_comm a0 a1, span_comm b0 b1]
    refine bresenhamFrom_follows steep c (by simp only [BitVec.le_def, BitVec.lt_def] at *; omega) hb.symm ?_ s
    rw [span_comm b1 b0, span_comm a1 a0]
    exact hd

theorem drawLine_follows (x0 y0 x1 y1 c : Half) (s : State) (hw : s.cfg.width ≤ 32767) :
    Follows (linePlan s.cfg x0 y0 x1 y1 c) s (drawLine x0 y0 x1 y1 c s) := by
  unfold linePlan drawLine
  split
  · exact fastVLine_follows _ _ _ _ s hw
  · rename_i hx
    split
    · exact fastHLine_follows _ _ _ _ s hw
    · rename_i hy
      unfold bresenham linePoints
      have e1 : |(y1.toNat : Int) - y0.toNat| = (span y0 y1 : Nat) := by rw [span_int, span_comm]
      have e2 : |(x1.toNat : Int) - x0.toNat| = (span x0 x1 : Nat) := by rw [span_int, span_comm]
      rw [e1, e2]
      by_cases h : span y0 y1 > span x0 x1
      · rw [if_pos h, if_pos (by exact_mod_cast h), List.flatMap_map]
        have := bresenhamOrdered_follows true c hy hx (by omega) s
        simpa [linePixel] using this
      · rw [if_neg h, if_neg (by exact_mod_cast h)]
        have := bresenhamOrdered_follows false c hx hy (by omega) s
        simpa [linePixel] using this

end Sys2Proof.Machine
end

