-- ==== Sys2Proof/Laws/Text.lean ====
section
/-! SUPPORT. What the Text Engine can do (43_text_engine.md): the staged glyph, the formatted number,
the fields each routine leaves alone, and the plan each routine follows. -/

namespace Sys2Proof.Machine

/-! ### The staged glyph -/

/-- The bytes a staged glyph leaves (R224): the glyph's own, and every other as it was. -/
theorem stageGlyph_read (s : State) (ch : Byte) (n : Nat) (m : Memory) (a : Nat) :
    Memory.read (stageGlyph s ch n m) a =
      if a < 2 * n then
        (if a % 2 = 0 then hi8 (glyphPixel s ch (a / 2)) else lo8 (glyphPixel s ch (a / 2)))
      else Memory.read m a := by
  induction n with
  | zero => simp [stageGlyph]
  | succ n ih =>
    simp only [stageGlyph]
    by_cases h1 : a = 2 * n + 1
    · subst h1
      rw [Memory.read_write_same, if_pos (by omega), if_neg (by omega),
        show (2 * n + 1) / 2 = n from by omega]
    · rw [Memory.read_write_other h1]
      by_cases h2 : a = 2 * n
      · subst h2
        rw [Memory.read_write_same, if_pos (by omega), if_pos (by omega),
          show 2 * n / 2 = n from by omega]
      · rw [Memory.read_write_other h2, ih]
        by_cases h3 : a < 2 * n
        · simp only [h3, if_true, show a < 2 * (n + 1) from by omega]
        · simp only [h3, if_false, show ¬ a < 2 * (n + 1) from by omega]

theorem stageGlyph_wf (s : State) (ch : Byte) (n : Nat) {m : Memory} (h : Memory.wf m = true) :
    Memory.wf (stageGlyph s ch n m) = true := by
  induction n with
  | zero => exact h
  | succ n ih => exact Memory.wf_write (Memory.wf_write ih _ _) _ _

theorem stageGlyph_below (s : State) (ch : Byte) {n cap : Nat} (hn : 2 * n ≤ cap) {m : Memory}
    (h : Cells.below cap m = true) : Cells.below cap (stageGlyph s ch n m) = true := by
  induction n with
  | zero => exact h
  | succ n ih =>
    exact Memory.below_write (Memory.below_write (ih (by omega)) (by omega) _) (by omega) _

/-- The events of a glyph's block transfer. -/
theorem glyph_blockEvents (s : State) (ch : Byte) :
    blockEvents { s with glyphBuf := stageGlyph s ch (glyphW * glyphH) s.glyphBuf } (.glyphBuf 0)
        glyphBufCap 1
      = payloadEvents ((List.range (glyphW * glyphH)).map (glyphPixel s ch)) := by
  unfold blockEvents passBytes
  rw [show glyphBufCap = 2 * (glyphW * glyphH) from rfl, pass_payload _ (glyphPixel s ch) (glyphW * glyphH)]
  · simp
  · intro k hk
    simp only [sourceByte, Nat.zero_add, stageGlyph_read]
    rw [if_pos (by omega), if_pos (by omega), if_pos (by omega), if_neg (by omega),
      show 2 * k / 2 = k from by omega, show (2 * k + 1) / 2 = k from by omega]
    exact ⟨rfl, rfl⟩

/-! ### Frames -/

/-- `t` differs from `s` only in the cursor's column, in GLYPHBUF and in what the Transport touches, and
GLYPHBUF stays a canonical memory inside its space. -/
structure TextOnly (s t : State) : Prop where
  wire : Wire { s with curX := t.curX, glyphBuf := t.glyphBuf } t
  wf : Memory.wf s.glyphBuf = true → Memory.wf t.glyphBuf = true
  below : Cells.below glyphBufCap s.glyphBuf = true → Cells.below glyphBufCap t.glyphBuf = true

theorem TextOnly.refl (s : State) : TextOnly s s := ⟨Wire.refl s, id, id⟩

theorem TextOnly.trans {s t u : State} (h : TextOnly s t) (k : TextOnly t u) : TextOnly s u := by
  refine ⟨?_, fun w => k.wf (h.wf w), fun w => k.below (h.below w)⟩
  have h1 := h.wire
  have h2 := k.wire
  constructor
  · exact h2.cfg.trans h1.cfg
  · rfl
  · exact h2.curY.trans h1.curY
  · exact h2.color.trans h1.color
  · exact h2.bgColor.trans h1.bgColor
  · exact h2.latches.trans h1.latches
  · exact h2.inited.trans h1.inited
  · exact h2.rstLine.trans h1.rstLine
  · exact h2.rowBuf.trans h1.rowBuf
  · rfl
  · exact h2.numBuf.trans h1.numBuf
  · exact h2.host.trans h1.host
  · exact h2.inputs.trans h1.inputs
  · exact h2.port.trans h1.port
  · exact h2.freeCount.trans h1.freeCount
  · exact h2.fault.trans h1.fault
  · exact h2.refused.trans h1.refused

theorem TextOnly.of_wire {s t : State} (h : Wire s t) : TextOnly s t := by
  refine ⟨?_, fun w => ?_, fun w => ?_⟩
  · have : { s with curX := t.curX, glyphBuf := t.glyphBuf } = s := by rw [h.curX, h.glyphBuf]
    rw [this]
    exact h
  · rw [h.glyphBuf]
    exact w
  · rw [h.glyphBuf]
    exact w

theorem stage_textOnly (s : State) (ch : Byte) :
    TextOnly s { s with glyphBuf := stageGlyph s ch (glyphW * glyphH) s.glyphBuf } :=
  ⟨Wire.refl _, stageGlyph_wf s ch _, stageGlyph_below s ch (by decide)⟩

/-- A glyph leaves the cursor where it is (R227). -/
theorem glyph_textOnly (ch : Byte) (s : State) :
    (glyph ch s).Leaves fun t => TextOnly s t ∧ t.curX = s.curX := by
  unfold glyph
  split
  · exact ⟨TextOnly.refl s, rfl⟩
  · split
    · exact ⟨TextOnly.refl s, rfl⟩
    · exact (blockTransaction_wire _ _ _ _ _ _ _ _).mono fun t ht =>
        ⟨(stage_textOnly s ch).trans (TextOnly.of_wire ht), ht.curX⟩

theorem printOne_textOnly (ch : Byte) (s : State) : (printOne ch s).Leaves (TextOnly s) := by
  refine Run.Leaves.andThen (rel := TextOnly) TextOnly.trans
    ((glyph_textOnly ch s).mono fun _ h => h.1) fun t _ => ?_
  exact ⟨by constructor <;> rfl, id, id⟩

theorem printSeq_textOnly (ch : State → Nat → Byte) (n : Nat) (s : State) :
    (printSeq ch n s).Leaves (TextOnly s) := by
  induction n with
  | zero => exact TextOnly.refl s
  | succ n ih =>
    exact Run.Leaves.andThen (rel := TextOnly) TextOnly.trans ih fun t _ => printOne_textOnly _ t

/-! ### Plans -/

theorem glyph_follows (ch : Byte) (s : State) :
    Follows (glyphPlan s s.curX ch) s (glyph ch s) := by
  unfold glyphPlan glyph
  split
  · exact ⟨rfl, Took.refl s⟩
  · split
    · exact ⟨rfl, Took.refl s⟩
    · have hf := blockTransaction_follows (len := glyphBufCap) (reps := 1) (by decide) s.curX s.curY
        (u16 (farCorner s.curX glyphW)) (u16 (farCorner s.curY glyphH)) (.glyphBuf 0)
        { s with glyphBuf := stageGlyph s ch (glyphW * glyphH) s.glyphBuf }
      rw [glyph_blockEvents] at hf
      have ht : Took [] s { s with glyphBuf := stageGlyph s ch (glyphW * glyphH) s.glyphBuf } :=
        ⟨rfl, by simp, by simp, rfl⟩
      have := Follows.after ht rfl hf
      rw [Plan.emits_andThen_emits, List.nil_append] at this
      exact this

/-- What a glyph's plan depends on. -/
theorem glyphPlan_textOnly {s t : State} (h : TextOnly s t) (x : Half) (ch : Byte) :
    glyphPlan t x ch = glyphPlan s x ch := by
  have hc : t.cfg = s.cfg := h.wire.cfg
  have hy : t.curY = s.curY := h.wire.curY
  have h1 : t.color = s.color := h.wire.color
  have h2 : t.bgColor = s.bgColor := h.wire.bgColor
  unfold glyphPlan glyphTransaction
  have hp : glyphPixel t ch = glyphPixel s ch := by
    funext i
    unfold glyphPixel
    rw [hc, h1, h2]
  rw [hc, hy, hp]

theorem Plan.andThen_assoc (p q r : Plan) : (p.andThen q).andThen r = p.andThen (q.andThen r) := by
  obtain ⟨a, f⟩ := p
  obtain ⟨b, g⟩ := q
  obtain ⟨c, k⟩ := r
  cases f <;> cases g <;> simp [Plan.andThen]

theorem u16_add (a b : Nat) : u16 (a + b) = u16 a + u16 b := by
  unfold u16
  exact BitVec.ofNat_add a b

/-- One more printed character. -/
theorem textPlan_snoc (s : State) (x : Half) (l : List Byte) (ch : Byte) :
    textPlan s x (l ++ [ch])
      = (textPlan s x l).andThen (glyphPlan s (x + u16 (cellW * l.length)) ch) := by
  induction l generalizing x with
  | nil =>
    have : x + u16 (cellW * 0) = x := by
      simp [u16]
    simp only [List.nil_append, textPlan, List.length_nil, this, Plan.andThen_nothing,
      Plan.nothing_andThen]
  | cons c rest ih =>
    simp only [List.cons_append, textPlan]
    rw [ih, Plan.andThen_assoc, List.length_cons]
    congr 3
    rw [show cellW * (rest.length + 1) = cellW + cellW * rest.length from by ring, u16_add,
      BitVec.add_assoc]

theorem textPlan_append (s : State) (x : Half) (l k : List Byte) :
    textPlan s x (l ++ k)
      = (textPlan s x l).andThen (textPlan s (x + u16 (cellW * l.length)) k) := by
  induction k generalizing l with
  | nil => simp [textPlan]
  | cons ch rest ih =>
    rw [show l ++ ch :: rest = (l ++ [ch]) ++ rest from by simp, ih, textPlan_snoc, Plan.andThen_assoc]
    congr 2
    simp only [List.length_append, List.length_cons, List.length_nil]
    rw [show cellW * (l.length + (0 + 1)) = cellW * l.length + cellW from by ring, u16_add,
      BitVec.add_assoc]

theorem textPlan_textOnly {s t : State} (h : TextOnly s t) (x : Half) (l : List Byte) :
    textPlan t x l = textPlan s x l := by
  induction l generalizing x with
  | nil => rfl
  | cons ch rest ih => simp only [textPlan, ih, glyphPlan_textOnly h]

theorem printOne_follows (ch : Byte) (s : State) :
    Follows (glyphPlan s s.curX ch) s (printOne ch s) := by
  have := Follows.andThen (f := fun s => .done { s with curX := s.curX + u16 cellW }) (q := Plan.nothing)
    (glyph_follows ch s) (fun t _ _ => ⟨rfl, ⟨rfl, by simp [Plan.nothing], by simp [Plan.nothing], rfl⟩,
      fun _ => rfl⟩)
  rwa [Plan.andThen_nothing] at this

theorem printOne_done {ch : Byte} {s t : State} (h : printOne ch s = .done t) :
    t.curX = s.curX + u16 cellW := by
  obtain ⟨u, h1, h2⟩ := Run.andThen_eq_done h
  cases h2
  have := (glyph_textOnly ch s).of_done h1
  show u.curX + _ = _
  rw [this.2]

/-- The cursor after `n` characters (R226): six columns each. -/
theorem printSeq_done {ch : State → Nat → Byte} {n : Nat} {s t : State}
    (h : printSeq ch n s = .done t) : t.curX = s.curX + u16 (cellW * n) := by
  induction n generalizing t with
  | zero =>
    cases h
    simp [u16]
  | succ n ih =>
    obtain ⟨u, h1, h2⟩ := Run.andThen_eq_done h
    rw [printOne_done h2, ih h1, show cellW * (n + 1) = cellW * n + cellW from by ring, u16_add,
      BitVec.add_assoc]

/-- A character sequence follows its text's plan. -/
theorem printSeq_follows {ch : State → Nat → Byte} {c : Nat → Byte} (n : Nat) (s : State)
    (h : ∀ t i, TextOnly s t → i < n → ch t i = c i) :
    Follows (textPlan s s.curX ((List.range n).map c)) s (printSeq ch n s) := by
  induction n with
  | zero => exact ⟨rfl, Took.refl s, fun _ => rfl⟩
  | succ n ih =>
    rw [List.range_succ, List.map_append, List.map_singleton, textPlan_snoc]
    refine Follows.andThen (ih fun t i ht hi => h t i ht (by omega)) fun t hd _ => ?_
    have ht : TextOnly s t := (printSeq_textOnly ch n s).of_done hd
    rw [h t n ht (by omega), List.length_map, List.length_range, ← printSeq_done hd,
      ← glyphPlan_textOnly ht]
    exact printOne_follows _ t

theorem printString_follows (len : Half) (addr : Addr) (s : State) :
    Follows (textPlan s s.curX (stringChars s.host addr len.toNat)) s (printString len addr s) :=
  printSeq_follows len.toNat s fun t i ht _ => by rw [ht.wire.host]

/-- Printable characters are their transactions and no fault (R225). -/
theorem textPlan_printable (s : State) (chars : List Byte) (x : Half)
    (h : ∀ i ch, chars[i]? = some ch → ch.toNat < s.cfg.glyphCount ∧
      beyond (x + u16 (cellW * i)) glyphW = false ∧ beyond s.curY glyphH = false) :
    textPlan s x chars = Plan.emits
      ((chars.zipIdx.map fun p => glyphTransaction s (x + u16 (cellW * p.2)) p.1).flatMap
        fun t => t.events s.cfg) := by
  induction chars generalizing x with
  | nil => rfl
  | cons c r ih =>
    have h0 := h 0 c rfl
    have hx : x + u16 (cellW * 0) = x := by simp [u16]
    rw [hx] at h0
    have hg : glyphPlan s x c = Plan.transaction s.cfg (glyphTransaction s x c) := by
      unfold glyphPlan
      rw [if_neg (by omega), if_neg (by simp [h0.2])]
    simp only [textPlan]
    rw [hg, ih (x + u16 cellW) (fun i ch hi => by
      have := h (i + 1) ch (by simpa using hi)
      rw [show cellW * (i + 1) = cellW + cellW * i by ring, u16_add, ← BitVec.add_assoc] at this
      exact this)]
    unfold Plan.transaction
    rw [Plan.emits_andThen_emits]
    congr 1
    rw [List.zipIdx_cons, List.map_cons, List.flatMap_cons]
    simp only [hx]
    congr 2
    apply List.ext_getElem?
    intro i
    simp only [List.getElem?_map, List.getElem?_zipIdx]
    cases r[i]? with
    | none => rfl
    | some c =>
      simp only [Option.map_some, Nat.zero_add]
      rw [show cellW * (1 + i) = cellW + cellW * i by ring, u16_add, ← BitVec.add_assoc]

/-! ### What done glyphs leave -/

theorem glyph_done {ch : Byte} {s t : State} (h : glyph ch s = .done t) :
    Transacted (.glyphBuf 0) glyphBufCap s t ∧ ∀ a, t.glyphBuf.read a = glyphBufByte s ch a := by
  unfold glyph at h
  split at h
  · cases h
  · split at h
    · cases h
    · have a := blockTransaction_done h
      have b : Wire _ t := (blockTransaction_wire _ _ _ _ _ _ _ _).of_done h
      refine ⟨⟨a.dcLine, a.csLine, a.rstLine, a.txe, a.tc, a.blkEn, a.blkSrc, a.blkLen⟩, fun k => ?_⟩
      rw [b.glyphBuf]
      exact stageGlyph_read s ch _ s.glyphBuf k

/-- What stays through printed characters: GLYPHBUF beyond its space, the reset line, and chip-select
where there is no such line. -/
theorem printSeq_kept {ch : State → Nat → Byte} {n : Nat} {s t : State}
    (h : printSeq ch n s = .done t) :
    (∀ a, glyphBufCap ≤ a → t.glyphBuf.read a = s.glyphBuf.read a) ∧ t.rstLine = s.rstLine ∧
      released t = released s := by
  induction n generalizing t with
  | zero =>
    cases h
    exact ⟨fun _ _ => rfl, rfl, rfl⟩
  | succ n ih =>
    obtain ⟨u, h1, h2⟩ := Run.andThen_eq_done h
    obtain ⟨v, h3, h4⟩ := Run.andThen_eq_done h2
    cases h4
    obtain ⟨i1, i2, i3⟩ := ih h1
    obtain ⟨g1, g2⟩ := glyph_done h3
    refine ⟨fun a ha => ?_, g1.rstLine.trans i2, ?_⟩
    · show v.glyphBuf.read a = _
      rw [g2 a, ← i1 a ha]
      unfold glyphBufByte
      rw [if_neg (by omega)]
    · rw [← i3]
      have hc : v.cfg = u.cfg := ((glyph_textOnly (ch u n) u).of_done h3).1.wire.cfg
      have hcs := g1.csLine
      unfold released at hcs ⊢
      rw [show ({ v with curX := v.curX + u16 cellW } : State).cfg = v.cfg from rfl, hc]
      split
      · rfl
      · rename_i hu
        rw [if_neg hu] at hcs
        exact hcs

/-- The bytes a glyph stages depend on nothing that printing changes. -/
theorem glyphBufByte_textOnly {s t : State} (h : TextOnly s t)
    (hb : ∀ a, glyphBufCap ≤ a → t.glyphBuf.read a = s.glyphBuf.read a) (ch : Byte) (a : Nat) :
    glyphBufByte t ch a = glyphBufByte s ch a := by
  have hp : glyphPixel t ch = glyphPixel s ch := by
    funext i
    unfold glyphPixel
    rw [h.wire.cfg, h.wire.color, h.wire.bgColor]
  unfold glyphBufByte
  rw [hp]
  split
  · rfl
  · exact hb a (by omega)

/-- The lines, flags and GLYPHBUF after one or more printed characters, the last of them `c`. -/
theorem printSeq_last {ch : State → Nat → Byte} {n : Nat} {s t : State} {c : Byte}
    (h : printSeq ch (n + 1) s = .done t) (hc : ∀ u, TextOnly s u → ch u n = c) :
    Transacted (.glyphBuf 0) glyphBufCap s t ∧ ∀ a, t.glyphBuf.read a = glyphBufByte s c a := by
  obtain ⟨u, h1, h2⟩ := Run.andThen_eq_done h
  obtain ⟨v, h3, h4⟩ := Run.andThen_eq_done h2
  cases h4
  have hu : TextOnly s u := (printSeq_textOnly ch n s).of_done h1
  rw [hc u hu] at h3
  obtain ⟨a, b⟩ := glyph_done h3
  obtain ⟨k1, k2, k3⟩ := printSeq_kept h1
  refine ⟨⟨a.dcLine, a.csLine.trans k3, a.rstLine.trans k2, a.txe, a.tc, a.blkEn, a.blkSrc, a.blkLen⟩,
    fun k => ?_⟩
  show v.glyphBuf.read k = _
  rw [b k]
  exact glyphBufByte_textOnly hu k1 c k

/-! ### The formatted number -/

/-- The digits of a number on the wire's side of `Nat.toDigits`. -/
def digitByte (d : Char) : Byte := BitVec.ofNat 8 d.toNat

/-- The text a memory holds from a position up to index 10 (R230). -/
def textAt (m : Memory) (pos : Nat) : List Byte :=
  (List.range (11 - pos)).map fun i => m.read (pos + i)

theorem textAt_write_below {m : Memory} {a pos : Nat} (h : a < pos) (v : Byte) :
    textAt (m.write a v) pos = textAt m pos := by
  unfold textAt
  congr 1
  funext i
  exact Memory.read_write_other (by omega) m v

theorem textAt_write_pred {m : Memory} {pos : Nat} (h : 0 < pos) (h11 : pos ≤ 11) (v : Byte) :
    textAt (m.write (pos - 1) v) (pos - 1) = v :: textAt m pos := by
  have e : 11 - (pos - 1) = (11 - pos) + 1 := by omega
  unfold textAt
  rw [e, List.range_succ_eq_map, List.map_cons, List.map_map]
  congr 1
  · exact Memory.read_write_same m _ v
  · congr 1
    funext i
    show Memory.read _ (pos - 1 + (i + 1)) = _
    rw [show pos - 1 + (i + 1) = pos + i from by omega]
    exact Memory.read_write_other (by omega) m v

theorem digit_byte (d : Nat) (h : d < 10) : BitVec.ofNat 8 (0x30 + d) = digitByte (Nat.digitChar d) := by
  interval_cases d <;> rfl

/-- The digit loop of R230 writes the digits of a positive number directly below a position. -/
theorem formatDigits_spec (fuel m pos : Nat) (b : Memory) (h0 : 0 < m) (hm : m < 10 ^ fuel)
    (hp : fuel ≤ pos) (h11 : pos ≤ 11) :
    (formatDigits fuel m pos b).1 + (Nat.toDigits 10 m).length = pos ∧
    textAt (formatDigits fuel m pos b).2 (formatDigits fuel m pos b).1
      = (Nat.toDigits 10 m).map digitByte ++ textAt b pos ∧
    ∀ a, a < (formatDigits fuel m pos b).1 ∨ pos ≤ a →
      (formatDigits fuel m pos b).2.read a = b.read a := by
  induction fuel generalizing m pos b with
  | zero => simp at hm; omega
  | succ fuel ih =>
    unfold formatDigits
    rw [if_neg (by omega)]
    rcases Nat.lt_or_ge m 10 with hlt | hge
    · have hz : m / 10 = 0 := by omega
      have hf : ∀ p c, formatDigits fuel 0 p c = (p, c) := by
        intro p c
        cases fuel <;> simp [formatDigits]
      rw [hz, hf, Nat.toDigits_of_lt_base hlt]
      refine ⟨by simp; omega, ?_, ?_⟩
      · rw [textAt_write_pred (by omega) h11, digit_byte _ (Nat.mod_lt _ (by omega)),
          Nat.mod_eq_of_lt hlt]
        rfl
      · intro a ha
        exact Memory.read_write_other (by simp at ha; omega) _ _
    · obtain ⟨i1, i2, i3⟩ := ih (m / 10) (pos - 1) (b.write (pos - 1) (BitVec.ofNat 8 (0x30 + m % 10)))
        (by omega) (by rw [pow_succ] at hm; omega) (by omega) (by omega)
      rw [Nat.toDigits_of_base_le (by omega) hge]
      refine ⟨?_, ?_, ?_⟩
      · simp only [List.length_append, List.length_cons, List.length_nil]
        omega
      · rw [i2, textAt_write_pred (by omega) h11, digit_byte _ (Nat.mod_lt _ (by omega))]
        simp
      · intro a ha
        rw [i3 a (by omega)]
        exact Memory.read_write_other (by omega) _ _

theorem formatDigits_wf (fuel m pos : Nat) {b : Memory} (h : Memory.wf b = true) :
    Memory.wf (formatDigits fuel m pos b).2 = true := by
  induction fuel generalizing m pos b with
  | zero => exact h
  | succ fuel ih =>
    unfold formatDigits
    split
    · exact h
    · exact ih _ _ (Memory.wf_write h _ _)

theorem formatDigits_below (fuel m pos : Nat) {b : Memory} (h11 : pos ≤ 11)
    (h : Cells.below numBufCap b = true) :
    Cells.below numBufCap (formatDigits fuel m pos b).2 = true := by
  induction fuel generalizing m pos b with
  | zero => exact h
  | succ fuel ih =>
    unfold formatDigits
    split
    · exact h
    · exact ih _ _ (by omega) (Memory.below_write h (by unfold numBufCap; omega) _)

/-- Zero is the one digit "0" (R230). -/
theorem formatMagnitude_zero (b : Memory) : formatMagnitude 0 b = (10, b.write 10 0x30) := rfl

theorem formatMagnitude_pos {m : Nat} (h : m ≠ 0) (b : Memory) :
    formatMagnitude m b = formatDigits 10 m 11 b := if_neg h

theorem formatNumber_negative {n : Addr} (h : negative n = true) (b : Memory) :
    formatNumber n b = ((formatMagnitude (magnitude n) (b.write 11 0x00)).1 - 1,
      (formatMagnitude (magnitude n) (b.write 11 0x00)).2.write
        ((formatMagnitude (magnitude n) (b.write 11 0x00)).1 - 1) 0x2D) := if_pos h

theorem formatNumber_plain {n : Addr} (h : ¬ negative n = true) (b : Memory) :
    formatNumber n b = formatMagnitude (magnitude n) (b.write 11 0x00) := if_neg h

theorem formatNumber_wf (n : Addr) {b : Memory} (h : Memory.wf b = true) :
    Memory.wf (formatNumber n b).2 = true := by
  have h1 := Memory.wf_write h 11 0x00
  have h2 : Memory.wf (formatMagnitude (magnitude n) (b.write 11 0x00)).2 = true := by
    by_cases hm : magnitude n = 0
    · rw [hm, formatMagnitude_zero]
      exact Memory.wf_write h1 10 0x30
    · rw [formatMagnitude_pos hm]
      exact formatDigits_wf _ _ _ h1
  by_cases hn : negative n = true
  · rw [formatNumber_negative hn]
    exact Memory.wf_write h2 ((formatMagnitude (magnitude n) (b.write 11 0x00)).1 - 1) 0x2D
  · rw [formatNumber_plain hn]
    exact h2

theorem magnitude_le (n : Addr) : magnitude n ≤ 2147483648 := by
  unfold magnitude
  have h1 := BitVec.toInt_lt (x := n)
  have h2 := BitVec.le_toInt n
  omega

theorem formatMagnitude_spec (m : Nat) (b : Memory) (hm : m ≤ 2147483648) :
    1 ≤ (formatMagnitude m b).1 ∧
    (formatMagnitude m b).1 + (Nat.toDigits 10 m).length = 11 ∧
    textAt (formatMagnitude m b).2 (formatMagnitude m b).1 = (Nat.toDigits 10 m).map digitByte ∧
    ∀ a, a < (formatMagnitude m b).1 ∨ 11 ≤ a → (formatMagnitude m b).2.read a = b.read a := by
  have he : textAt b 11 = [] := rfl
  by_cases h : m = 0
  · subst h
    rw [formatMagnitude_zero]
    refine ⟨by simp, rfl, ?_, ?_⟩
    · show textAt (b.write (11 - 1) 0x30) (11 - 1) = _
      rw [textAt_write_pred (by omega) (by omega), he]
      rfl
    · intro a ha
      simp only at ha
      show (b.write 10 0x30).read a = _
      rw [Memory.read_write_other (by omega)]
  · rw [formatMagnitude_pos h]
    obtain ⟨h1, h2, h3⟩ := formatDigits_spec 10 m 11 b (by omega) (by omega) (by omega) (by omega)
    rw [he, List.append_nil] at h2
    refine ⟨?_, h1, h2, h3⟩
    have : (Nat.toDigits 10 m).length ≤ 10 := by
      rw [Nat.length_toDigits_le_iff (by omega) (by omega)]
      omega
    omega

/-- NUMBUF after formatting (R230): the number's text up to index 10, the terminator at index 11, and
every other byte as it was. -/
theorem formatNumber_spec (n : Addr) (b : Memory) :
    (formatNumber n b).1 + (numberText n).length = 11 ∧
    textAt (formatNumber n b).2 (formatNumber n b).1 = numberText n ∧
    (formatNumber n b).2.read 11 = 0x00 ∧
    ∀ a, a < (formatNumber n b).1 ∨ 11 < a → (formatNumber n b).2.read a = b.read a := by
  obtain ⟨h0, h1, h2, h3⟩ := formatMagnitude_spec (magnitude n) (b.write 11 0x00) (magnitude_le n)
  unfold numberText
  by_cases hn : negative n = true
  · rw [formatNumber_negative hn]
    simp only [hn, if_true]
    refine ⟨?_, ?_, ?_, ?_⟩
    · simp only [List.length_append, List.length_cons, List.length_nil, List.length_map]
      omega
    · rw [textAt_write_pred (by omega) (by omega), h2]
      rfl
    · rw [Memory.read_write_other (by omega), h3 11 (by omega), Memory.read_write_same]
    · intro a ha
      rw [Memory.read_write_other (by omega), h3 a (by omega), Memory.read_write_other (by omega)]
  · rw [formatNumber_plain hn]
    have hn' : negative n = false := by simpa using hn
    simp only [hn', Bool.false_eq_true, if_false, List.nil_append]
    refine ⟨?_, h2, ?_, ?_⟩
    · rw [List.length_map]
      omega
    · rw [h3 11 (by omega), Memory.read_write_same]
    · intro a ha
      rw [h3 a (by omega), Memory.read_write_other (by omega)]

theorem formatNumber_below (n : Addr) {b : Memory} (h : Cells.below numBufCap b = true) :
    Cells.below numBufCap (formatNumber n b).2 = true := by
  have h1 := Memory.below_write h (a := 11) (by decide) 0x00
  have h2 : Cells.below numBufCap (formatMagnitude (magnitude n) (b.write 11 0x00)).2 = true := by
    by_cases hm : magnitude n = 0
    · rw [hm, formatMagnitude_zero]
      exact Memory.below_write h1 (a := 10) (by decide) 0x30
    · rw [formatMagnitude_pos hm]
      exact formatDigits_below _ _ _ (by omega) h1
  have h3 := (formatMagnitude_spec (magnitude n) (b.write 11 0x00) (magnitude_le n)).2.1
  by_cases hn : negative n = true
  · rw [formatNumber_negative hn]
    exact Memory.below_write h2 (a := (formatMagnitude (magnitude n) (b.write 11 0x00)).1 - 1)
      (by unfold numBufCap; omega) 0x2D
  · rw [formatNumber_plain hn]
    exact h2

/-! ### PRINT_NUMBER -/

/-- `t` differs from `s` only in the cursor's column, in GLYPHBUF, in NUMBUF and in what the Transport
touches, and both buffers stay canonical memories inside their spaces. -/
structure NumberOnly (s t : State) : Prop where
  text : TextOnly { s with numBuf := t.numBuf } t
  wf : Memory.wf s.numBuf = true → Memory.wf t.numBuf = true
  below : Cells.below numBufCap s.numBuf = true → Cells.below numBufCap t.numBuf = true

theorem printNumber_only (n : Addr) (width : Half) (s : State) :
    (printNumber n width s).Leaves fun t =>
      NumberOnly s t ∧ t.numBuf = (formatNumber n s.numBuf).2 := by
  unfold printNumber
  simp only
  have h1 := printSeq_textOnly (fun _ _ => 0x20) (cellsOf width - (11 - (formatNumber n s.numBuf).1))
    { s with numBuf := (formatNumber n s.numBuf).2 }
  have h3 := Run.Leaves.andThen (rel := TextOnly) TextOnly.trans h1 fun t _ =>
    printSeq_textOnly (fun t i => t.numBuf.read ((formatNumber n s.numBuf).1 + i))
      (11 - (formatNumber n s.numBuf).1) t
  refine h3.mono fun t ht => ?_
  have hb : t.numBuf = (formatNumber n s.numBuf).2 := ht.wire.numBuf
  refine ⟨⟨?_, fun w => ?_, fun w => ?_⟩, hb⟩
  · rw [hb]
    exact ht
  · rw [hb]
    exact formatNumber_wf n w
  · rw [hb]
    exact formatNumber_below n w

/-- The characters PRINT_NUMBER prints, in closed form. -/
theorem printNumber_follows (n : Addr) (width : Half) (s : State) :
    Follows (textPlan s s.curX (numberChars n width)) s (printNumber n width s) := by
  obtain ⟨h1, h2, _, _⟩ := formatNumber_spec n s.numBuf
  unfold printNumber numberChars
  simp only
  have hl : 11 - (formatNumber n s.numBuf).1 = (numberText n).length := by omega
  rw [hl, textPlan_append, ← h2]
  set s1 : State := { s with numBuf := (formatNumber n s.numBuf).2 } with hs1
  have hplan : ∀ (u : State), u = s1 → ∀ x l, textPlan u x l = textPlan s x l := by
    intro u hu x l
    subst hu
    induction l generalizing x with
    | nil => rfl
    | cons c rest ih =>
      simp only [textPlan, ih]
      rfl
  have e0 : List.replicate (cellsOf width - (textAt (formatNumber n s.numBuf).2
      (formatNumber n s.numBuf).1).length) (0x20 : Byte)
      = (List.range (cellsOf width - (textAt (formatNumber n s.numBuf).2
      (formatNumber n s.numBuf).1).length)).map (fun _ => 0x20) := by simp
  have a1 := printSeq_follows (ch := fun _ _ => 0x20) (c := fun _ => 0x20)
    (cellsOf width - (numberText n).length) s1 (fun _ _ _ _ => rfl)
  rw [hplan s1 rfl] at a1
  rw [e0, h2]
  have ht0 : Took [] s s1 := ⟨rfl, by simp [hs1], by simp [hs1], rfl⟩
  have a2 := Follows.after ht0 (by rw [hs1]) a1
  have hn : (Plan.emits []) = Plan.nothing := rfl
  rw [hn, Plan.nothing_andThen] at a2
  refine Follows.andThen a2 fun t hd _ => ?_
  have ht : TextOnly s1 t := (printSeq_textOnly _ _ s1).of_done hd
  have hx := printSeq_done hd
  have := printSeq_follows (ch := fun t i => t.numBuf.read ((formatNumber n s.numBuf).1 + i))
    (c := fun i => (formatNumber n s.numBuf).2.read ((formatNumber n s.numBuf).1 + i))
    (numberText n).length t (fun u i hu _ => by
      have : u.numBuf = (formatNumber n s.numBuf).2 := hu.wire.numBuf.trans ht.wire.numBuf
      rw [this])
  rw [textPlan_textOnly ht, hplan s1 rfl, hx] at this
  have e1 : (List.range (numberText n).length).map
      (fun i => (formatNumber n s.numBuf).2.read ((formatNumber n s.numBuf).1 + i)) = numberText n := by
    rw [← hl]
    exact h2
  rw [e1] at this
  rw [List.length_map, List.length_range]
  exact this

end Sys2Proof.Machine
end

