-- ==== Sys2Proof/Laws/Exec.lean ====
section
/-! SUPPORT. The dispatch in one piece: an instruction is its gate and its micro-sequence, and each
micro-sequence follows its plan, keeps the memories and comes to rest. -/

namespace Sys2Proof.Machine

/-! ### At rest -/

/-- From rest to rest: the byte engine ready, the block engine off, chip-select released. -/
structure Rested (s t : State) : Prop where
  txe : s.txe = true → t.txe = true
  blkEn : s.blkEn = false → t.blkEn = false
  csLine : s.cfg.useCs = true → s.csLine = .release → t.csLine = .release
  cfg : t.cfg = s.cfg

theorem Rested.trans {a b c : State} (h : Rested a b) (k : Rested b c) : Rested a c :=
  ⟨fun e => k.txe (h.txe e), fun e => k.blkEn (h.blkEn e),
    fun u e => k.csLine (by rw [h.cfg]; exact u) (h.csLine u e), k.cfg.trans h.cfg⟩

theorem Rested.refl (s : State) : Rested s s := ⟨id, id, fun _ => id, rfl⟩

theorem Sent.rested {k : Kind} {s t : State} (d : Sent k s t) (c : t.cfg = s.cfg) :
    Rested s t :=
  ⟨fun _ => d.txe, fun e => d.blkEn.trans e, fun _ e => d.csLine.trans e, c⟩

theorem Transacted.rested {src : BlockSrc} {len : Nat} {s t : State} (d : Transacted src len s t)
    (c : t.cfg = s.cfg) : Rested s t :=
  ⟨fun _ => d.txe, fun _ => d.blkEn, fun u _ => by rw [d.csLine]; unfold released; rw [if_pos u], c⟩

theorem Dotted.rested {s t : State} (d : Dotted s t) (c : t.cfg = s.cfg) : Rested s t :=
  ⟨fun _ => d.txe, fun e => d.blkEn.trans e, fun u _ => by rw [d.csLine]; unfold released; rw [if_pos u], c⟩

/-- A run that, when done, has come to rest from rest. -/
def Rests (r : Run) (s : State) : Prop := ∀ t, r = .done t → Rested s t

theorem Rests.refl (s : State) : Rests (.done s) s := by
  intro t h
  cases h
  exact Rested.refl s

theorem Rests.raised (k : FaultKind) (s : State) : Rests (.raised k s) s := fun _ h => nomatch h

theorem Rests.andThen {r : Run} {s : State} {f : State → Run} (h : Rests r s)
    (k : ∀ t, Rests (f t) t) : Rests (r.andThen f) s := by
  intro u hu
  obtain ⟨t, h1, h2⟩ := Run.andThen_eq_done hu
  exact (h t h1).trans (k t u h2)

theorem staged_rests (c : Half) (n : Nat) (x0 y0 x1 y1 : Half) (reps : Nat) (s : State) :
    Rests ((stageRun c n s).andThen fun s =>
      blockTransaction x0 y0 x1 y1 (.rowBuf 0) (2 * n) reps s) s := by
  intro t ht
  exact (staged_done ht).1.rested ((staged_rowOnly c n x0 y0 x1 y1 reps s).of_done ht).wire.cfg

theorem fastHLine_rests (x y : Half) (len : Nat) (c : Half) (s : State) : Rests (fastHLine x y len c s) s := by
  unfold fastHLine
  split
  · exact Rests.refl s
  · simp only
    split
    · exact Rests.raised _ s
    · exact staged_rests _ _ _ _ _ _ _ _

theorem fastVLine_rests (x y : Half) (len : Nat) (c : Half) (s : State) : Rests (fastVLine x y len c s) s := by
  unfold fastVLine
  split
  · exact Rests.refl s
  · simp only
    split
    · exact Rests.raised _ s
    · exact staged_rests _ _ _ _ _ _ _ _

theorem fillRect_rests (x y w h c : Half) (s : State) : Rests (fillRect x y w h c s) s := by
  unfold fillRect
  split
  · exact Rests.refl s
  · simp only
    split
    · exact Rests.raised _ s
    · exact staged_rests _ _ _ _ _ _ _ _

theorem drawRect_rests (x y w h c : Half) (s : State) : Rests (drawRect x y w h c s) s := by
  unfold drawRect
  split
  · exact Rests.refl s
  · exact (fastHLine_rests _ _ _ _ _).andThen fun _ => (fastHLine_rests _ _ _ _ _).andThen fun _ =>
      (fastVLine_rests _ _ _ _ _).andThen fun _ => fastVLine_rests _ _ _ _ _

theorem blockTransaction_rests (x0 y0 x1 y1 : Half) (src : BlockSrc) (len reps : Nat) (s : State) :
    Rests (blockTransaction x0 y0 x1 y1 src len reps s) s :=
  fun _ ht => (blockTransaction_done ht).rested ((blockTransaction_wire _ _ _ _ _ _ _ _).of_done ht).cfg

theorem drawBitmap_rests (x y w h : Half) (p : Addr) (s : State) : Rests (drawBitmap x y w h p s) s := by
  unfold drawBitmap
  split
  · exact Rests.refl s
  · simp only
    split
    · exact Rests.raised _ s
    · split
      · exact Rests.raised _ s
      · exact blockTransaction_rests _ _ _ _ _ _ _ _

theorem pixel_rests (x y c : Half) (s : State) : Rests (pixel x y c s) s :=
  fun _ ht => (pixel_done ht).rested ((pixel_wire _ _ _ _).of_done ht).cfg

theorem bresenhamLoop_rests (steep : Bool) (dx dy ys : Int) (c : Half) (n : Nat) (xx yy err : Int)
    (s : State) : Rests (bresenhamLoop steep dx dy ys c n xx yy err s) s := by
  induction n generalizing xx yy err s with
  | zero => exact Rests.refl s
  | succ n ih =>
    unfold bresenhamLoop
    refine Rests.andThen ?_ fun _ => ?_
    · split <;> exact pixel_rests _ _ _ _
    · split <;> exact ih _ _ _ _

theorem drawLine_rests (a b c d e : Half) (s : State) : Rests (drawLine a b c d e s) s := by
  unfold drawLine
  split
  · exact fastVLine_rests _ _ _ _ _
  · split
    · exact fastHLine_rests _ _ _ _ _
    · unfold bresenham bresenhamOrdered bresenhamFrom
      split <;> split <;> exact bresenhamLoop_rests _ _ _ _ _ _ _ _ _ _

theorem glyph_rests (ch : Byte) (s : State) : Rests (glyph ch s) s :=
  fun _ ht => (glyph_done ht).1.rested ((glyph_textOnly _ _).of_done ht).1.wire.cfg

theorem printOne_rests (ch : Byte) (s : State) : Rests (printOne ch s) s :=
  (glyph_rests ch s).andThen fun t u h => by cases h; exact ⟨id, id, fun _ => id, rfl⟩

theorem printSeq_rests (ch : State → Nat → Byte) (n : Nat) (s : State) : Rests (printSeq ch n s) s := by
  induction n with
  | zero => exact Rests.refl s
  | succ n ih => exact ih.andThen fun _ => printOne_rests _ _

/-! ### The micro-sequence of an instruction -/

/-- The micro-sequence of each instruction. -/
def bodyOf : Instr → State → Run
  | .init => initSequence
  | .setCursor x y => setCursor x y
  | .setColor c => fun s => .done { s with color := c }
  | .setBgColor c => fun s => .done { s with bgColor := c }
  | .printChar ch => glyph ch
  | .print len addr => printString len addr
  | .printNumber n w => printNumber n w
  | .drawPixel x y c => pixel x y c
  | .drawLine x0 y0 x1 y1 c => drawLine x0 y0 x1 y1 c
  | .drawRect x y w h c => drawRect x y w h c
  | .fillRect x y w h c => fillRect x y w h c
  | .drawBitmap x y w h p => drawBitmap x y w h p
  | .slpout => slpoutFrame
  | .noron => noronFrame
  | .invoff => invoffFrame
  | .invon => invonFrame
  | .dispon => disponFrame
  | .caset a b => casetFrame a b
  | .raset a b => rasetFrame a b
  | .ramwr ps => ramwrFrame ps
  | .madctl => madctlFrame
  | .colmod => colmodFrame
  | .gmctrp1 => gmctrp1Frame
  | .gmctrn1 => gmctrn1Frame

/-- The gate of R42, closed: a host operation but INIT, before any INIT. -/
def gated (i : Instr) (s : State) : Prop := i.isHost = true ∧ i ≠ .init ∧ s.inited = false

theorem exec_gated {i : Instr} {s : State} (h : gated i s) : exec i s = .refused .notInitialised := by
  obtain ⟨h1, h2, h3⟩ := h
  cases i <;> simp_all [Instr.isHost, exec, execSetCursor, execSetColor, execSetBgColor,
    execPrintChar, execPrint, execPrintNumber, execDrawPixel, execDrawLine, execDrawRect, execFillRect,
    execDrawBitmap, hostOperation]

theorem exec_open {i : Instr} {s : State} (h : ¬ gated i s) :
    exec i s = runOperation (i.opByte s.cfg) (bodyOf i) s := by
  unfold gated at h
  cases i <;> first | rfl | (
    have h3 : s.inited = true := by simpa [Instr.isHost] using h
    simp only [exec, execSetCursor, execSetColor, execSetBgColor, execPrintChar, execPrint,
      execPrintNumber, execDrawPixel, execDrawLine, execDrawRect, execFillRect, execDrawBitmap,
      hostOperation, h3, if_true]
    rfl)

/-- A run with no event. -/
theorem Follows.silent {s t : State} (c : t.cfg = s.cfg) (e : t.trace = s.trace ∧ t.seq = s.seq)
    (p : t.panel = s.panel) (v : t.env = s.env) : Follows Plan.nothing s (.done t) :=
  ⟨rfl, ⟨c, by simp [Plan.nothing, e.1], by simp [Plan.nothing, e.2], p⟩, fun _ => v⟩

/-- Each micro-sequence follows its instruction's plan. -/
theorem body_follows (i : Instr) (s : State) (hw : s.cfg.width ≤ 32767) :
    Follows (plan i s) s (bodyOf i s) := by
  cases i with
  | init => exact initSequence_follows s
  | setCursor x y => exact Follows.silent rfl ⟨rfl, rfl⟩ rfl rfl
  | setColor x => exact Follows.silent rfl ⟨rfl, rfl⟩ rfl rfl
  | setBgColor x => exact Follows.silent rfl ⟨rfl, rfl⟩ rfl rfl
  | printChar ch => exact glyph_follows ch s
  | print len addr => exact printString_follows len addr s
  | printNumber n w => exact printNumber_follows n w s
  | drawPixel x y c => exact pixel_follows x y c s
  | drawLine x0 y0 x1 y1 c => exact drawLine_follows x0 y0 x1 y1 c s hw
  | drawRect x y w h c => exact drawRect_follows x y w h c s hw
  | fillRect x y w h c => exact fillRect_follows x y w h c s hw
  | drawBitmap x y w h p => exact drawBitmap_follows x y w h p s
  | slpout => exact settledCommand_follows _ _ s
  | noron => exact settledCommand_follows _ _ s
  | invoff => exact settledCommand_follows _ _ s
  | invon => exact settledCommand_follows _ _ s
  | dispon => exact settledCommand_follows _ _ s
  | caset a b => exact casetFrame_follows a b s
  | raset a b => exact rasetFrame_follows a b s
  | ramwr ps => exact ramwrFrame_follows ps s
  | madctl => exact configuredCommand_follows _ _ s
  | colmod => exact configuredCommand_follows _ _ s
  | gmctrp1 => exact gammaCommand_follows _ s fun t ht j => by simp [sourceByte, ht]
  | gmctrn1 => exact gammaCommand_follows _ s fun t ht j => by simp [sourceByte, ht]

theorem plan_seq (i : Instr) (s : State) (q : Seq) : plan i { s with seq := q } = plan i s := by
  have h : ∀ x l, textPlan { s with seq := q } x l = textPlan s x l := by
    intro x l
    induction l generalizing x with
    | nil => rfl
    | cons c r ih => simp only [textPlan, ih]; rfl
  cases i <;> first | rfl | exact h _ _

/-- Every operation but INIT comes to rest from rest. -/
theorem body_rests (i : Instr) (s : State) (hi : i ≠ .init) : Rests (bodyOf i s) s := by
  cases i with
  | init => exact absurd rfl hi
  | setCursor x y => exact fun t h => by cases h; exact ⟨id, id, fun _ => id, rfl⟩
  | setColor x => exact fun t h => by cases h; exact ⟨id, id, fun _ => id, rfl⟩
  | setBgColor x => exact fun t h => by cases h; exact ⟨id, id, fun _ => id, rfl⟩
  | printChar ch => exact glyph_rests ch s
  | print len addr => exact printSeq_rests _ _ s
  | printNumber n w =>
    have h1 := printSeq_rests (fun _ _ => 0x20) (cellsOf w - (11 - (formatNumber n s.numBuf).1))
      { s with numBuf := (formatNumber n s.numBuf).2 }
    have h2 := h1.andThen fun t =>
      printSeq_rests (fun s' i => s'.numBuf.read ((formatNumber n s.numBuf).1 + i))
        (11 - (formatNumber n s.numBuf).1) t
    intro t ht
    have := h2 t ht
    exact ⟨this.txe, this.blkEn, this.csLine, this.cfg⟩
  | drawPixel x y c => exact pixel_rests x y c s
  | drawLine x0 y0 x1 y1 c => exact drawLine_rests x0 y0 x1 y1 c s
  | drawRect x y w h c => exact drawRect_rests x y w h c s
  | fillRect x y w h c => exact fillRect_rests x y w h c s
  | drawBitmap x y w h p => exact drawBitmap_rests x y w h p s
  | slpout => exact fun t ht => (settledCommand_done ht).rested ((settledCommand_wire _ _ _).of_done ht).cfg
  | noron => exact fun t ht => (settledCommand_done ht).rested ((settledCommand_wire _ _ _).of_done ht).cfg
  | invoff => exact fun t ht => (settledCommand_done ht).rested ((settledCommand_wire _ _ _).of_done ht).cfg
  | invon => exact fun t ht => (settledCommand_done ht).rested ((settledCommand_wire _ _ _).of_done ht).cfg
  | dispon => exact fun t ht => (settledCommand_done ht).rested ((settledCommand_wire _ _ _).of_done ht).cfg
  | caset a b => exact fun t ht => (casetFrame_done ht).rested ((casetFrame_wire _ _ _).of_done ht).cfg
  | raset a b => exact fun t ht => (rasetFrame_done ht).rested ((rasetFrame_wire _ _ _).of_done ht).cfg
  | ramwr ps => exact fun t ht => (ramwrFrame_done ht).rested ((ramwrFrame_wire _ _).of_done ht).cfg
  | madctl => exact fun t ht => (configuredCommand_done ht).rested ((configuredCommand_wire _ _ _).of_done ht).cfg
  | colmod => exact fun t ht => (configuredCommand_done ht).rested ((configuredCommand_wire _ _ _).of_done ht).cfg
  | gmctrp1 =>
    intro t ht
    obtain ⟨a,b,c,d,e,f,g,h⟩ := gammaCommand_done ht
    exact ⟨fun _ => d, fun _ => f, fun _ e => b.trans e, ((gammaCommand_wire _ _ _).of_done ht).cfg⟩
  | gmctrn1 =>
    intro t ht
    obtain ⟨a,b,c,d,e,f,g,h⟩ := gammaCommand_done ht
    exact ⟨fun _ => d, fun _ => f, fun _ e => b.trans e, ((gammaCommand_wire _ _ _).of_done ht).cfg⟩

/-- The configuration, HOST, the host's moves and the port stay, the buffers stay canonical inside their
spaces, and `inited` is not cleared. -/
structure Kept (s t : State) : Prop where
  cfg : t.cfg = s.cfg
  row : Memory.wf s.rowBuf = true ∧ Cells.below s.cfg.rowBufCap s.rowBuf = true →
    Memory.wf t.rowBuf = true ∧ Cells.below s.cfg.rowBufCap t.rowBuf = true
  glyph : Memory.wf s.glyphBuf = true ∧ Cells.below glyphBufCap s.glyphBuf = true →
    Memory.wf t.glyphBuf = true ∧ Cells.below glyphBufCap t.glyphBuf = true
  num : Memory.wf s.numBuf = true ∧ Cells.below numBufCap s.numBuf = true →
    Memory.wf t.numBuf = true ∧ Cells.below numBufCap t.numBuf = true
  host : t.host = s.host
  inputs : t.inputs = s.inputs
  port : t.port = s.port
  inited : s.inited = true → t.inited = true

theorem Kept.of_wire {s t : State} (h : Wire s t) : Kept s t :=
  ⟨h.cfg, by rw [h.rowBuf]; exact id, by rw [h.glyphBuf]; exact id, by rw [h.numBuf]; exact id,
    h.host, h.inputs, h.port, fun e => h.inited.trans e⟩

theorem Kept.of_rowOnly {s t : State} (h : RowOnly s t) : Kept s t :=
  ⟨h.wire.cfg, fun e => ⟨h.wf e.1, h.below e.2⟩, by rw [h.wire.glyphBuf]; exact id, by rw [h.wire.numBuf]; exact id,
    h.wire.host, h.wire.inputs, h.wire.port, fun e => h.wire.inited.trans e⟩

theorem Kept.of_textOnly {s t : State} (h : TextOnly s t) : Kept s t :=
  ⟨h.wire.cfg, by rw [h.wire.rowBuf]; exact id, fun e => ⟨h.wf e.1, h.below e.2⟩,
    by rw [h.wire.numBuf]; exact id,
    h.wire.host, h.wire.inputs, h.wire.port, fun e => h.wire.inited.trans e⟩

theorem Kept.of_initOnly {s t : State} (h : InitOnly s t) : Kept s t :=
  ⟨h.wire.cfg, by rw [h.wire.rowBuf]; exact id, by rw [h.wire.glyphBuf]; exact id, by rw [h.wire.numBuf]; exact id,
    h.wire.host, h.wire.inputs, h.wire.port, h.inited⟩

theorem body_kept (i : Instr) (s : State) : (bodyOf i s).Leaves (Kept s) := by
  cases i with
  | init => exact (initSequence_only s).mono fun _ => Kept.of_initOnly
  | setCursor x y => exact ⟨rfl, id, id, id, rfl, rfl, rfl, id⟩
  | setColor x => exact ⟨rfl, id, id, id, rfl, rfl, rfl, id⟩
  | setBgColor x => exact ⟨rfl, id, id, id, rfl, rfl, rfl, id⟩
  | printChar ch => exact (glyph_textOnly ch s).mono fun _ h => Kept.of_textOnly h.1
  | print len addr => exact (printSeq_textOnly _ _ s).mono fun _ => Kept.of_textOnly
  | printNumber n w =>
    refine (printNumber_only n w s).mono fun t ⟨h, _⟩ => ?_
    have m := Kept.of_textOnly h.text
    exact ⟨m.cfg, m.row, m.glyph, fun e => ⟨h.wf e.1, h.below e.2⟩, m.host, m.inputs, m.port, m.inited⟩
  | drawPixel x y c => exact (pixel_wire x y c s).mono fun _ => Kept.of_wire
  | drawLine x0 y0 x1 y1 c => exact (drawLine_rowOnly x0 y0 x1 y1 c s).mono fun _ => Kept.of_rowOnly
  | drawRect x y w h c => exact (drawRect_rowOnly x y w h c s).mono fun _ => Kept.of_rowOnly
  | fillRect x y w h c => exact (fillRect_rowOnly x y w h c s).mono fun _ => Kept.of_rowOnly
  | drawBitmap x y w h p => exact (drawBitmap_wire x y w h p s).mono fun _ => Kept.of_wire
  | slpout => exact (settledCommand_wire _ _ _).mono fun _ => Kept.of_wire
  | noron => exact (settledCommand_wire _ _ _).mono fun _ => Kept.of_wire
  | invoff => exact (settledCommand_wire _ _ _).mono fun _ => Kept.of_wire
  | invon => exact (settledCommand_wire _ _ _).mono fun _ => Kept.of_wire
  | dispon => exact (settledCommand_wire _ _ _).mono fun _ => Kept.of_wire
  | caset a b => exact (casetFrame_wire _ _ _).mono fun _ => Kept.of_wire
  | raset a b => exact (rasetFrame_wire _ _ _).mono fun _ => Kept.of_wire
  | ramwr ps => exact (ramwrFrame_wire _ _).mono fun _ => Kept.of_wire
  | madctl => exact (configuredCommand_wire _ _ _).mono fun _ => Kept.of_wire
  | colmod => exact (configuredCommand_wire _ _ _).mono fun _ => Kept.of_wire
  | gmctrp1 => exact (gammaCommand_wire _ _ _).mono fun _ => Kept.of_wire
  | gmctrn1 => exact (gammaCommand_wire _ _ _).mono fun _ => Kept.of_wire

/-- No operation but INIT writes `inited`. -/
theorem body_inited (i : Instr) (s : State) (hi : i ≠ .init) :
    (bodyOf i s).Leaves fun t => t.inited = s.inited := by
  cases i with
  | init => exact absurd rfl hi
  | setCursor x y => rfl
  | setColor x => rfl
  | setBgColor x => rfl
  | printChar ch => exact (glyph_textOnly ch s).mono fun _ h => h.1.wire.inited
  | print len addr => exact (printSeq_textOnly _ _ s).mono fun _ h => h.wire.inited
  | printNumber n w => exact (printNumber_only n w s).mono fun _ h => h.1.text.wire.inited
  | drawPixel x y c => exact (pixel_wire x y c s).mono fun _ h => h.inited
  | drawLine x0 y0 x1 y1 c => exact (drawLine_rowOnly x0 y0 x1 y1 c s).mono fun _ h => h.wire.inited
  | drawRect x y w h c => exact (drawRect_rowOnly x y w h c s).mono fun _ h => h.wire.inited
  | fillRect x y w h c => exact (fillRect_rowOnly x y w h c s).mono fun _ h => h.wire.inited
  | drawBitmap x y w h p => exact (drawBitmap_wire x y w h p s).mono fun _ h => h.inited
  | slpout => exact (settledCommand_wire _ _ _).mono fun _ h => h.inited
  | noron => exact (settledCommand_wire _ _ _).mono fun _ h => h.inited
  | invoff => exact (settledCommand_wire _ _ _).mono fun _ h => h.inited
  | invon => exact (settledCommand_wire _ _ _).mono fun _ h => h.inited
  | dispon => exact (settledCommand_wire _ _ _).mono fun _ h => h.inited
  | caset a b => exact (casetFrame_wire _ _ _).mono fun _ h => h.inited
  | raset a b => exact (rasetFrame_wire _ _ _).mono fun _ h => h.inited
  | ramwr ps => exact (ramwrFrame_wire _ _).mono fun _ h => h.inited
  | madctl => exact (configuredCommand_wire _ _ _).mono fun _ h => h.inited
  | colmod => exact (configuredCommand_wire _ _ _).mono fun _ h => h.inited
  | gmctrp1 => exact (gammaCommand_wire _ _ _).mono fun _ h => h.inited
  | gmctrn1 => exact (gammaCommand_wire _ _ _).mono fun _ h => h.inited

end Sys2Proof.Machine
end

