-- ==== Sys2Proof/Laws/Panel.lean ====
section
/-! SUPPORT. What the panel sink's events leave of its pixel memory (20_memory.md R60): a canonical list
inside its space. -/

namespace Sys2Proof.Machine

/-- The pixel memory is canonical and inside its space. -/
def GramOk (p : Panel) : Prop :=
  Cells.sorted p.gram = true ∧ Cells.below (2 ^ 32) p.gram = true

theorem GramOk.spoiled : GramOk Panel.spoiled := ⟨rfl, rfl⟩

theorem gramKey_lt (a b : Half) : gramKey a b < 2 ^ 32 := by
  unfold gramKey
  have := a.isLt
  have := b.isLt
  omega

theorem GramOk.put {p : Panel} (h : GramOk p) (a b v : Half) :
    Cells.sorted (Cells.put (gramKey a b) v p.gram) = true ∧
      Cells.below (2 ^ 32) (Cells.put (gramKey a b) v p.gram) = true :=
  ⟨Cells.sortedFrom_put (Nat.zero_le _) _ h.1, Cells.all_put h.2 (by simpa using gramKey_lt a b)⟩

theorem GramOk.startWrite (c : Config) {p : Panel} (h : GramOk p) : GramOk (p.startWrite c) := by
  unfold Panel.startWrite
  split
  · split
    · exact h
    · exact GramOk.spoiled
  · exact GramOk.spoiled

theorem GramOk.payload (v : Byte) {p : Panel} (h : GramOk p) : GramOk (p.payload v) := by
  unfold Panel.payload
  split
  · exact h
  · split
    · unfold Panel.advance
      split
      · exact h.put _ _ _
      · split <;> exact h.put _ _ _
    · exact GramOk.spoiled

theorem GramOk.parameter (k : PanelCmd) (v : Byte) {p : Panel} (h : GramOk p) :
    GramOk (p.parameter k v) := by
  unfold Panel.parameter
  cases k <;> simp only
  case ramwr => exact h.payload v
  all_goals (try exact GramOk.spoiled)
  all_goals repeat' split
  all_goals first | exact h | exact GramOk.spoiled

theorem GramOk.command (c : Config) (v : Byte) {p : Panel} (h : GramOk p) : GramOk (p.command c v) := by
  unfold Panel.command
  simp only
  split
  all_goals first | exact GramOk.spoiled | exact h | exact GramOk.startWrite c h

theorem GramOk.data (c : Config) (v : Byte) {p : Panel} (h : GramOk p) : GramOk (p.data c v) := by
  unfold Panel.data
  simp only
  split
  · exact GramOk.spoiled
  · split
    · exact GramOk.spoiled
    · exact h.parameter _ _
    · exact h.parameter _ _

/-- Every event keeps the pixel memory canonical. -/
theorem GramOk.accept (c : Config) (e : Event) {p : Panel} (h : GramOk p) : GramOk (p.accept c e) := by
  unfold Panel.accept
  split
  · exact ⟨rfl, rfl⟩
  · exact h
  · exact h
  · exact h
  · split
    · exact h
    · exact h.command c _
    · exact h.command c _
    · exact h.data c _
    · exact h.data c _

theorem GramOk.after (c : Config) (evs : List Event) {p : Panel} (h : GramOk p) :
    GramOk (panelAfter c evs p) := by
  induction evs generalizing p with
  | nil => exact h
  | cons e r ih => exact ih (h.accept c e)

end Sys2Proof.Machine
end

