-- ==== Sys2Proof/Laws/PerInstr.lean ====
section
/-! SUPPORT. One statement per instruction, about its encoding: a host operation is a descriptor with
its `OP` and `RSV = 0` (30_encoding.md R108, R110), a panel command is a frame that begins with its
opcode byte (R100, R104). -/

namespace Sys2Proof.Laws.RequestForm

/-- The form of an instruction's request, under every configuration. -/
def Statement (i : Instr) : Prop :=
  ∀ c : Config,
    match encode c.opcodes i with
    | .descriptor d =>
      i.isHost = true ∧ Descriptor.op d = i.opByte c ∧ Descriptor.rsv d = 0
    | .frame bytes => i.isHost = false ∧ bytes.head? = some (i.opByte c)

theorem init : Statement .init := fun _ => ⟨rfl, op_pack _ _ _ _ _ _ _, rsv_pack _ _ _ _ _ _ _⟩

theorem setCursor (x y : Half) : Statement (.setCursor x y) :=
  fun _ => ⟨rfl, op_pack _ _ _ _ _ _ _, rsv_pack _ _ _ _ _ _ _⟩

theorem setColor (c : Half) : Statement (.setColor c) :=
  fun _ => ⟨rfl, op_pack _ _ _ _ _ _ _, rsv_pack _ _ _ _ _ _ _⟩

theorem setBgColor (c : Half) : Statement (.setBgColor c) :=
  fun _ => ⟨rfl, op_pack _ _ _ _ _ _ _, rsv_pack _ _ _ _ _ _ _⟩

theorem printChar (ch : Byte) : Statement (.printChar ch) :=
  fun _ => ⟨rfl, op_pack _ _ _ _ _ _ _, rsv_pack _ _ _ _ _ _ _⟩

theorem print (len : Half) (addr : Addr) : Statement (.print len addr) :=
  fun _ => ⟨rfl, op_pack _ _ _ _ _ _ _, rsv_pack _ _ _ _ _ _ _⟩

theorem printNumber (n : Addr) (width : Half) : Statement (.printNumber n width) :=
  fun _ => ⟨rfl, op_pack _ _ _ _ _ _ _, rsv_pack _ _ _ _ _ _ _⟩

theorem drawPixel (x y c : Half) : Statement (.drawPixel x y c) :=
  fun _ => ⟨rfl, op_pack _ _ _ _ _ _ _, rsv_pack _ _ _ _ _ _ _⟩

theorem drawLine (x0 y0 x1 y1 c : Half) : Statement (.drawLine x0 y0 x1 y1 c) :=
  fun _ => ⟨rfl, op_pack _ _ _ _ _ _ _, rsv_pack _ _ _ _ _ _ _⟩

theorem drawRect (x y w h c : Half) : Statement (.drawRect x y w h c) :=
  fun _ => ⟨rfl, op_pack _ _ _ _ _ _ _, rsv_pack _ _ _ _ _ _ _⟩

theorem fillRect (x y w h c : Half) : Statement (.fillRect x y w h c) :=
  fun _ => ⟨rfl, op_pack _ _ _ _ _ _ _, rsv_pack _ _ _ _ _ _ _⟩

theorem drawBitmap (x y w h : Half) (pixels : Addr) : Statement (.drawBitmap x y w h pixels) :=
  fun _ => ⟨rfl, op_pack _ _ _ _ _ _ _, rsv_pack _ _ _ _ _ _ _⟩

theorem slpout : Statement .slpout := fun _ => ⟨rfl, rfl⟩

theorem noron : Statement .noron := fun _ => ⟨rfl, rfl⟩

theorem invoff : Statement .invoff := fun _ => ⟨rfl, rfl⟩

theorem invon : Statement .invon := fun _ => ⟨rfl, rfl⟩

theorem dispon : Statement .dispon := fun _ => ⟨rfl, rfl⟩

theorem caset (x0 x1 : Half) : Statement (.caset x0 x1) := fun _ => ⟨rfl, rfl⟩

theorem raset (y0 y1 : Half) : Statement (.raset y0 y1) := fun _ => ⟨rfl, rfl⟩

theorem ramwr (pixels : List Half) : Statement (.ramwr pixels) := fun _ => ⟨rfl, rfl⟩

theorem madctl : Statement .madctl := fun _ => ⟨rfl, rfl⟩

theorem colmod : Statement .colmod := fun _ => ⟨rfl, rfl⟩

theorem gmctrp1 : Statement .gmctrp1 := fun _ => ⟨rfl, rfl⟩

theorem gmctrn1 : Statement .gmctrn1 := fun _ => ⟨rfl, rfl⟩

end Sys2Proof.Laws.RequestForm
end

