-- ==== Sys2Proof/Tests/Slice0.lean ====
section
/-! SUPPORT. Small tests against the spec's own words, traces and vectors (95_test_vectors.md), a smoke
test of WellFormed with an ill-formed term for each check, and a witness for the hypotheses of each
obligation that has some. -/

namespace Sys2Proof.Tests

open Sys2Proof.Machine

/-! ### WellFormed -/

/-- R175: the bounds of a window are ordered; equal ones are. -/
theorem test_wf_caset : Instr.wf (.caset 5 4) = false ∧ Instr.wf (.caset 4 4) = true := by decide

theorem test_wf_raset : Instr.wf (.raset 1 0) = false ∧ Instr.wf (.raset 0 65535) = true := by decide

/-- R9: the opcodes are distinct. -/
theorem test_wf_opcodes :
    Opcodes.wf { Opcodes.standard with noron := 0x11 } = false ∧ Opcodes.wf Opcodes.standard = true := by
  decide

theorem test_wf_t0 : Config.t0.wf = true ∧ Config.t0.visible = true := by decide

/-- R6. -/
theorem test_wf_width :
    Config.wf { Config.t0 with width := 0 } = false ∧ Config.wf { Config.t0 with width := 32768 } = false
      ∧ Config.wf { Config.t0 with width := 32767 } = true := by decide

theorem test_wf_height :
    Config.wf { Config.t0 with height := 0 } = false ∧ Config.wf { Config.t0 with height := 65536 } = false
      ∧ Config.wf { Config.t0 with height := 65535 } = true := by decide

/-- R8: sixteen bytes a gamma table. -/
theorem test_wf_gamma :
    Config.wf { Config.t0 with gammaP := List.replicate 15 0 } = false ∧
    Config.wf { Config.t0 with gammaN := List.replicate 17 0 } = false := by decide

/-- R9, through the configuration. -/
theorem test_wf_config_opcodes :
    Config.wf { Config.t0 with opcodes := { Opcodes.standard with gmctrn1 := 0xE0 } } = false := by
  decide

/-- R10: every delay is positive. -/
theorem test_wf_delays :
    Config.wf { Config.t0 with tRstLow := 0 } = false ∧ Config.wf { Config.t0 with tRstHigh := 0 } = false
      ∧ Config.wf { Config.t0 with tSlpout := 0 } = false
      ∧ Config.wf { Config.t0 with tSettle := 0 } = false := by decide

/-- R7. -/
theorem test_wf_glyph_count :
    Config.wf { Config.t0 with glyphCount := 0 } = false ∧
    Config.wf { Config.t0 with glyphCount := 257 } = false := by decide

/-- R64: the glyph table, in canonical form, inside its `5 * GLYPH_COUNT` bytes. -/
theorem test_wf_glyph :
    Config.wf { Config.t0 with glyph := [(6, 1), (5, 1)] } = false ∧
    Config.wf { Config.t0 with glyph := [(5, 0)] } = false ∧
    Config.wf { Config.t0 with glyphCount := 1, glyph := [(5, 1)] } = false ∧
    Config.wf { Config.t0 with glyphCount := 1, glyph := [(4, 1)] } = true := by decide

/-- R87: the visible area lies inside the controller's range. -/
theorem test_wf_visible :
    Config.visible { Config.t0 with xOffset := 3 } = false ∧
    Config.visible { Config.t0 with yOffset := 53 } = false := by decide

/-! ### Decoding, words written out from R104, R108, R110 and V-E1 -/

theorem test_decode_init : decodeTableWord 128 0x00000000000000000000000000000000 = some .init := by decide

theorem test_decode_set_cursor :
    decodeTableWord 128 0x0100000A001400000000000000000000 = some (.setCursor 10 20) := by decide

theorem test_decode_set_color :
    decodeTableWord 128 0x0200000000000000_0000FFFF00000000 = some (.setColor 0xFFFF) := by decide

theorem test_decode_set_bgcolor :
    decodeTableWord 128 0x0300000000000000_00001234_00000000 = some (.setBgColor 0x1234) := by decide

/-- `PRINT_CHAR 0x0141` is `PRINT_CHAR 0x41` (V-X2, R112). -/
theorem test_decode_print_char :
    decodeTableWord 128 0x04000041000000000000000000000000 = some (.printChar 0x41) ∧
    decodeTableWord 128 0x04000141000000000000000000000000 = some (.printChar 0x41) := by decide

theorem test_decode_print :
    decodeTableWord 128 0x05000002000000000000000000003000 = some (.print 2 0x3000) := by decide

theorem test_decode_print_number :
    decodeTableWord 128 0x060000180000000000000000FFFFFFFB
      = some (.printNumber (BitVec.ofInt 32 (-5)) 24) := by decide

/-- V-E3: the ignored fields change nothing. -/
theorem test_decode_draw_pixel :
    decodeTableWord 128 0x07000001000100000000F80000000000 = some (.drawPixel 1 1 0xF800) ∧
    decodeTableWord 128 0x0700000100_01DEADBEEFF80012345678 = some (.drawPixel 1 1 0xF800) := by decide

theorem test_decode_draw_line :
    decodeTableWord 128 0x08000000000000050002FFE000000000 = some (.drawLine 0 0 5 2 0xFFE0) := by decide

theorem test_decode_draw_rect :
    decodeTableWord 128 0x09000000000000030002F81F00000000 = some (.drawRect 0 0 3 2 0xF81F) := by decide

theorem test_decode_fill_rect :
    decodeTableWord 128 0x0A000000000000040002001F00000000 = some (.fillRect 0 0 4 2 0x001F) := by decide

theorem test_decode_draw_bitmap :
    decodeTableWord 128 0x0B000004000200020002000000002000 = some (.drawBitmap 4 2 2 2 0x2000) := by decide

/-- The twelve command bytes of R104, with their operand bytes zero where they have some. -/
theorem test_decode_commands :
    decodeTableWord 8 0x11 = some .slpout ∧ decodeTableWord 8 0x13 = some .noron ∧
    decodeTableWord 8 0x20 = some .invoff ∧ decodeTableWord 8 0x21 = some .invon ∧
    decodeTableWord 8 0x29 = some .dispon ∧ decodeTableWord 8 0x2A = some (.caset 0 0) ∧
    decodeTableWord 8 0x2B = some (.raset 0 0) ∧ decodeTableWord 8 0x2C = some (.ramwr []) ∧
    decodeTableWord 8 0x36 = some .madctl ∧ decodeTableWord 8 0x3A = some .colmod ∧
    decodeTableWord 8 0xE0 = some .gmctrp1 ∧ decodeTableWord 8 0xE1 = some .gmctrn1 := by decide

/-- R105: start then end, high byte first; R103: two bytes a pixel, high byte first. -/
theorem test_decode_frames :
    decode Opcodes.standard (.frame [0x2A, 0x01, 0x02, 0x05, 0x06]) = .ok (.caset 0x0102 0x0506) ∧
    decode Opcodes.standard (.frame [0x2B, 0x03, 0x04, 0x07, 0x08]) = .ok (.raset 0x0304 0x0708) ∧
    decode Opcodes.standard (.frame [0x2C, 0xF8, 0x00, 0x07, 0xE0]) = .ok (.ramwr [0xF800, 0x07E0]) := by
  decide

/-- V-E2 and R107: what is reserved is refused by name. -/
theorem test_decode_reserved :
    decode Opcodes.standard (.descriptor (0x0C#8 ++ 0#120)) = .error .reservedOp ∧
    decode Opcodes.standard (.descriptor (0xFF#8 ++ 0#120)) = .error .reservedOp ∧
    decodeTableWord 128 0x07010001000100000000F80000000000 = none ∧
    decode Opcodes.standard (.frame [0x00]) = .error .reservedCommand ∧
    decode Opcodes.standard (.frame []) = .error .reservedCommand ∧
    decode Opcodes.standard (.frame [0x2A, 0, 0, 0]) = .error .frameLength ∧
    decode Opcodes.standard (.frame [0x2C, 0]) = .error .frameLength ∧
    decode Opcodes.standard (.frame [0x11, 0]) = .error .frameLength := by decide

/-! ### One step of each instruction -/

/-- A machine after INIT, with the cursor and colours of V-X2 and the memory of V-X4 and V-R8. -/
def ready : State :=
  { State.reset with
    inited := true, curX := 11, curY := 46, color := 0xFFFF, bgColor := 0x0000
    rowBuf := [(0, 0xAA), (319, 0xBB)]
    host := [(0x2000, 0xF8), (0x2002, 0x07), (0x2003, 0xE0), (0x2005, 0x1F), (0x2006, 0xFF),
      (0x2007, 0xFF), (0x3000, 0x48), (0x3001, 0x69)] }

/-- The events an instruction emits from there. -/
def traceOf (i : Instr) : Option (List Event) := Outcome.newEvents 0 (exec i ready)

/-- How many command bytes `C 2C` it emits: its panel transactions. -/
def windowsOf (i : Instr) : Option Nat :=
  (traceOf i).map fun evs => evs.count (.byte .cmd 0x2C)

/-- The state it leaves, looked at. -/
def leaves {α : Type} (i : Instr) (f : State → α) : Option α := (Outcome.left? (exec i ready)).map f

/-- V-C1: the 52 events of INIT. -/
theorem test_init_trace :
    traceOf .init = some
      [.rst false, .delay 50, .rst true, .delay 50, .cs .assert, .byte .cmd 0x11, .delay 120,
       .byte .cmd 0x36, .byte .data 0xA8, .byte .cmd 0x3A, .byte .data 0x05, .byte .cmd 0xE0,
       .byte .data 0x10, .byte .data 0x11, .byte .data 0x12, .byte .data 0x13,
       .byte .data 0x14, .byte .data 0x15, .byte .data 0x16, .byte .data 0x17,
       .byte .data 0x18, .byte .data 0x19, .byte .data 0x1A, .byte .data 0x1B,
       .byte .data 0x1C, .byte .data 0x1D, .byte .data 0x1E, .byte .data 0x1F, .byte .cmd 0xE1,
       .byte .data 0x20, .byte .data 0x21, .byte .data 0x22, .byte .data 0x23,
       .byte .data 0x24, .byte .data 0x25, .byte .data 0x26, .byte .data 0x27,
       .byte .data 0x28, .byte .data 0x29, .byte .data 0x2A, .byte .data 0x2B,
       .byte .data 0x2C, .byte .data 0x2D, .byte .data 0x2E, .byte .data 0x2F, .byte .cmd 0x21,
       .delay 10, .byte .cmd 0x13, .delay 10, .byte .cmd 0x29, .delay 10, .cs .release] := by
  decide +kernel

/-- V-C1: the state after INIT. -/
theorem test_init_state :
    leaves .init (fun s => (s.inited, s.seq, s.rstLine, s.dcLine)) = some (true, .idle, true, .cmd) ∧
    leaves .init (fun s => (s.csLine, s.txe, s.tc, s.blkEn)) = some (.release, true, true, false) := by
  decide +kernel

/-- V-X1: the offsets are added, and wrap. -/
theorem test_set_cursor :
    leaves (.setCursor 10 20) (fun s => (s.curX, s.curY)) = some (11, 46) ∧
    leaves (.setCursor 65535 65535) (fun s => (s.curX, s.curY)) = some (0, 25) := by
  decide +kernel

/-- R221: the text colour alone. -/
theorem test_set_color :
    leaves (.setColor 0x1234) (fun s => (s.color, s.bgColor, s.trace)) = some (0x1234, 0, []) := by
  decide +kernel

/-- R222: the background colour alone. -/
theorem test_set_bgcolor :
    leaves (.setBgColor 0x1234) (fun s => (s.color, s.bgColor, s.trace)) = some (0xFFFF, 0x1234, []) := by
  decide +kernel

/-- V-X2: the glyph of 0x41, row by row. -/
theorem test_print_char_trace :
    traceOf (.printChar 0x41) = some
      [.cs .assert, .byte .cmd 0x2A, .byte .data 0x00, .byte .data 0x0B, .byte .data 0x00,
       .byte .data 0x0F, .byte .cmd 0x2B, .byte .data 0x00, .byte .data 0x2E, .byte .data 0x00,
       .byte .data 0x34, .byte .cmd 0x2C, .byte .data 0x00, .byte .data 0x00, .byte .data 0xFF,
       .byte .data 0xFF, .byte .data 0xFF, .byte .data 0xFF, .byte .data 0xFF,
       .byte .data 0xFF, .byte .data 0x00, .byte .data 0x00, .byte .data 0xFF,
       .byte .data 0xFF, .byte .data 0x00, .byte .data 0x00, .byte .data 0x00,
       .byte .data 0x00, .byte .data 0x00, .byte .data 0x00, .byte .data 0xFF,
       .byte .data 0xFF, .byte .data 0xFF, .byte .data 0xFF, .byte .data 0x00,
       .byte .data 0x00, .byte .data 0x00, .byte .data 0x00, .byte .data 0x00,
       .byte .data 0x00, .byte .data 0xFF, .byte .data 0xFF, .byte .data 0xFF,
       .byte .data 0xFF, .byte .data 0x00, .byte .data 0x00, .byte .data 0x00,
       .byte .data 0x00, .byte .data 0x00, .byte .data 0x00, .byte .data 0xFF,
       .byte .data 0xFF, .byte .data 0xFF, .byte .data 0xFF, .byte .data 0xFF,
       .byte .data 0xFF, .byte .data 0xFF, .byte .data 0xFF, .byte .data 0xFF,
       .byte .data 0xFF, .byte .data 0xFF, .byte .data 0xFF, .byte .data 0xFF,
       .byte .data 0xFF, .byte .data 0x00, .byte .data 0x00, .byte .data 0x00,
       .byte .data 0x00, .byte .data 0x00, .byte .data 0x00, .byte .data 0xFF,
       .byte .data 0xFF, .byte .data 0xFF, .byte .data 0xFF, .byte .data 0x00,
       .byte .data 0x00, .byte .data 0x00, .byte .data 0x00, .byte .data 0x00,
       .byte .data 0x00, .byte .data 0xFF, .byte .data 0xFF, .cs .release] := by
  decide +kernel

/-- V-X3: the last cursor whose window fits, and the next one. -/
theorem test_print_char_window :
    (Outcome.left? (exec (.printChar 0x41) { ready with curX := 65531 })).map (fun s => (s.curX, s.fault))
      = some (65531, none) ∧
    (Outcome.left? (exec (.printChar 0x41) { ready with curX := 65532 })).map (fun s => (s.trace, s.fault))
      = some ([], some { kind := .windowRange, op := 0x04 }) := by
  decide +kernel

/-- V-X4: two glyphs, 166 events, the cursor at 23. -/
theorem test_print :
    leaves (.print 2 0x3000) (fun s => (s.curX, s.curY, s.trace.length)) = some (23, 46, 166) ∧
    windowsOf (.print 2 0x3000) = some 2 := by
  decide +kernel

/-- V-S6: the empty string. -/
theorem test_print_empty :
    leaves (.print 0 0x3000) (fun s => (s.curX, s.trace)) = some (11, []) := by
  decide +kernel

/-- V-X5: `-5` in 24 pixels: two spaces, a minus, a digit. -/
theorem test_print_number :
    leaves (.printNumber 0xFFFFFFFB 24) (fun s => (s.curX, s.numBuf, s.trace.length))
      = some (35, [(9, 0x2D), (10, 0x35)], 332) := by
  decide +kernel

/-- V-X5: the texts, the most negative number among them. -/
theorem test_number_text :
    numberChars 0x80000000 0 = [0x2D, 0x32, 0x31, 0x34, 0x37, 0x34, 0x38, 0x33, 0x36, 0x34, 0x38] ∧
    numberChars 42 13 = [0x20, 0x34, 0x32] ∧ numberChars 7 6 = [0x37] ∧ numberChars 7 7 = [0x20, 0x37] ∧
    numberChars 123456 12 = [0x31, 0x32, 0x33, 0x34, 0x35, 0x36] ∧
    numberChars 0 0 = [0x30] := by
  decide +kernel

/-- V-R1. -/
theorem test_draw_pixel :
    traceOf (.drawPixel 0 0 0xF800) = some
      [.cs .assert, .byte .cmd 0x2A, .byte .data 0x00, .byte .data 0x01, .byte .data 0x00,
       .byte .data 0x01, .byte .cmd 0x2B, .byte .data 0x00, .byte .data 0x1A, .byte .data 0x00,
       .byte .data 0x1A, .byte .cmd 0x2C, .byte .data 0xF8, .byte .data 0x00, .cs .release] := by
  decide +kernel

/-- V-S3, V-R5: a horizontal line from either end. -/
theorem test_draw_line_fast :
    traceOf (.drawLine 4 0 0 0 0xFFE0) = some
      [.cs .assert, .byte .cmd 0x2A, .byte .data 0x00, .byte .data 0x01, .byte .data 0x00,
       .byte .data 0x05, .byte .cmd 0x2B, .byte .data 0x00, .byte .data 0x1A, .byte .data 0x00,
       .byte .data 0x1A, .byte .cmd 0x2C, .byte .data 0xFF, .byte .data 0xE0, .byte .data 0xFF,
       .byte .data 0xE0, .byte .data 0xFF, .byte .data 0xE0, .byte .data 0xFF,
       .byte .data 0xE0, .byte .data 0xFF, .byte .data 0xE0, .cs .release] := by
  decide +kernel

/-- V-R6: the point lists of four lines, from both ends, steep or not, and through the machine. -/
theorem test_draw_line_points :
    linePoints 5 2 0 0 = [(0, 0), (1, 0), (2, 1), (3, 1), (4, 2), (5, 2)] ∧
    linePoints 0 3 3 0 = [(0, 3), (1, 2), (2, 1), (3, 0)] ∧
    linePoints 2 7 0 1 = [(0, 1), (0, 2), (1, 3), (1, 4), (1, 5), (2, 6), (2, 7)] ∧
    traceOf (.drawLine 0 0 5 2 7) = some ([(0, 0), (1, 0), (2, 1), (3, 1), (4, 2), (5, 2)].flatMap
      fun p => (pixelTransaction Config.t0 p.1 p.2 7).events Config.t0) := by
  decide +kernel

/-- P4: the four edges of an outline, 72 events, and the bytes left staged. -/
theorem test_draw_rect :
    leaves (.drawRect 0 0 3 2 0xF81F) (fun s => (s.trace.length, s.blkLen, s.rowBuf.take 6))
      = some (72, 4, [(0, 0xF8), (1, 0x1F), (2, 0xF8), (3, 0x1F), (4, 0xF8), (5, 0x1F)]) := by
  decide +kernel

/-- P5: two edges, then the fault at the left one. -/
theorem test_draw_rect_tall :
    leaves (.drawRect 0 0 3 500 0xFFFF) (fun s => (s.trace.length, s.fault, s.rowBuf.length))
      = some (38, some { kind := .rowBufOverflow, op := 0x09 }, 7) := by
  decide +kernel

/-- V-R2: the trace, and ROWBUF beyond the staged run unchanged. -/
theorem test_fill_rect :
    traceOf (.fillRect 10 5 3 2 0x07E0) = some
      [.cs .assert, .byte .cmd 0x2A, .byte .data 0x00, .byte .data 0x0B, .byte .data 0x00,
       .byte .data 0x0D, .byte .cmd 0x2B, .byte .data 0x00, .byte .data 0x1F, .byte .data 0x00,
       .byte .data 0x20, .byte .cmd 0x2C, .byte .data 0x07, .byte .data 0xE0, .byte .data 0x07,
       .byte .data 0xE0, .byte .data 0x07, .byte .data 0xE0, .byte .data 0x07,
       .byte .data 0xE0, .byte .data 0x07, .byte .data 0xE0, .byte .data 0x07,
       .byte .data 0xE0, .cs .release] ∧
    leaves (.fillRect 10 5 3 2 0x07E0) (fun s => s.rowBuf)
      = some [(0, 0x07), (1, 0xE0), (2, 0x07), (3, 0xE0), (4, 0x07), (5, 0xE0), (319, 0xBB)] := by
  decide +kernel

/-- V-R4, V-C7: one pixel too wide; the far corner just inside, just outside, and wrapped. -/
theorem test_fill_rect_limits :
    leaves (.fillRect 0 0 161 1 0) (fun s => (s.trace, s.fault))
      = some ([], some { kind := .rowBufOverflow, op := 0x0A }) ∧
    leaves (.fillRect 65534 0 1 1 0) (fun s => s.fault) = some none ∧
    leaves (.fillRect 65534 0 2 1 0) (fun s => (s.trace, s.fault))
      = some ([], some { kind := .windowRange, op := 0x0A }) ∧
    leaves (.fillRect 65535 0 2 1 0) (fun s => s.fault) = some none := by
  decide +kernel

/-- V-R8: a bitmap from HOST. -/
theorem test_draw_bitmap :
    traceOf (.drawBitmap 4 2 2 2 0x2000) = some
      [.cs .assert, .byte .cmd 0x2A, .byte .data 0x00, .byte .data 0x05, .byte .data 0x00,
       .byte .data 0x06, .byte .cmd 0x2B, .byte .data 0x00, .byte .data 0x1C, .byte .data 0x00,
       .byte .data 0x1D, .byte .cmd 0x2C, .byte .data 0xF8, .byte .data 0x00, .byte .data 0x07,
       .byte .data 0xE0, .byte .data 0x00, .byte .data 0x1F, .byte .data 0xFF,
       .byte .data 0xFF, .cs .release] := by
  decide +kernel

/-- V-R8: `2 * 182 * 181` bytes are too many for one transfer. -/
theorem test_draw_bitmap_too_long :
    leaves (.drawBitmap 0 0 182 181 0) (fun s => (s.trace, s.fault))
      = some ([], some { kind := .blockLength, op := 0x0B }) := by
  decide +kernel

/-- R161. -/
theorem test_slpout :
    traceOf .slpout = some [.byte .cmd 0x11, .delay 120] := by
  decide +kernel

/-- R168. -/
theorem test_noron :
    traceOf .noron = some [.byte .cmd 0x13, .delay 10] := by
  decide +kernel

/-- R167. -/
theorem test_invoff :
    traceOf .invoff = some [.byte .cmd 0x20, .delay 10] := by
  decide +kernel

/-- R166. -/
theorem test_invon :
    traceOf .invon = some [.byte .cmd 0x21, .delay 10] := by
  decide +kernel

/-- R169. -/
theorem test_dispon :
    traceOf .dispon = some [.byte .cmd 0x29, .delay 10] := by
  decide +kernel

/-- R162. -/
theorem test_madctl :
    traceOf .madctl = some [.byte .cmd 0x36, .byte .data 0xA8] := by
  decide +kernel

/-- R163. -/
theorem test_colmod :
    traceOf .colmod = some [.byte .cmd 0x3A, .byte .data 0x05] := by
  decide +kernel

/-- V-C6: start then end, high byte first. -/
theorem test_caset :
    traceOf (.caset 0x0102 0x0506) = some
      [.byte .cmd 0x2A, .byte .data 0x01, .byte .data 0x02, .byte .data 0x05, .byte .data 0x06] := by
  decide +kernel

/-- V-C6. -/
theorem test_raset :
    traceOf (.raset 0x0304 0x0708) = some
      [.byte .cmd 0x2B, .byte .data 0x03, .byte .data 0x04, .byte .data 0x07, .byte .data 0x08] := by
  decide +kernel

/-- R172, R103. -/
theorem test_ramwr :
    traceOf (.ramwr [0xF800, 0x001F]) = some
      [.byte .cmd 0x2C, .byte .data 0xF8, .byte .data 0x00, .byte .data 0x00, .byte .data 0x1F] := by
  decide +kernel

/-- R164. -/
theorem test_gmctrp1 :
    traceOf .gmctrp1 = some
      [.byte .cmd 0xE0, .byte .data 0x10, .byte .data 0x11, .byte .data 0x12, .byte .data 0x13,
       .byte .data 0x14, .byte .data 0x15, .byte .data 0x16, .byte .data 0x17,
       .byte .data 0x18, .byte .data 0x19, .byte .data 0x1A, .byte .data 0x1B,
       .byte .data 0x1C, .byte .data 0x1D, .byte .data 0x1E, .byte .data 0x1F] := by
  decide +kernel

/-- R165. -/
theorem test_gmctrn1 :
    traceOf .gmctrn1 = some
      [.byte .cmd 0xE1, .byte .data 0x20, .byte .data 0x21, .byte .data 0x22, .byte .data 0x23,
       .byte .data 0x24, .byte .data 0x25, .byte .data 0x26, .byte .data 0x27,
       .byte .data 0x28, .byte .data 0x29, .byte .data 0x2A, .byte .data 0x2B,
       .byte .data 0x2C, .byte .data 0x2D, .byte .data 0x2E, .byte .data 0x2F] := by
  decide +kernel

/-- V-S1, V-E5. -/
theorem test_rgb565 :
    rgb565 0xFF 0 0 = 0xF800 ∧ rgb565 0 0xFF 0 = 0x07E0 ∧ rgb565 0 0 0xFF = 0x001F ∧
    rgb565 7 3 7 = 0 ∧ rgb565 8 4 8 = 0x0821 ∧ rgb565 0x12 0x34 0x56 = 0x11AA ∧
    bgr565 0xFF 0 0 = 0x001F ∧ bgr565 0x12 0x34 0x56 = 0x51A2 := by
  decide +kernel

/-- V-T8: `tc` left set is cleared by each pass, and ends set. -/
theorem test_send_block :
    sendBlock (.rowBuf 0) 4 2 { ready with rowBuf := [(0, 7), (1, 0xE0), (2, 7), (3, 0xE0)], tc := true }
      = .done { ready with
          rowBuf := [(0, 7), (1, 0xE0), (2, 7), (3, 0xE0)], tc := true, blkLen := 4, dcLine := .data
          trace := (List.replicate 4 [.byte .data 7, .byte .data 0xE0]).flatten } := by
  decide +kernel

/-- V-T13: the engine never answers in pass 2: pass 1 and a part of pass 2. -/
theorem test_send_block_stalls :
    sendBlock (.rowBuf 0) 4 3 { ready with env := { Env.live with dma := some 1, dmaPartial := 2 } }
      = .stuck { ready with
          env := { Env.live with dma := some 0, dmaPartial := 2 }
          tc := false, blkEn := true, blkLen := 4, dcLine := .data
          trace := [.byte .data 0xAA, .byte .data 0, .byte .data 0, .byte .data 0, .byte .data 0xAA,
            .byte .data 0] } := by
  decide +kernel

/-- V-E4, P5: before INIT; a reserved encoding first. -/
theorem test_refusals :
    step { State.reset with inputs := [.request (0x0A#8 ++ 0#120)] }
      = .refused .notInitialised ∧
    step { State.reset with inputs := [.request (0x0C#8 ++ 0#120)] }
      = .refused .reservedEncoding := ⟨rfl, rfl⟩

/-! ### The step and the placing of a word -/

/-- An opcode-table word placed after reset runs as the first instruction (R109). -/
theorem test_with_fetch_word :
    (Outcome.left? (step (State.reset.withFetchWord 128 0x07000001000100000000F80000000000))).map
        (fun s => (s.trace.length, s.inputs)) = some (15, []) ∧
    (Outcome.left? (step (State.reset.withFetchWord 8 0x2A))).map (fun s => s.trace.length) = some 5 := by
  decide +kernel

/-- R113: the host's descriptor of a command byte's value is no command: `OP` 0x11 is reserved. -/
theorem test_host_cannot_name_a_command :
    decodeDescriptor (0x11#8 ++ 0#120) = .error .reservedOp ∧
    (Outcome.left? (step State.reset)).map (fun s => (s.trace, s.port)) = some ([], none) := by
  decide +kernel

/-- R280: the machine right after reset. -/
theorem test_reset :
    State.reset.seq = .idle ∧ State.reset.inited = false ∧ State.reset.fault = none ∧
      Memory.wf State.reset.host = true := by decide

/-! ### Witnesses: states and operands that meet the hypotheses of the obligations -/

/-- The environment of `ready` answers. -/
theorem ready_live : ready.env.isLive := ⟨rfl, rfl, rfl⟩

/-- `ready` with a request before it. -/
def asked (d : Descriptor) : State := { ready with inputs := [.request d] }

theorem witness_DecodeEncodeRoundTrip :
    Opcodes.wf { Opcodes.standard with slpout := 0x00, gmctrn1 := 0xFF } = true := by
  decide

/-- The least reserved `OP`, and the least reserved `RSV`. -/
theorem witness_ReservedDescriptorsRefused :
    (0x0C ≤ (Descriptor.op (0x0C#8 ++ 0#120)).toNat ∧ Descriptor.rsv (0x0C#8 ++ 0#120) = 0) ∧
    ((Descriptor.op (0x07#8 ++ 0x01#8 ++ 0#112)).toNat < 0x0C ∧ Descriptor.rsv (0x07#8 ++ 0x01#8 ++ 0#112) ≠ 0) ∧
    (asked (0x0C#8 ++ 0#120)).fault = none ∧ (asked (0x0C#8 ++ 0#120)).seq = .idle ∧
    (asked (0x0C#8 ++ 0#120)).port = none ∧
    (asked (0x0C#8 ++ 0#120)).inputs = .request (0x0C#8 ++ 0#120) :: [] := by decide

/-- V-E3: two descriptors of one pixel. -/
theorem witness_IgnoredFieldsDoNotMatter :
    let d : Descriptor := 0x07000001000100000000F80000000000
    let e : Descriptor := 0x0700000100_01DEADBEEFF80012345678
    d ≠ e ∧ d &&& Descriptor.usedBits (Descriptor.op d) = e &&& Descriptor.usedBits (Descriptor.op d) ∧
      ready.fault = none ∧ ready.seq = .idle ∧ ready.port = none := by decide

/-- A descriptor of the host's, and a frame at the model's own port, two bounds and all. -/
theorem witness_StepRunsDecoded :
    let d : Descriptor := 0x07000001000100000000F80000000000
    let s := { ready with port := some [0x2A, 0x01, 0x02, 0x05, 0x06] }
    ((asked d).fault = none ∧ (asked d).seq = .idle ∧ (asked d).port = none ∧
      (asked d).inputs = .request d :: [] ∧ decodeDescriptor d = .ok (.drawPixel 1 1 0xF800)) ∧
    s.fault = none ∧ s.seq = .idle ∧ s.port = some [0x2A, 0x01, 0x02, 0x05, 0x06] ∧
      decodeFrame s.cfg.opcodes [0x2A, 0x01, 0x02, 0x05, 0x06] = .ok (.caset 0x0102 0x0506) := by decide

/-- An empty port with a descriptor before the machine, and without INIT. -/
theorem witness_RoutinesOnlyByHostOperations :
    (asked 0x07000001000100000000F80000000000).port = none ∧ State.reset.port = none ∧
      decodeDescriptor 0x07000001000100000000F80000000000 = .ok (.drawPixel 1 1 0xF800) := by decide

theorem witness_LatchesHoldTheRequest :
    let d : Descriptor := 0x0B000004000200020002000000002000
    (asked d).fault = none ∧ (asked d).seq = .idle ∧ (asked d).port = none ∧
      (asked d).inputs = .request d :: [] := by decide

theorem witness_BusyAcceptsNothing :
    State.fault { ready with seq := .busy 2 } = none ∧ State.seq { ready with seq := .busy 2 } = .busy 2 := by
  decide

theorem witness_FaultEndsTheRun :
    State.fault { ready with fault := some { kind := .glyphIndex, op := 0x04 } }
      = some { kind := .glyphIndex, op := 0x04 } := by decide

theorem witness_FaultLeavesItsMark :
    ready.cfg.width ≤ 32767 ∧ ∃ f, exec (.fillRect 0 0 161 1 0) ready = .fault f := ⟨by decide, _, rfl⟩

/-- Each clause of InitGate that has hypotheses. -/
theorem witness_InitGate :
    (∃ t, exec .init State.reset = .next t ∧ t.seq = .idle) ∧ ready.inited = true ∧
    (Instr.isHost (.setColor 1) = true ∧ Instr.setColor 1 ≠ .init ∧ State.reset.inited = false) ∧
    ∃ r, exec (.setColor 1) State.reset = .refused r :=
  ⟨⟨_, rfl, rfl⟩, rfl, by decide, _, rfl⟩

/-- The last address of HOST. -/
theorem witness_HostOwnsItsMemory :
    let s := { ready with inputs := [.poke 0xFFFFFFFF 0x5A] }
    s.fault = none ∧ s.seq = .idle ∧ s.port = none ∧ s.inputs = .poke 0xFFFFFFFF 0x5A :: [] := by decide

theorem witness_InitResult : State.reset.env.isLive := ⟨rfl, rfl, rfl⟩

theorem witness_InitLeavesThePanelKnown :
    State.reset.env.isLive ∧ State.reset.cfg.wf = true ∧ ∃ t, exec .init State.reset = .next t :=
  ⟨⟨rfl, rfl, rfl⟩, by decide, _, rfl⟩

theorem witness_SettledCommands : ready.env.isLive := ready_live

theorem witness_ConfiguredCommands : ready.env.isLive := ready_live

theorem witness_WindowCommands : ready.env.isLive := ready_live

theorem witness_MemoryWriteCommand : ready.env.isLive := ready_live

theorem witness_ByteRoutines : ready.env.isLive := ready_live

theorem witness_GammaCommands :
    ready.env.isLive ∧ ready.cfg.gammaP.length = 16 ∧ ready.cfg.gammaN.length = 16 :=
  ⟨ready_live, rfl, rfl⟩

/-- The least and greatest lengths and counts, and the nearest ones out of range. -/
theorem witness_BlockTransferIsExact :
    ready.env.isLive ∧
    (∃ len reps, 1 ≤ len ∧ len ≤ blockLenMax ∧ 1 ≤ reps ∧ reps ≤ repeatMax ∧ len = 1 ∧ reps = 65535) ∧
    (∃ len reps, 1 ≤ len ∧ len ≤ blockLenMax ∧ 1 ≤ reps ∧ reps ≤ repeatMax ∧ len = 65535 ∧ reps = 1) ∧
    (∃ len reps, (len = 0 ∨ blockLenMax < len ∨ reps = 0 ∨ repeatMax < reps) ∧ len = 65536 ∧ reps = 1) :=
  ⟨ready_live, ⟨1, 65535, by decide⟩, ⟨65535, 1, by decide⟩, ⟨65536, 1, by decide⟩⟩

theorem witness_StalledByteEngine :
    let s := { ready with env := { Env.live with spi := some 0 } }
    s.inited = true ∧ s.fault = none ∧ s.txe = true ∧ s.env.spi = some 0 := by decide

/-- The longest run the Row Buffer takes, with `tc` left set. -/
theorem witness_StalledBlockEngine :
    let s := { ready with env := { Env.live with dma := some 0, dmaPartial := 3 }, tc := true }
    s.inited = true ∧ s.fault = none ∧ s.env.spi = none ∧ s.env.dma = some 0 ∧ s.cfg.width ≤ 32767 ∧
    (160 : Half) ≠ 0 ∧ (2 : Half) ≠ 0 ∧ beyond (offX s.cfg 0) 160 = false ∧
    beyond (offY s.cfg 0) 2 = false ∧ (160 : Half).toNat ≤ s.cfg.width := by decide

theorem witness_SetterResults : ready.inited = true := rfl

/-- A zero on either side. -/
theorem witness_ZeroSizesDoNothing :
    ready.inited = true ∧ ((0 : Half) = 0 ∨ (5 : Half) = 0) ∧ ((5 : Half) = 0 ∨ (0 : Half) = 0) := by decide

/-- The last code of the table at the last cursor whose window fits (V-X3). -/
theorem witness_PrintCharResult :
    let s := { ready with curX := 65531, curY := 65529 }
    s.inited = true ∧ s.env.isLive ∧ (255 : Byte).toNat < s.cfg.glyphCount ∧ s.curX.toNat + 4 ≤ 65535
      ∧ s.curY.toNat + 6 ≤ 65535 := ⟨rfl, ⟨rfl, rfl, rfl⟩, by decide, by decide, by decide⟩

/-- V-X4: two characters; the second ends at the last column when the cursor starts at 65525. -/
theorem witness_PrintResult :
    let s := { ready with curX := 65525 }
    s.inited = true ∧ s.env.isLive ∧ (2 : Half) ≠ 0 ∧
      ∀ i < (2 : Half).toNat, s.printable i (s.host.read (hostAddr 0x3000 i)) := by
  refine ⟨rfl, ⟨rfl, rfl, rfl⟩, by decide, ?_⟩
  simp only [State.printable]
  decide

/-- Each premise of NumberTextIsTheNumber inside its clauses: a number that is not 0, a padded one. -/
theorem witness_NumberTextIsTheNumber :
    (0xFFFFFFFB : Addr) ≠ 0 ∧ (numberText 0xFFFFFFFB)[1]? = some 0x35 ∧
      1 + (numberText 0xFFFFFFFB).length < (numberChars 0xFFFFFFFB 24).length ∧
      (numberChars 0xFFFFFFFB 24)[1]? = some 0x20 := by decide

theorem witness_PrintNumberResult :
    ready.inited = true ∧ ready.env.isLive ∧
      ∀ i ch, (numberChars 0xFFFFFFFB 24)[i]? = some ch → ready.printable i ch := by
  refine ⟨rfl, ready_live, fun i ch h => ?_⟩
  have hi : i < 4 := (List.getElem?_eq_some_iff.mp h).1
  have hx : ∀ i < 4, beyond (ready.curX + u16 (cellW * i)) glyphW = false := by decide
  exact ⟨show ch.toNat < 256 from ch.isLt, hx i hi, by decide⟩

/-- Each clause of GlyphFaults at its boundary (V-X3). -/
theorem witness_GlyphFaults :
    let s := { ready with cfg := { ready.cfg with glyphCount := 128 } }
    s.inited = true ∧ s.cfg.glyphCount ≤ (0x80 : Byte).toNat ∧ (0x7F : Byte).toNat < s.cfg.glyphCount ∧
    65535 < (65532 : Half).toNat + 4 ∧ 65535 < (65530 : Half).toNat + 6 := by decide

/-- The second character's window passes column 65535 when the cursor starts at 65526. -/
theorem witness_PrintFaultsAtItsCharacter :
    let s := { ready with curX := 65526 }
    s.inited = true ∧ s.env.isLive ∧ 1 < (2 : Half).toNat ∧
      (∀ i < 1, s.printable i (s.host.read (hostAddr 0x3000 i))) ∧
      ¬ s.printable 1 (s.host.read (hostAddr 0x3000 1)) := by
  refine ⟨rfl, ⟨rfl, rfl, rfl⟩, by decide, ?_⟩
  simp only [State.printable]
  decide

/-- A number's clause: a table that ends before the digit 5, after two spaces and a minus. -/
theorem witness_PrintFaultsAtItsCharacter_number :
    let s := { ready with cfg := { ready.cfg with glyphCount := 0x35 } }
    s.inited = true ∧ s.env.isLive ∧
      (∀ i < 3, ∀ c, (numberChars 0xFFFFFFFB 24)[i]? = some c → s.printable i c) ∧
      (numberChars 0xFFFFFFFB 24)[3]? = some 0x35 ∧ ¬ s.printable 3 0x35 := by
  have chars : numberChars 0xFFFFFFFB 24 = [0x20, 0x20, 0x2D, 0x35] := by decide
  refine ⟨rfl, ⟨rfl, rfl, rfl⟩, fun i hi c h => ?_, by rw [chars]; rfl, fun h => absurd h.1 (by decide)⟩
  rw [chars] at h
  match i, hi with
  | 0, _ => cases h; exact ⟨by decide, by decide, by decide⟩
  | 1, _ => cases h; exact ⟨by decide, by decide, by decide⟩
  | 2, _ => cases h; exact ⟨by decide, by decide, by decide⟩

theorem witness_DrawPixelResult : ready.inited = true ∧ ready.env.isLive := ⟨rfl, ready_live⟩

theorem witness_RasterFrame :
    Instr.isRaster (.fillRect 10 5 3 2 0x07E0) = true ∧
      Instr.stagedBytes (.fillRect 10 5 3 2 0x07E0) ≤ 6 := by decide

/-- Each clause of TextFrame. -/
theorem witness_TextFrame :
    Instr.isText (.setColor 0) = true ∧ (∀ x y, Instr.setColor 0 ≠ .setCursor x y) ∧
    (∀ c, Instr.setCursor 0 0 ≠ .setColor c) ∧ (∀ c, Instr.setColor 0 ≠ .setBgColor c) ∧
    (∀ len addr, Instr.setColor 0 ≠ .print len addr) ∧
    (∀ n width, Instr.setColor 0 ≠ .printNumber n width) ∧ glyphBufCap ≤ 70 ∧
    9 < 11 - (numberText 5).length :=
  ⟨rfl, nofun, nofun, nofun, nofun, nofun, by decide, by decide⟩

theorem witness_ProtocolFrame :
    (Instr.init = .init ∨ Instr.isHost .init = false) ∧
    (Instr.slpout = .init ∨ Instr.isHost .slpout = false) ∧
    Instr.slpout ≠ .init ∧ Instr.slpout ≠ .gmctrp1 ∧ Instr.slpout ≠ .gmctrn1 := by decide

/-- The clause on an INIT that hangs, here at its first delay: `inited` stays false (R42). -/
theorem witness_ProtocolFrame_hung :
    let s := { State.reset with env := { Env.live with timer := some 0 } }
    ∃ t, exec .init s = .next t ∧ t.seq ≠ .idle ∧ t.inited = false := ⟨_, rfl, by decide, rfl⟩

theorem witness_PlanDecidesTheTrace : ready.cfg.width ≤ 32767 := by decide

theorem witness_NoChipSelectLine : ready.env.isLive ∧ ready.cfg.width ≤ 32767 := ⟨ready_live, by decide⟩

/-- As wide as the panel, with the far corners at 65535. -/
theorem witness_FillRectResult :
    ready.inited = true ∧ ready.env.isLive ∧ ready.cfg.width ≤ 32767 ∧ (160 : Half) ≠ 0 ∧ (2 : Half) ≠ 0 ∧
    (160 : Half).toNat ≤ ready.cfg.width ∧ (offX ready.cfg 65375).toNat + (160 : Half).toNat - 1 = 65535 ∧
    (offY ready.cfg 65508).toNat + (2 : Half).toNat - 1 = 65535 := ⟨rfl, ready_live, by decide⟩

theorem witness_DrawRectResult :
    ready.inited = true ∧ ready.env.isLive ∧ ready.cfg.width ≤ 32767 ∧ (3 : Half) ≠ 0 ∧ (160 : Half) ≠ 0 ∧
    (3 : Half).toNat ≤ ready.cfg.width ∧ (160 : Half).toNat ≤ ready.cfg.width ∧
    (offX ready.cfg 65532).toNat + (3 : Half).toNat - 1 = 65535 ∧
    (offY ready.cfg 65350).toNat + (160 : Half).toNat - 1 = 65535 := ⟨rfl, ready_live, by decide⟩

/-- A bitmap of 65534 bytes, wider than the panel. -/
theorem witness_DrawBitmapResult :
    ready.inited = true ∧ ready.env.isLive ∧ (217 : Half) ≠ 0 ∧ (151 : Half) ≠ 0 ∧
    2 * (217 : Half).toNat * (151 : Half).toNat = 65534 ∧
    (offX ready.cfg 0).toNat + (217 : Half).toNat - 1 ≤ 65535 ∧
    (offY ready.cfg 0).toNat + (151 : Half).toNat - 1 ≤ 65535 := ⟨rfl, ready_live, by decide⟩

/-- A vertical and a horizontal line as long as the panel is wide, ending at 65535. -/
theorem witness_AxisLineResult :
    ready.inited = true ∧ ready.env.isLive ∧ ready.cfg.width ≤ 32767 ∧
    (span 65509 65350 + 1 ≤ ready.cfg.width ∧
      (offY ready.cfg (lower 65509 65350)).toNat + span 65509 65350 = 65535) ∧
    (span 65375 65534 + 1 ≤ ready.cfg.width ∧ (65375 : Half) ≠ 65534 ∧
      (offX ready.cfg (lower 65375 65534)).toNat + span 65375 65534 = 65535) := ⟨rfl, ready_live, by decide⟩

theorem witness_ObliqueLinePoints : (0 : Half) ≠ 5 ∧ (65535 : Half) ≠ 2 := by decide

theorem witness_ObliqueLineResult :
    ready.inited = true ∧ ready.env.isLive ∧ (0 : Half) ≠ 5 ∧ (0 : Half) ≠ 2 := ⟨rfl, ready_live, by decide⟩

/-- Each clause of RectangleFaults at its boundary (V-C7, V-R4, V-R8). -/
theorem witness_RectangleFaults :
    ready.inited = true ∧ (2 : Half) ≠ 0 ∧ (1 : Half) ≠ 0 ∧
    65535 < (offX ready.cfg 65534).toNat + (2 : Half).toNat - 1 ∧
    65535 < (offY ready.cfg 65509).toNat + (2 : Half).toNat - 1 ∧
    ((offX ready.cfg 0).toNat + (161 : Half).toNat - 1 ≤ 65535 ∧
      (offY ready.cfg 0).toNat + (1 : Half).toNat - 1 ≤ 65535 ∧ ready.cfg.width < (161 : Half).toNat) ∧
    ((offX ready.cfg 0).toNat + (256 : Half).toNat - 1 ≤ 65535 ∧
      (offY ready.cfg 0).toNat + (128 : Half).toNat - 1 ≤ 65535 ∧
      65535 < 2 * (256 : Half).toNat * (128 : Half).toNat) := by decide

/-- Each clause of AxisLineFaults at its boundary. -/
theorem witness_AxisLineFaults :
    ready.inited = true ∧
    65535 < (offY ready.cfg (lower 65500 65510)).toNat + span 65500 65510 ∧
    ((offY ready.cfg (lower 0 160)).toNat + span 0 160 ≤ 65535 ∧ ready.cfg.width < span 0 160 + 1) ∧
    ((65534 : Half) ≠ 65535 ∧ 65535 < (offX ready.cfg (lower 65534 65535)).toNat + span 65534 65535) ∧
    ((160 : Half) ≠ 0 ∧ (offX ready.cfg (lower 160 0)).toNat + span 160 0 ≤ 65535 ∧
      ready.cfg.width < span 160 0 + 1) := by decide

/-- Each clause of DrawRectFaultKeepsItsEdges at its boundary: the far column, the width, the far row, the
height, and none of them. -/
theorem witness_DrawRectFaultKeepsItsEdges :
    ready.inited = true ∧ ready.env.isLive ∧ ready.cfg.width ≤ 32767 ∧ (160 : Half) ≠ 0 ∧ (161 : Half) ≠ 0 ∧
    65535 < (offX ready.cfg 65375).toNat + (161 : Half).toNat - 1 ∧
    ((offX ready.cfg 65374).toNat + (161 : Half).toNat - 1 ≤ 65535 ∧
      ready.cfg.width < (161 : Half).toNat) ∧
    ((160 : Half).toNat ≤ ready.cfg.width ∧ (offX ready.cfg 65375).toNat + (160 : Half).toNat - 1 ≤ 65535 ∧
      65535 < (offY ready.cfg 65350).toNat + (161 : Half).toNat - 1 ∧
      ready.cfg.width < (161 : Half).toNat ∧
      (offY ready.cfg 65350).toNat + (160 : Half).toNat - 1 ≤ 65535) := ⟨rfl, ready_live, by decide⟩

/-- A state with the invariant that is not the reset state: a request waits. -/
theorem witness_StepKeepsInv : (asked 0x07000001000100000000F80000000000).Inv := by
  refine ⟨by decide, ⟨by decide, by decide, by decide, by decide, by decide⟩, ⟨?_, ?_, ?_⟩⟩ <;> decide

/-- Another legal configuration than T0's, for ResetInv. -/
theorem witness_ResetInv : Config.wf { Config.t0 with width := 1, useCs := false } = true := by decide

theorem witness_LiveOperationsEnd :
    ready.env.isLive ∧ ready.cfg.width ≤ 32767 ∧ ready.inited = true ∧
      (plan (.fillRect 10 5 3 2 0x07E0) ready).fault = none := ⟨ready_live, by decide, rfl, by decide⟩

theorem witness_StuckForEver :
    let s := { ready with env := { Env.live with timer := some 0 } }
    s.fault = none ∧ ∃ t, exec .slpout s = .next t ∧ t.seq ≠ .idle := ⟨rfl, _, rfl, by decide⟩

theorem witness_OnlyTheTwelveCommands :
    (Outcome.left? (step (asked 0x07000001000100000000F80000000000))).map
      (fun t => decide (Event.byte .cmd 0x2C ∈ t.trace.drop 0)) = some true := by
  decide +kernel

theorem witness_TransactionsFillTheirWindows :
    (Instr.isRaster (.drawBitmap 4 2 2 2 0x2000) = true ∧ Instr.isText (.print 2 0x3000) = true) ∧
    ready.inited = true ∧ ready.env.isLive ∧ ready.cfg.width ≤ 32767 :=
  ⟨by decide, rfl, ready_live, by decide⟩

/-- A known panel of T0, a rectangle that reaches its last column, and its cells in order. -/
theorem witness_FillEqualsPixels :
    let s := { ready with
      panel := { Panel.spoiled with
        status := .known, regs := { PanelRegs.blank with colmod := some 0x05 } } }
    s.inited = true ∧ s.env.isLive ∧ s.cfg.wf = true ∧ s.panel.status = .known ∧
    s.panel.regs.colmod = some s.cfg.colmodValue ∧ (2 : Half) ≠ 0 ∧ (3 : Half) ≠ 0 ∧
    (2 : Half).toNat ≤ s.cfg.width ∧
    (offX s.cfg 159).toNat + (2 : Half).toNat = min 65536 s.cfg.gramCols ∧
    (offY s.cfg 103).toNat + (3 : Half).toNat = min 65536 s.cfg.gramRows ∧
    (grid 2 3).reverse.Perm (grid (2 : Half).toNat (3 : Half).toNat) :=
  ⟨rfl, ⟨rfl, rfl, rfl⟩, by decide, rfl, rfl, by decide, by decide, by decide, by decide, by decide,
    List.reverse_perm _⟩

/-- Two states that differ in what is left in the buffers, the flags and the lines. -/
theorem witness_StaleStateIsNotSent :
    let t := { ready with rowBuf := [(0, 1)], glyphBuf := [(0, 1)], tc := true, dcLine := .data }
    ready.env.isLive ∧ t.env.isLive ∧ ready.cfg.width ≤ 32767 ∧ t.cfg = ready.cfg ∧ t.curX = ready.curX ∧
    t.curY = ready.curY ∧ t.color = ready.color ∧ t.bgColor = ready.bgColor ∧ t.inited = ready.inited ∧
    t.host = ready.host ∧ t ≠ ready :=
  ⟨ready_live, ⟨rfl, rfl, rfl⟩, by decide, rfl, rfl, rfl, rfl, rfl, rfl, rfl, by decide⟩

end Sys2Proof.Tests
end

section
/-! PROOFS. What one step can do: the host's move it takes, and what an operation leaves of the state
(10_state.md R41, R109, 60_exceptions.md R255 to R257). -/

namespace Sys2Proof.Machine

/-! ### The step, by what the machine finds -/

/-- A recorded fault is answered again (R256). -/
theorem step_of_fault {s : State} {f : FaultRecord} (hf : s.fault = some f) :
    step s = .fault (Fault.of f.kind f.op s) := by
  simp [step, fetch, hf]

/-- A busy machine stays as it is (R255). -/
theorem step_of_busy {s : State} {k : Nat} (hf : s.fault = none) (hq : s.seq = .busy k) :
    step s = .next s := by
  simp [step, fetch, hf, hq]

section Idle

variable {s : State} (hf : s.fault = none) (hq : s.seq = .idle)
include hf hq

theorem step_of_frame {bytes : List Byte} {i : Instr} (hp : s.port = some bytes)
    (hd : decodeFrame s.cfg.opcodes bytes = .ok i) : step s = exec i { s with port := none } := by
  simp [step, fetch, hf, hq, hp, acceptFrame, hd]

theorem step_of_reserved_frame {bytes : List Byte} {e : Reject} (hp : s.port = some bytes)
    (hd : decodeFrame s.cfg.opcodes bytes = .error e) : step s = .refused (refusalOf e) := by
  simp [step, fetch, hf, hq, hp, acceptFrame, hd]

variable (hp : s.port = none)
include hp

theorem step_of_no_input (hi : s.inputs = []) : step s = .next s := by
  simp [step, fetch, hf, hq, hp, takeMove, hi]

theorem step_of_poke {a : Addr} {v : Byte} {rest : List HostMove} (hi : s.inputs = .poke a v :: rest) :
    step s = .next (pokeHost a v { s with inputs := rest }) := by
  simp [step, fetch, hf, hq, hp, takeMove, hi]

theorem step_of_request {d : Descriptor} {rest : List HostMove} {i : Instr}
    (hi : s.inputs = .request d :: rest) (hd : decodeDescriptor d = .ok i) :
    step s = exec i (latch d { s with inputs := rest }) := by
  simp [step, fetch, hf, hq, hp, takeMove, hi, acceptRequest, hd]

theorem step_of_reserved_request {d : Descriptor} {rest : List HostMove} {e : Reject}
    (hi : s.inputs = .request d :: rest) (hd : decodeDescriptor d = .error e) :
    step s = .refused (refusalOf e) := by
  simp [step, fetch, hf, hq, hp, takeMove, hi, acceptRequest, hd]

end Idle

/-! ### A frame at the port is a panel command (R113) -/

theorem eq_of_bareFrame {i j : Instr} {bytes : List Byte} (h : bareFrame i bytes = .ok j) : j = i := by
  cases bytes with
  | nil => cases h; rfl
  | cons b rest => cases h

theorem exists_of_boundsFrame {f : Half → Half → Instr} {bytes : List Byte} {j : Instr}
    (h : boundsFrame f bytes = .ok j) : ∃ a b, j = f a b := by
  unfold boundsFrame at h
  split at h
  · cases h; exact ⟨_, _, rfl⟩
  · cases h

theorem exists_of_payloadFrame {bytes : List Byte} {j : Instr} (h : payloadFrame bytes = .ok j) :
    ∃ ps, j = .ramwr ps := by
  unfold payloadFrame at h
  split at h
  · cases h; exact ⟨_, rfl⟩
  · cases h

theorem isHost_of_decodeFrame {o : Opcodes} {bytes : List Byte} {i : Instr}
    (h : decodeFrame o bytes = .ok i) : i.isHost = false := by
  cases bytes with
  | nil => cases h
  | cons b rest =>
    cases hk : o.find? b with
    | none => simp [decodeFrame, hk] at h
    | some k =>
      simp only [decodeFrame, hk] at h
      cases k with
      | caset | raset => obtain ⟨_, _, rfl⟩ := exists_of_boundsFrame h; rfl
      | ramwr => obtain ⟨_, rfl⟩ := exists_of_payloadFrame h; rfl
      | _ => cases eq_of_bareFrame h; rfl

/-! ### A predicate on what a step leaves -/

/-- What holds of the state itself, after a poke, and of what every accepted instruction leaves, holds of
what the step leaves. -/
theorem step_onLeft {s : State} {p : State → Prop} (stay : p s)
    (poke : ∀ a v rest, s.inputs = .poke a v :: rest → p (pokeHost a v { s with inputs := rest }))
    (frame : ∀ i, i.isHost = false → Outcome.onLeft (exec i { s with port := none }) p)
    (request : ∀ d rest i, s.inputs = .request d :: rest → decodeDescriptor d = .ok i →
      Outcome.onLeft (exec i (latch d { s with inputs := rest })) p) :
    Outcome.onLeft (step s) p := by
  cases hf : s.fault with
  | some f =>
    rw [step_of_fault hf]
    show p (Fault.of f.kind f.op s).left
    rwa [Fault.left_of]
  | none =>
    cases hq : s.seq with
    | busy k => rwa [step_of_busy hf hq]
    | idle =>
      cases hp : s.port with
      | some bytes =>
        cases hd : decodeFrame s.cfg.opcodes bytes with
        | ok i =>
          rw [step_of_frame hf hq hp hd]
          exact frame i (isHost_of_decodeFrame hd)
        | error e =>
          rw [step_of_reserved_frame hf hq hp hd]
          trivial
      | none =>
        match hi : s.inputs with
        | [] => rwa [step_of_no_input hf hq hp hi]
        | .poke a v :: rest =>
          rw [step_of_poke hf hq hp hi]
          exact poke a v rest hi
        | .request d :: rest =>
          cases hd : decodeDescriptor d with
          | ok i =>
            rw [step_of_request hf hq hp hi hd]
            exact request d rest i hi hd
          | error e =>
            rw [step_of_reserved_request hf hq hp hi hd]
            trivial

/-! ### A predicate on what an instruction leaves -/

theorem runOperation_onLeft {op : Byte} {body : State → Run} {s : State} {p : State → Prop}
    (h : (body { s with seq := .busy 0 }).Leaves p) (hseq : ∀ t q, p t → p { t with seq := q })
    (hfault : ∀ t f, p t → p { t with fault := f }) : Outcome.onLeft (runOperation op body s) p := by
  cases hr : body { s with seq := .busy 0 } with
  | done t =>
    rw [runOperation_done hr]
    rw [hr] at h
    exact hseq t _ h
  | stuck t =>
    rw [runOperation_stuck hr]
    rwa [hr] at h
  | raised k t =>
    rw [runOperation_raised hr]
    rw [hr] at h
    show p (Fault.left _)
    rw [Fault.left_of]
    exact hfault t _ h

/-- A predicate that reads neither the position nor the fault record holds of what an instruction leaves
when its micro-sequence keeps it. -/
theorem exec_onLeft {i : Instr} {s : State} {p : State → Prop}
    (h : (bodyOf i { s with seq := .busy 0 }).Leaves p) (hseq : ∀ t q, p t → p { t with seq := q })
    (hfault : ∀ t f, p t → p { t with fault := f }) : Outcome.onLeft (exec i s) p := by
  by_cases hg : gated i s
  · rw [exec_gated hg]
    trivial
  · rw [exec_open hg]
    exact runOperation_onLeft h hseq hfault

theorem runOperation_ne_refused (op : Byte) (body : State → Run) (s : State) (r : Refusal) :
    runOperation op body s ≠ .refused r := by
  cases hr : body { s with seq := .busy 0 } with
  | done t => rw [runOperation_done hr]; exact nofun
  | stuck t => rw [runOperation_stuck hr]; exact nofun
  | raised k t => rw [runOperation_raised hr]; exact nofun

/-- The one refusal of an instruction is the gate of R42. -/
theorem exec_eq_refused_iff {i : Instr} {s : State} {r : Refusal} :
    exec i s = .refused r ↔ gated i s ∧ r = .notInitialised := by
  by_cases hg : gated i s
  · rw [exec_gated hg]
    exact ⟨fun h => by cases h; exact ⟨hg, rfl⟩, fun h => by rw [h.2]⟩
  · rw [exec_open hg]
    exact ⟨fun h => absurd h (runOperation_ne_refused _ _ _ _), fun h => absurd h.1 hg⟩

/-! ### The kinds of instruction -/

/-- The four kinds of instruction (R104, R110). -/
theorem instr_kinds (i : Instr) :
    i = .init ∨ i.isRaster = true ∨ i.isText = true ∨ i.isHost = false := by
  cases i <;> simp [Instr.isRaster, Instr.isText, Instr.isHost]

theorem body_rowOnly {i : Instr} (hi : i.isRaster = true) (s : State) :
    (bodyOf i s).Leaves (RowOnly s) := by
  cases i with
  | drawPixel x y c => exact (pixel_wire x y c s).mono fun _ => RowOnly.of_wire
  | drawLine x0 y0 x1 y1 c => exact drawLine_rowOnly x0 y0 x1 y1 c s
  | drawRect x y w h c => exact drawRect_rowOnly x y w h c s
  | fillRect x y w h c => exact fillRect_rowOnly x y w h c s
  | drawBitmap x y w h p => exact (drawBitmap_wire x y w h p s).mono fun _ => RowOnly.of_wire
  | _ => cases hi

/-- A panel command on its own is the Transport's alone. -/
theorem body_wire_of_command {i : Instr} (hi : i.isHost = false) (s : State) :
    (bodyOf i s).Leaves (Wire s) := by
  cases i with
  | slpout | noron | invoff | invon | dispon => exact settledCommand_wire _ _ s
  | madctl | colmod => exact configuredCommand_wire _ _ s
  | gmctrp1 | gmctrn1 => exact gammaCommand_wire _ _ s
  | caset a b => exact casetFrame_wire a b s
  | raset a b => exact rasetFrame_wire a b s
  | ramwr ps => exact ramwrFrame_wire ps s
  | _ => cases hi

end Sys2Proof.Machine
end

section
/-! PROOFS. Who writes what: the frames of the operations, in every environment and however they end
(10_state.md R20, 42_rasterizer.md R192, 43_text_engine.md R224 to R230). -/

namespace Sys2Proof.Machine

theorem Run.Leaves.and {r : Run} {p q : State → Prop} (h : r.Leaves p) (k : r.Leaves q) :
    r.Leaves fun t => p t ∧ q t := by
  cases r <;> exact ⟨h, k⟩

/-! ### ROWBUF beyond the staged bytes -/

/-- ROWBUF is as it was from byte `n` on. -/
def RowBeyond (n : Nat) (s t : State) : Prop := ∀ a, n ≤ a → t.rowBuf.read a = s.rowBuf.read a

theorem RowBeyond.andThen {n : Nat} {s : State} {r : Run} {f : State → Run}
    (h : r.Leaves (RowBeyond n s)) (k : ∀ t, (f t).Leaves (RowBeyond n t)) :
    (r.andThen f).Leaves (RowBeyond n s) :=
  Run.Leaves.andThen (rel := RowBeyond n) (fun h k a ha => (k a ha).trans (h a ha)) h fun t _ => k t

theorem RowBeyond.mono {m n : Nat} (hmn : m ≤ n) {s t : State} (h : RowBeyond m s t) :
    RowBeyond n s t := fun a ha => h a (hmn.trans ha)

theorem RowBeyond.of_wire {n : Nat} {s t : State} (h : Wire s t) : RowBeyond n s t :=
  fun _ _ => by rw [h.rowBuf]

theorem staged_rowBeyond (c : Half) (n : Nat) (x0 y0 x1 y1 : Half) (reps : Nat) (s : State) :
    ((stageRun c n s).andThen fun s =>
      blockTransaction x0 y0 x1 y1 (.rowBuf 0) (2 * n) reps s).Leaves (RowBeyond (2 * n) s) := by
  rcases stageRun_cases c n s with ⟨_, h⟩ | ⟨_, h⟩
  · rw [h]
    exact fun _ _ => rfl
  · rw [h]
    refine (blockTransaction_wire _ _ _ _ _ _ _ _).mono fun t ht a ha => ?_
    rw [ht.rowBuf]
    exact (stagePixels_read c n s.rowBuf a).trans (if_neg (Nat.not_lt.mpr ha))

theorem fillRect_rowBeyond (x y w h c : Half) (s : State) :
    (fillRect x y w h c s).Leaves (RowBeyond (Instr.fillRect x y w h c).stagedBytes s) := by
  simp only [fillRect, Instr.stagedBytes]
  split
  · exact fun _ _ => rfl
  · split
    · exact fun _ _ => rfl
    · exact staged_rowBeyond c w.toNat _ _ _ _ _ s

theorem fastHLine_rowBeyond (x y : Half) (len : Nat) (c : Half) (s : State) :
    (fastHLine x y len c s).Leaves (RowBeyond (2 * len) s) := by
  unfold fastHLine
  split
  · exact fun _ _ => rfl
  · simp only
    split
    · exact fun _ _ => rfl
    · exact staged_rowBeyond c len _ _ _ _ _ s

theorem fastVLine_rowBeyond (x y : Half) (len : Nat) (c : Half) (s : State) :
    (fastVLine x y len c s).Leaves (RowBeyond (2 * len) s) := by
  unfold fastVLine
  split
  · exact fun _ _ => rfl
  · simp only
    split
    · exact fun _ _ => rfl
    · exact staged_rowBeyond c len _ _ _ _ _ s

/-- The four sides stage at most the longer of them (R200). -/
theorem drawRect_rowBeyond (x y w h c : Half) (s : State) :
    (drawRect x y w h c s).Leaves (RowBeyond (Instr.drawRect x y w h c).stagedBytes s) := by
  simp only [drawRect, Instr.stagedBytes]
  split
  · exact fun _ _ => rfl
  · have hLine : ∀ y s, (fastHLine x y w.toNat c s).Leaves (RowBeyond (2 * max w.toNat h.toNat) s) :=
      fun y s => (fastHLine_rowBeyond x y w.toNat c s).mono fun _ => RowBeyond.mono (by omega)
    have vLine : ∀ x s, (fastVLine x y h.toNat c s).Leaves (RowBeyond (2 * max w.toNat h.toNat) s) :=
      fun x s => (fastVLine_rowBeyond x y h.toNat c s).mono fun _ => RowBeyond.mono (by omega)
    exact RowBeyond.andThen (hLine _ s) fun t => RowBeyond.andThen (hLine _ t) fun u =>
      RowBeyond.andThen (vLine _ u) fun v => vLine _ v

theorem drawLine_rowBeyond (x0 y0 x1 y1 c : Half) (s : State) :
    (drawLine x0 y0 x1 y1 c s).Leaves (RowBeyond (Instr.drawLine x0 y0 x1 y1 c).stagedBytes s) := by
  simp only [drawLine, Instr.stagedBytes]
  split
  · exact fastVLine_rowBeyond _ _ _ _ s
  · split
    · exact fastHLine_rowBeyond _ _ _ _ s
    · exact (bresenham_wire _ _ _ _ _ s).mono fun _ => RowBeyond.of_wire

theorem body_rowBeyond {i : Instr} (hi : i.isRaster = true) (s : State) :
    (bodyOf i s).Leaves (RowBeyond i.stagedBytes s) := by
  cases i with
  | drawPixel x y c => exact (pixel_wire x y c s).mono fun _ => RowBeyond.of_wire
  | drawLine x0 y0 x1 y1 c => exact drawLine_rowBeyond x0 y0 x1 y1 c s
  | drawRect x y w h c => exact drawRect_rowBeyond x y w h c s
  | fillRect x y w h c => exact fillRect_rowBeyond x y w h c s
  | drawBitmap x y w h p => exact (drawBitmap_wire x y w h p s).mono fun _ => RowBeyond.of_wire
  | _ => cases hi

/-! ### GLYPHBUF beyond its space -/

/-- GLYPHBUF is as it was beyond its 70 bytes (R224). -/
def GlyphBeyond (s t : State) : Prop :=
  ∀ a, glyphBufCap ≤ a → t.glyphBuf.read a = s.glyphBuf.read a

theorem GlyphBeyond.andThen {s : State} {r : Run} {f : State → Run}
    (h : r.Leaves (GlyphBeyond s)) (k : ∀ t, (f t).Leaves (GlyphBeyond t)) :
    (r.andThen f).Leaves (GlyphBeyond s) :=
  Run.Leaves.andThen (rel := GlyphBeyond) (fun h k a ha => (k a ha).trans (h a ha)) h fun t _ => k t

theorem glyph_glyphBeyond (ch : Byte) (s : State) : (glyph ch s).Leaves (GlyphBeyond s) := by
  unfold glyph
  split
  · exact fun _ _ => rfl
  · split
    · exact fun _ _ => rfl
    · refine (blockTransaction_wire _ _ _ _ _ _ _ _).mono fun t ht a ha => ?_
      rw [ht.glyphBuf]
      exact (stageGlyph_read s ch _ s.glyphBuf a).trans (if_neg (Nat.not_lt.mpr ha))

theorem printSeq_glyphBeyond (ch : State → Nat → Byte) (n : Nat) (s : State) :
    (printSeq ch n s).Leaves (GlyphBeyond s) := by
  induction n with
  | zero => exact fun _ _ => rfl
  | succ n ih =>
    exact GlyphBeyond.andThen ih fun t =>
      GlyphBeyond.andThen (glyph_glyphBeyond _ t) fun _ _ _ => rfl

theorem printNumber_glyphBeyond (n : Addr) (width : Half) (s : State) :
    (printNumber n width s).Leaves (GlyphBeyond s) :=
  GlyphBeyond.andThen (s := s)
    (printSeq_glyphBeyond _ _ { s with numBuf := (formatNumber n s.numBuf).2 })
    fun t => printSeq_glyphBeyond _ _ t

/-! ### What a text operation writes besides DeviceState -/

/-- A text operation keeps `inited`, the reset line, the free values and ROWBUF; GLYPHBUF is its own up
to its 70 bytes, and NUMBUF is written by the formatting of PRINT_NUMBER alone (R230). -/
structure TextWrites (i : Instr) (s t : State) : Prop where
  inited : t.inited = s.inited
  rstLine : t.rstLine = s.rstLine
  freeCount : t.freeCount = s.freeCount
  rowBuf : t.rowBuf = s.rowBuf
  glyphBuf : GlyphBeyond s t
  numBuf : (∀ n width, i ≠ .printNumber n width) → t.numBuf = s.numBuf
  formatted : ∀ n width, i = .printNumber n width → t.numBuf = (formatNumber n s.numBuf).2

theorem TextWrites.of_textOnly {i : Instr} {s t : State} (hi : ∀ n width, i ≠ .printNumber n width)
    (h : TextOnly s t) (hb : GlyphBeyond s t) : TextWrites i s t :=
  ⟨h.wire.inited, h.wire.rstLine, h.wire.freeCount, h.wire.rowBuf, hb, fun _ => h.wire.numBuf,
    fun n width e => absurd e (hi n width)⟩

theorem body_textWrites {i : Instr} (hi : i.isText = true) (s : State) :
    (bodyOf i s).Leaves (TextWrites i s) := by
  cases i with
  | setCursor x y | setColor c | setBgColor c =>
    exact ⟨rfl, rfl, rfl, rfl, fun _ _ => rfl, fun _ => rfl, nofun⟩
  | printChar ch =>
    exact ((glyph_textOnly ch s).and (glyph_glyphBeyond ch s)).mono fun t ⟨⟨ht, _⟩, hb⟩ =>
      TextWrites.of_textOnly nofun ht hb
  | print len addr =>
    exact ((printSeq_textOnly _ _ s).and (printSeq_glyphBeyond _ _ s)).mono fun t ⟨ht, hb⟩ =>
      TextWrites.of_textOnly nofun ht hb
  | printNumber n width =>
    refine ((printNumber_only n width s).and (printNumber_glyphBeyond n width s)).mono
      fun t ⟨⟨ht, hn⟩, hb⟩ => ?_
    have w := ht.text.wire
    refine ⟨w.inited, w.rstLine, w.freeCount, w.rowBuf, hb, fun h => absurd rfl (h n width), ?_⟩
    rintro _ _ ⟨⟩
    exact hn
  | _ => cases hi

/-! ### DeviceState -/

/-- Who writes DeviceState (R20, R227): of the cursor's column, its row and the colours, each is as it was
or the instruction is one that writes it. -/
structure DeviceWrites (i : Instr) (s t : State) : Prop where
  curX : t.curX = s.curX ∨ i = .init ∨ (∃ x y, i = .setCursor x y) ∨ (∃ len addr, i = .print len addr) ∨
    ∃ n width, i = .printNumber n width
  curY : t.curY = s.curY ∨ i = .init ∨ ∃ x y, i = .setCursor x y
  color : t.color = s.color ∨ i = .init ∨ ∃ c, i = .setColor c
  bgColor : t.bgColor = s.bgColor ∨ i = .init ∨ ∃ c, i = .setBgColor c

theorem DeviceWrites.init (s t : State) : DeviceWrites .init s t :=
  ⟨.inr (.inl rfl), .inr (.inl rfl), .inr (.inl rfl), .inr (.inl rfl)⟩

theorem DeviceWrites.of_wire {i : Instr} {s t : State} (h : Wire s t) : DeviceWrites i s t :=
  ⟨.inl h.curX, .inl h.curY, .inl h.color, .inl h.bgColor⟩

theorem DeviceWrites.of_rowOnly {i : Instr} {s t : State} (h : RowOnly s t) : DeviceWrites i s t :=
  ⟨.inl h.wire.curX, .inl h.wire.curY, .inl h.wire.color, .inl h.wire.bgColor⟩

/-- A printing operation writes the column alone. -/
theorem DeviceWrites.of_textOnly {i : Instr} {s t : State} (h : TextOnly s t)
    (hx : t.curX = s.curX ∨ (∃ len addr, i = .print len addr) ∨ ∃ n width, i = .printNumber n width) :
    DeviceWrites i s t :=
  ⟨hx.imp_right fun e => .inr (.inr e), .inl h.wire.curY, .inl h.wire.color, .inl h.wire.bgColor⟩

theorem body_deviceWrites_of_text {i : Instr} (hi : i.isText = true) (s : State) :
    (bodyOf i s).Leaves (DeviceWrites i s) := by
  cases i with
  | setCursor x y =>
    exact ⟨.inr (.inr (.inl ⟨x, y, rfl⟩)), .inr (.inr ⟨x, y, rfl⟩), .inl rfl, .inl rfl⟩
  | setColor c => exact ⟨.inl rfl, .inl rfl, .inr (.inr ⟨c, rfl⟩), .inl rfl⟩
  | setBgColor c => exact ⟨.inl rfl, .inl rfl, .inl rfl, .inr (.inr ⟨c, rfl⟩)⟩
  | printChar ch =>
    exact (glyph_textOnly ch s).mono fun t ⟨ht, hx⟩ => DeviceWrites.of_textOnly ht (.inl hx)
  | print len addr =>
    exact (printSeq_textOnly _ _ s).mono fun t ht =>
      DeviceWrites.of_textOnly ht (.inr (.inl ⟨len, addr, rfl⟩))
  | printNumber n width =>
    refine (printNumber_only n width s).mono fun t ⟨ht, _⟩ => ?_
    have d := DeviceWrites.of_textOnly ht.text (.inr (.inr ⟨n, width, rfl⟩))
    exact ⟨d.curX, d.curY, d.color, d.bgColor⟩
  | _ => cases hi

theorem body_deviceWrites (i : Instr) (s : State) : (bodyOf i s).Leaves (DeviceWrites i s) := by
  rcases instr_kinds i with rfl | hi | hi | hi
  · exact (initSequence_only s).mono fun t _ => DeviceWrites.init s t
  · exact (body_rowOnly hi s).mono fun _ => DeviceWrites.of_rowOnly
  · exact body_deviceWrites_of_text hi s
  · exact (body_wire_of_command hi s).mono fun _ => DeviceWrites.of_wire

/-! ### What no operation writes -/

/-- The latches and the mark `refused`, which no operation writes; `Kept` says the same of the
configuration, HOST, the host's moves and the port. -/
theorem body_unwritten (i : Instr) (s : State) :
    (bodyOf i s).Leaves fun t => t.latches = s.latches ∧ t.refused = s.refused := by
  rcases instr_kinds i with rfl | hi | hi | hi
  · exact (initSequence_only s).mono fun _ h => ⟨h.wire.latches, h.wire.refused⟩
  · exact (body_rowOnly hi s).mono fun _ h => ⟨h.wire.latches, h.wire.refused⟩
  · cases i with
    | setCursor x y | setColor c | setBgColor c => exact ⟨rfl, rfl⟩
    | printChar ch => exact (glyph_textOnly ch s).mono fun _ h => ⟨h.1.wire.latches, h.1.wire.refused⟩
    | print len addr => exact (printSeq_textOnly _ _ s).mono fun _ h => ⟨h.wire.latches, h.wire.refused⟩
    | printNumber n width =>
      exact (printNumber_only n width s).mono fun _ h => ⟨h.1.text.wire.latches, h.1.text.wire.refused⟩
    | _ => cases hi
  · exact (body_wire_of_command hi s).mono fun _ h => ⟨h.latches, h.refused⟩

theorem exec_unwritten (i : Instr) (s : State) : Outcome.onLeft (exec i s) fun t =>
    t.latches = s.latches ∧ t.refused = s.refused :=
  exec_onLeft (body_unwritten i { s with seq := .busy 0 }) (fun _ _ h => h) fun _ _ h => h

theorem exec_cfg (i : Instr) (s : State) : Outcome.onLeft (exec i s) fun t => t.cfg = s.cfg :=
  exec_onLeft ((body_kept i { s with seq := .busy 0 }).mono fun _ h => h.cfg) (fun _ _ h => h)
    fun _ _ h => h

/-! ### The statements -/

theorem Outcome.onLeft_mono {o : Outcome} {p q : State → Prop} (h : Outcome.onLeft o p)
    (hpq : ∀ t, p t → q t) : Outcome.onLeft o q := by
  cases o with
  | next t => exact hpq t h
  | fault f => exact hpq _ h
  | refused r => trivial

/-- Settles O49: a poke and a latch write other fields, and no instruction writes the configuration. -/
theorem configurationIsFixed : Obligations.ConfigurationIsFixed := by
  intro s
  exact step_onLeft rfl (fun _ _ _ _ => rfl) (fun i _ => exec_cfg i _) fun _ _ i _ _ => exec_cfg i _

/-- Settles O8: every step of a busy machine is the state itself, so every number of steps is. -/
theorem busyAcceptsNothing : Obligations.BusyAcceptsNothing := by
  intro s k n hf hq
  refine ⟨step_of_busy hf hq, ?_⟩
  induction n with
  | zero => rfl
  | succ n ih => rwa [advance, step_of_busy hf hq]

/-- Settles O7: the latches are written when the request is accepted, and no instruction writes them. -/
theorem latchesHoldTheRequest : Obligations.LatchesHoldTheRequest := by
  intro s d rest hf hq hp hi
  cases hd : decodeDescriptor d with
  | ok i =>
    rw [step_of_request hf hq hp hi hd]
    refine Outcome.onLeft_mono (exec_unwritten i _) fun t ⟨ht, _⟩ => ?_
    rw [ht]
    exact ⟨rfl, rfl, rfl, rfl, rfl, rfl, rfl⟩
  | error e =>
    rw [step_of_reserved_request hf hq hp hi hd]
    trivial

/-- Settles O59: each micro-sequence writes of DeviceState what `DeviceWrites` allows its instruction. -/
theorem whoWritesDeviceState : Obligations.WhoWritesDeviceState := by
  intro i s
  refine exec_onLeft ((body_deviceWrites i { s with seq := .busy 0 }).mono fun t h => ?_)
    (fun _ _ h => h) fun _ _ h => h
  exact ⟨h.curX, h.curY, h.color, h.bgColor⟩

/-- Settles O44: a drawing operation writes ROWBUF alone besides the Transport's state, and of it only
the bytes it stages. -/
theorem rasterFrame : Obligations.RasterFrame := by
  intro i s hi
  refine exec_onLeft (((body_rowOnly hi { s with seq := .busy 0 }).and (body_rowBeyond hi _)).mono
    fun t ⟨ho, hb⟩ => ?_) (fun _ _ h => h) fun _ _ h => h
  have w := ho.wire
  exact ⟨w.cfg, w.curX, w.curY, w.color, w.bgColor, w.latches, w.inited, w.rstLine, w.inputs, w.port,
    w.freeCount, w.refused, fun _ => by rw [w.glyphBuf], fun _ => by rw [w.numBuf],
    fun _ => by rw [w.host], hb⟩

/-- Settles O45: from what no operation writes, what a text operation writes of DeviceState and of the
buffers, and where the formatting of a number writes. -/
theorem textFrame : Obligations.TextFrame := by
  intro i s hi
  have hinit : i ≠ .init := by rintro rfl; cases hi
  refine exec_onLeft ((((body_kept i { s with seq := .busy 0 }).and (body_unwritten i _)).and
    ((body_deviceWrites i _).and (body_textWrites hi _))).mono
      fun t ⟨⟨k, hlatches, hrefused⟩, d, w⟩ => ?_) (fun _ _ h => h) fun _ _ h => h
  refine ⟨k.cfg, hlatches, w.inited, w.rstLine, k.inputs, k.port, w.freeCount, hrefused, ?_, ?_, ?_, ?_,
    fun _ => by rw [w.rowBuf], fun _ => by rw [k.host], w.glyphBuf, ?_, ?_⟩
  · intro h
    rcases d.curY with e | e | ⟨x, y, e⟩
    exacts [e, absurd e hinit, absurd e (h x y)]
  · intro h
    rcases d.color with e | e | ⟨c, e⟩
    exacts [e, absurd e hinit, absurd e (h c)]
  · intro h
    rcases d.bgColor with e | e | ⟨c, e⟩
    exacts [e, absurd e hinit, absurd e (h c)]
  · intro hc hp hn
    rcases d.curX with e | e | ⟨x, y, e⟩ | ⟨len, addr, e⟩ | ⟨n, width, e⟩
    exacts [e, absurd e hinit, absurd e (hc x y), absurd e (hp len addr), absurd e (hn n width)]
  · intro h a
    rw [w.numBuf h]
  · intro n width e a ha
    obtain ⟨hlen, _, _, hkeep⟩ := formatNumber_spec n s.numBuf
    rw [w.formatted n width e]
    exact hkeep a (by omega)

end Sys2Proof.Machine
end

section
/-! PROOFS. The events of an operation and the gate of R42: what an instruction answers, from the plan it
follows (10_state.md R40, R42, 60_exceptions.md R256, R257). -/

namespace Sys2Proof.Machine

/-! ### An instruction follows its plan -/

/-- The micro-sequence of an instruction as it starts, at `Busy(0)`, follows the plan of the state before. -/
theorem body_follows_started (i : Instr) (s : State) (hw : s.cfg.width ≤ 32767) :
    Follows (plan i s) { s with seq := .busy 0 } (bodyOf i { s with seq := .busy 0 }) := by
  rw [← plan_seq i s (.busy 0)]
  exact body_follows i _ hw

/-- An operation that took `evs` from `Busy(0)` has counted them. -/
theorem Took.seq_of_started {evs : List Event} {s t : State} (h : Took evs { s with seq := .busy 0 } t) :
    t.seq = .busy evs.length := by
  rw [h.seq]
  exact congrArg Seq.busy (Nat.zero_add _)

/-- Settles O50: the three ends of a micro-sequence that follows its plan are the three answers of the
instruction that runs it, and the gate is the fourth. -/
theorem planDecidesTheTrace : Obligations.PlanDecidesTheTrace := by
  intro i s hw
  by_cases hg : gated i s
  · rw [exec_gated hg]
    exact ⟨rfl, hg⟩
  have hf := body_follows_started i s hw
  rw [exec_open hg]
  cases hr : bodyOf i { s with seq := .busy 0 } with
  | done t =>
    rw [hr] at hf
    obtain ⟨hnone, ht, _⟩ := hf
    rw [runOperation_done hr]
    refine ⟨_, Nat.le_refl _, ?_, ?_, .inl ⟨rfl, rfl, hnone⟩⟩ <;> rw [List.take_length]
    exacts [ht.trace, ht.panel]
  | stuck t =>
    rw [hr] at hf
    obtain ⟨hlive, k, hk, ht⟩ := hf
    rw [runOperation_stuck hr]
    refine ⟨k, hk, ht.trace, ht.panel, .inr ⟨?_, hlive⟩⟩
    rw [ht.seq_of_started, List.length_take_of_le hk]
  | raised k t =>
    rw [hr] at hf
    obtain ⟨hk, ht⟩ := hf
    rw [runOperation_raised hr]
    simp only [Fault.left_of, Fault.record_of]
    exact ⟨hk, ht.trace, ht.panel, ht.seq_of_started⟩

/-! ### The new events, where the environment answers -/

/-- Where every wait is answered, an accepted instruction adds the events of its plan, whether it ends or
faults. -/
theorem newEvents_exec {i : Instr} {s : State} (hg : ¬ gated i s) (hl : s.env.isLive)
    (hw : s.cfg.width ≤ 32767) :
    Outcome.newEvents s.trace.length (exec i s) = some (plan i s).events := by
  have hf := body_follows_started i s hw
  rw [exec_open hg]
  cases hp : (plan i s).fault with
  | none =>
    obtain ⟨t, hr, ht, _⟩ := hf.live_done hl hp
    rw [runOperation_done hr]
    simp [Outcome.newEvents, Outcome.left?, ht.trace]
  | some k =>
    obtain ⟨t, hr, ht⟩ := hf.live_raised hl hp
    rw [runOperation_raised hr]
    simp [Outcome.newEvents, Outcome.left?, ht.trace]

/-- What the events of an operation depend on (R40): the configuration, DeviceState, `inited` and HOST. -/
structure SameSource (s t : State) : Prop where
  cfg : t.cfg = s.cfg
  curX : t.curX = s.curX
  curY : t.curY = s.curY
  color : t.color = s.color
  bgColor : t.bgColor = s.bgColor
  inited : t.inited = s.inited
  host : t.host = s.host

theorem SameSource.glyphPlan_eq {s t : State} (h : SameSource s t) (x : Half) (ch : Byte) :
    glyphPlan t x ch = glyphPlan s x ch := by
  have hp : glyphPixel t ch = glyphPixel s ch := by
    funext i
    simp only [glyphPixel, h.cfg, h.color, h.bgColor]
  simp only [glyphPlan, glyphTransaction, h.cfg, h.curY, hp]

theorem SameSource.textPlan_eq {s t : State} (h : SameSource s t) (x : Half) (l : List Byte) :
    textPlan t x l = textPlan s x l := by
  induction l generalizing x with
  | nil => rfl
  | cons ch rest ih => simp only [textPlan, ih, h.glyphPlan_eq]

theorem SameSource.plan_eq {s t : State} (h : SameSource s t) (i : Instr) : plan i t = plan i s := by
  cases i <;> simp only [plan, h.cfg, h.curX, h.host, h.glyphPlan_eq, h.textPlan_eq]

/-- Settles O58: the gate reads the source alone; past it the new events are the plan's in both states, and
the plan reads the source alone too. -/
theorem staleStateIsNotSent : Obligations.StaleStateIsNotSent := by
  intro i s t hs ht hw hcfg hx hy hc hb hi hh
  have h : SameSource s t := ⟨hcfg, hx, hy, hc, hb, hi, hh⟩
  have hgated : gated i t ↔ gated i s := by simp only [gated, hi]
  by_cases hg : gated i s
  · rw [exec_gated hg, exec_gated (hgated.mpr hg)]
    rfl
  · rw [newEvents_exec hg hs hw, newEvents_exec (mt hgated.mp hg) ht (hcfg ▸ hw), h.plan_eq]

/-! ### The gate of R42 -/

/-- INIT, by how it ends (R160): it ends idle with `inited` set, or it hangs, not idle and with `inited`
as it was; it raises no fault. -/
theorem exec_init_cases (s : State) :
    (∃ t, exec .init s = .next t ∧ t.seq = .idle ∧ t.inited = true) ∨
    (∃ t, exec .init s = .next t ∧ t.seq ≠ .idle ∧ t.inited = s.inited) := by
  have hopen : exec .init s = runOperation 0x00 initSequence s := rfl
  have hf := initSequence_follows { s with seq := .busy 0 }
  rw [hopen]
  cases hr : initSequence { s with seq := .busy 0 } with
  | done t => exact .inl ⟨_, runOperation_done hr, rfl, (initSequence_done hr).inited⟩
  | stuck t =>
    rw [hr] at hf
    obtain ⟨_, k, _, ht⟩ := hf
    refine .inr ⟨t, runOperation_stuck hr, ?_, (initSequence_stuck hr).inited⟩
    rw [ht.seq_of_started]
    exact nofun
  | raised k t =>
    rw [hr] at hf
    exact nomatch hf.1

/-- Nothing but an INIT that ends changes `inited`. -/
theorem exec_inited (i : Instr) (s : State) : Outcome.onLeft (exec i s) fun t =>
    t.inited = s.inited ∨ (i = .init ∧ t.seq = .idle) := by
  by_cases hi : i = .init
  · subst hi
    rcases exec_init_cases s with ⟨t, ht, hq, _⟩ | ⟨t, ht, _, hk⟩
    · rw [ht]
      exact .inr ⟨rfl, hq⟩
    · rw [ht]
      exact .inl hk
  · exact Outcome.onLeft_mono (exec_onLeft (body_inited i _ hi) (fun _ _ h => h) fun _ _ h => h)
      fun _ => .inl

/-- No instruction clears `inited`. -/
theorem exec_keeps_inited (i : Instr) {s : State} (hs : s.inited = true) :
    Outcome.onLeft (exec i s) fun t => t.inited = true :=
  exec_onLeft ((body_kept i { s with seq := .busy 0 }).mono fun _ h => h.inited hs) (fun _ _ h => h)
    fun _ _ h => h

/-- A step changes `inited` only as the end of an INIT the host asked for; a frame at the port is never
an INIT. -/
theorem step_inited (s : State) : Outcome.onLeft (step s) fun t => t.inited = s.inited ∨
    (t.seq = .idle ∧ ∃ d rest, s.inputs = .request d :: rest ∧ decodeDescriptor d = .ok .init) := by
  refine step_onLeft (.inl rfl) (fun _ _ _ _ => .inl rfl) (fun i hi => ?_) fun d rest i hin hd => ?_
  · refine Outcome.onLeft_mono (exec_inited i _) fun t h => .inl ?_
    rcases h with h | ⟨rfl, _⟩
    exacts [h, nomatch hi]
  · refine Outcome.onLeft_mono (exec_inited i _) fun t h => ?_
    rcases h with h | ⟨rfl, hq⟩
    exacts [.inl h, .inr ⟨hq, d, rest, hin, hd⟩]

/-- Settles O11: INIT by its two ends, the other instructions by what they write, the steps by the move
they take, and the gate as the one refusal of exec. -/
theorem initGate : Obligations.InitGate := by
  refine ⟨fun _ => rfl, ?_, ?_, exec_inited, step_inited, ?_, ?_⟩
  · intro s t ht hq
    rcases exec_init_cases s with ⟨u, hu, _, hi⟩ | ⟨u, hu, hn, _⟩
    · cases ht.symm.trans hu
      exact hi
    · cases ht.symm.trans hu
      exact absurd hq hn
  · intro s hs
    exact step_onLeft hs (fun _ _ _ _ => hs) (fun i _ => exec_keeps_inited i hs)
      fun _ _ i _ _ => exec_keeps_inited i hs
  · exact fun i s hhost hne hs => exec_gated ⟨hhost, hne, hs⟩
  · exact fun i s r hr => (exec_eq_refused_iff.mp hr).1

end Sys2Proof.Machine
end

section
/-! PROOFS. No routine reads the trace, the panel or the latches (10_state.md R46, R49, log entry 16):
each run from a state agrees, but for these three, with the run from the state without them. -/

namespace Sys2Proof.Machine

/-! ### Runs and routines that do not read the observation -/

/-- A run with `State.unread` applied to the state it leaves. -/
def Run.unread : Run → Run
  | .done s => .done s.unread
  | .stuck s => .stuck s.unread
  | .raised k s => .raised k s.unread

/-- A routine does not read the observation: a state and its unread part give runs with one unread part. -/
def Blind (f : State → Run) : Prop := ∀ s, (f s).unread = (f s.unread).unread

/-- The same of an update that cannot stop. -/
def BlindUpdate (f : State → State) : Prop := ∀ s, (f s).unread = (f s.unread).unread

@[simp] theorem unread_env (s : State) : s.unread.env = s.env := rfl

theorem Blind.done {f : State → State} (h : BlindUpdate f) : Blind fun s => .done (f s) :=
  fun s => congrArg Run.done (h s)

/-- A routine after an update. -/
theorem Blind.comp {f : State → Run} {g : State → State} (hf : Blind f) (hg : BlindUpdate g) :
    Blind fun s => f (g s) :=
  fun s => (hf (g s)).trans ((congrArg (fun t => (f t).unread) (hg s)).trans (hf (g s.unread)).symm)

/-- Two runs with one unread part, followed by one routine that does not read the observation. -/
theorem Blind.andThen {f : State → Run} (hf : Blind f) {r r' : Run} (h : r.unread = r'.unread) :
    (r.andThen f).unread = (r'.andThen f).unread := by
  cases r <;> cases r' <;> injection h
  case done.done t t' e =>
    calc (f t).unread = (f t.unread).unread := hf t
      _ = (f t'.unread).unread := by rw [e]
      _ = (f t').unread := (hf t').symm
  case stuck.stuck t t' e => exact congrArg Run.stuck e
  case raised.raised k t k' t' ek e => rw [ek]; exact congrArg (Run.raised k') e

/-- A branch on what the unread part still has. -/
theorem Run.unread_ite {c c' : Prop} [Decidable c] [Decidable c'] (hc : c ↔ c') {r r' q q' : Run}
    (hr : r.unread = r'.unread) (hq : q.unread = q'.unread) :
    (if c then r else q).unread = (if c' then r' else q').unread := by
  by_cases h : c
  · rwa [if_pos h, if_pos (hc.mp h)]
  · rwa [if_neg h, if_neg (mt hc.mpr h)]

/-! ### The Transport -/

theorem emit_blind (e : Event) : BlindUpdate (emit e) := fun _ => rfl

theorem awaitTxe_blind : Blind awaitTxe := by
  intro s
  refine Run.unread_ite Iff.rfl rfl ?_
  simp only [unread_env]
  split <;> rfl

theorem awaitTc_blind : Blind awaitTc := by
  intro s
  refine Run.unread_ite Iff.rfl rfl ?_
  simp only [unread_env]
  split <;> rfl

theorem awaitTimer_blind : Blind awaitTimer := by
  intro s
  unfold awaitTimer
  simp only [unread_env]
  split <;> rfl

theorem delay_blind (n : Nat) : Blind (delay n) := awaitTimer_blind.comp (emit_blind _)

theorem resetPanel_blind : Blind resetPanel := fun s =>
  Blind.andThen (fun t => (delay_blind t.cfg.tRstHigh).comp (g := driveReset true) (fun _ => rfl) t)
    ((delay_blind s.cfg.tRstLow).comp (g := driveReset false) (fun _ => rfl) s)

theorem select_blind : BlindUpdate select := by
  intro s
  have hc : s.unread.cfg = s.cfg := rfl
  unfold select
  rw [hc]
  split <;> rfl

theorem deselect_blind : BlindUpdate deselect := by
  intro s
  have hc : s.unread.cfg = s.cfg := rfl
  unfold deselect
  rw [hc]
  split <;> rfl

theorem sendByte_blind (k : Kind) (v : Byte) : Blind (sendByte k v) := fun s =>
  Blind.andThen (awaitTxe_blind.comp (g := fun s => emit (.byte k v) { s with dcLine := k, txe := false })
    fun _ => rfl) (awaitTxe_blind s)

theorem sendCommand_blind (v : Byte) : Blind (sendCommand v) := sendByte_blind .cmd v

theorem sendData16_blind (v : Half) : Blind (sendData16 v) := fun s =>
  (sendByte_blind _ _).andThen (sendByte_blind _ _ s)

theorem feed_blind (bs : List Byte) : BlindUpdate (feed bs) := by
  induction bs with
  | nil => exact fun _ => rfl
  | cons v rest ih =>
    intro s
    calc (feed rest (emit (.byte .data v) s)).unread
        = (feed rest (emit (.byte .data v) s).unread).unread := ih _
      _ = (feed rest (emit (.byte .data v) s.unread).unread).unread := by rw [emit_blind _ s]
      _ = (feed rest (emit (.byte .data v) s.unread)).unread := (ih _).symm

theorem blockPass_blind (src : BlockSrc) (len : Nat) : Blind (blockPass src len) := fun s =>
  awaitTc_blind.comp (feed_blind ((passBytes s src len).take (fedBytes s len))) { s with tc := false }

theorem blockPasses_blind (src : BlockSrc) (len n : Nat) : Blind (blockPasses src len n) := by
  induction n with
  | zero => exact fun _ => rfl
  | succ n ih => exact fun s => ih.andThen (blockPass_blind src len s)

theorem sendBlock_blind (src : BlockSrc) (len reps : Nat) : Blind (sendBlock src len reps) := by
  refine fun s => Run.unread_ite Iff.rfl rfl ?_
  exact Blind.andThen (Blind.done (f := fun s => { s with blkEn := false }) fun _ => rfl)
    ((blockPasses_blind src len reps).comp (g := armBlock src len) (fun _ => rfl) s)

/-- A command of the configuration's opcode table. -/
theorem sendOpcode_blind (code : Opcodes → Byte) : Blind fun s => sendCommand (code s.cfg.opcodes) s :=
  fun s => sendCommand_blind (code s.cfg.opcodes) s

/-- Two bounds after their command (R170, R171). -/
theorem sendBounds_blind (a b : Half) : Blind fun s => (sendData16 a s).andThen (sendData16 b) :=
  fun s => (sendData16_blind b).andThen (sendData16_blind a s)

theorem casetFrame_blind (x0 x1 : Half) : Blind (casetFrame x0 x1) := fun s =>
  (sendBounds_blind x0 x1).andThen (sendOpcode_blind Opcodes.caset s)

theorem rasetFrame_blind (y0 y1 : Half) : Blind (rasetFrame y0 y1) := fun s =>
  (sendBounds_blind y0 y1).andThen (sendOpcode_blind Opcodes.raset s)

theorem setWindow_blind (x0 y0 x1 y1 : Half) : Blind (setWindow x0 y0 x1 y1) := fun s =>
  Blind.andThen (fun t => (sendOpcode_blind Opcodes.ramwr).andThen (rasetFrame_blind y0 y1 t))
    (casetFrame_blind x0 x1 s)

/-! ### The Command Protocol -/

theorem settledCommand_blind (v : Byte) (n : Nat) : Blind (settledCommand v n) := fun s =>
  (delay_blind n).andThen (sendCommand_blind v s)

theorem configuredCommand_blind (v p : Byte) : Blind (configuredCommand v p) := fun s =>
  (sendByte_blind .data p).andThen (sendCommand_blind v s)

theorem gammaCommand_blind (v : Byte) (table : BlockSrc) : Blind (gammaCommand v table) := fun s =>
  (sendBlock_blind table 16 1).andThen (sendCommand_blind v s)

theorem sendPixels_blind (ps : List Half) : Blind (sendPixels ps) := by
  induction ps with
  | nil => exact fun _ => rfl
  | cons v rest ih => exact fun s => ih.andThen (sendData16_blind v s)

/-- A panel command on its own. -/
theorem body_blind_of_command {i : Instr} (hi : i.isHost = false) : Blind (bodyOf i) := by
  cases i with
  | slpout | noron | invoff | invon | dispon => exact fun s => settledCommand_blind _ _ s
  | madctl | colmod => exact fun s => configuredCommand_blind _ _ s
  | gmctrp1 | gmctrn1 => exact fun s => gammaCommand_blind _ _ s
  | caset a b => exact casetFrame_blind a b
  | raset a b => exact rasetFrame_blind a b
  | ramwr ps => exact fun s => (sendPixels_blind ps).andThen (sendOpcode_blind Opcodes.ramwr s)
  | _ => cases hi

theorem inversion_blind : Blind fun s => if s.cfg.invert then invonFrame s else invoffFrame s :=
  fun s => Run.unread_ite Iff.rfl (settledCommand_blind _ _ s) (settledCommand_blind _ _ s)

theorem initSequence_blind : Blind initSequence := by
  have finish : Blind fun s => .done (finishInit (deselect s)) :=
    (Blind.done (f := finishInit) fun _ => rfl).comp deselect_blind
  refine fun s => Blind.andThen (fun t => ?_) (resetPanel_blind s)
  refine Blind.andThen (fun t => ?_) ((body_blind_of_command (i := .slpout) rfl).comp select_blind t)
  refine Blind.andThen (fun t => ?_) (body_blind_of_command (i := .madctl) rfl t)
  refine Blind.andThen (fun t => ?_) (body_blind_of_command (i := .colmod) rfl t)
  refine Blind.andThen (fun t => ?_) (body_blind_of_command (i := .gmctrp1) rfl t)
  refine Blind.andThen (fun t => ?_) (body_blind_of_command (i := .gmctrn1) rfl t)
  refine Blind.andThen (fun t => ?_) (inversion_blind t)
  refine Blind.andThen (fun t => ?_) (body_blind_of_command (i := .noron) rfl t)
  exact finish.andThen (body_blind_of_command (i := .dispon) rfl t)

/-! ### The Rasterizer -/

theorem blockTransaction_blind (x0 y0 x1 y1 : Half) (src : BlockSrc) (len reps : Nat) :
    Blind (blockTransaction x0 y0 x1 y1 src len reps) := fun s =>
  Blind.andThen (fun t => (Blind.done deselect_blind).andThen (sendBlock_blind src len reps t))
    ((setWindow_blind x0 y0 x1 y1).comp select_blind s)

theorem pixel_blind (x y c : Half) : Blind (pixel x y c) := fun s =>
  Blind.andThen (fun t => (Blind.done deselect_blind).andThen (sendData16_blind c t))
    ((setWindow_blind _ _ _ _).comp select_blind s)

theorem stageRun_blind (c : Half) (n : Nat) : Blind (stageRun c n) :=
  fun _ => Run.unread_ite Iff.rfl rfl rfl

/-- A staged run and its transaction: the shape of a fill and of both fast lines. -/
theorem staged_blind (c : Half) (n : Nat) (x0 y0 x1 y1 : Half) (reps : Nat) :
    Blind fun s => (stageRun c n s).andThen fun s =>
      blockTransaction x0 y0 x1 y1 (.rowBuf 0) (2 * n) reps s :=
  fun s => (blockTransaction_blind _ _ _ _ _ _ _).andThen (stageRun_blind c n s)

theorem fillRect_blind (x y w h c : Half) : Blind (fillRect x y w h c) :=
  fun s => Run.unread_ite Iff.rfl rfl (Run.unread_ite Iff.rfl rfl (staged_blind c w.toNat _ _ _ _ _ s))

theorem fastHLine_blind (x y : Half) (len : Nat) (c : Half) : Blind (fastHLine x y len c) :=
  fun s => Run.unread_ite Iff.rfl rfl (Run.unread_ite Iff.rfl rfl (staged_blind c len _ _ _ _ _ s))

theorem fastVLine_blind (x y : Half) (len : Nat) (c : Half) : Blind (fastVLine x y len c) :=
  fun s => Run.unread_ite Iff.rfl rfl (Run.unread_ite Iff.rfl rfl (staged_blind c len _ _ _ _ _ s))

theorem drawRect_blind (x y w h c : Half) : Blind (drawRect x y w h c) := by
  refine fun s => Run.unread_ite Iff.rfl rfl ?_
  refine Blind.andThen (fun t => ?_) (fastHLine_blind _ _ _ _ s)
  refine Blind.andThen (fun t => ?_) (fastHLine_blind _ _ _ _ t)
  exact (fastVLine_blind _ _ _ _).andThen (fastVLine_blind _ _ _ _ t)

theorem drawBitmap_blind (x y w h : Half) (p : Addr) : Blind (drawBitmap x y w h p) :=
  fun s => Run.unread_ite Iff.rfl rfl (Run.unread_ite Iff.rfl rfl (Run.unread_ite Iff.rfl rfl
    (blockTransaction_blind _ _ _ _ _ _ _ s)))

theorem bresenhamLoop_blind (steep : Bool) (dx dy ys : Int) (c : Half) (n : Nat) (xx yy err : Int) :
    Blind (bresenhamLoop steep dx dy ys c n xx yy err) := by
  induction n generalizing xx yy err with
  | zero => exact fun _ => rfl
  | succ n ih =>
    intro s
    unfold bresenhamLoop
    refine Blind.andThen (fun t => ?_) ?_
    · split <;> exact ih _ _ _ t
    · split <;> exact pixel_blind _ _ _ s

theorem drawLine_blind (x0 y0 x1 y1 c : Half) : Blind (drawLine x0 y0 x1 y1 c) := by
  intro s
  unfold drawLine
  split
  · exact fastVLine_blind _ _ _ _ s
  · split
    · exact fastHLine_blind _ _ _ _ s
    · unfold bresenham bresenhamOrdered bresenhamFrom
      split <;> split <;> exact bresenhamLoop_blind _ _ _ _ _ _ _ _ _ s

theorem body_blind_of_raster {i : Instr} (hi : i.isRaster = true) : Blind (bodyOf i) := by
  cases i with
  | drawPixel x y c => exact pixel_blind x y c
  | drawLine x0 y0 x1 y1 c => exact drawLine_blind x0 y0 x1 y1 c
  | drawRect x y w h c => exact drawRect_blind x y w h c
  | fillRect x y w h c => exact fillRect_blind x y w h c
  | drawBitmap x y w h p => exact drawBitmap_blind x y w h p
  | _ => cases hi

/-! ### The Text Engine -/

theorem stageGlyph_unread (s : State) (ch : Byte) (n : Nat) (m : Memory) :
    stageGlyph s.unread ch n m = stageGlyph s ch n m := by
  induction n with
  | zero => rfl
  | succ n ih =>
    simp only [stageGlyph, ih]
    rfl

theorem stageGlyph_blind (ch : Byte) (n : Nat) :
    BlindUpdate fun s => { s with glyphBuf := stageGlyph s ch n s.glyphBuf } := by
  intro s
  simp only [stageGlyph_unread]
  rfl

theorem glyph_blind (ch : Byte) : Blind (glyph ch) :=
  fun s => Run.unread_ite Iff.rfl rfl (Run.unread_ite Iff.rfl rfl
    ((blockTransaction_blind _ _ _ _ _ _ _).comp (stageGlyph_blind ch (glyphW * glyphH)) s))

theorem printOne_blind (ch : Byte) : Blind (printOne ch) := fun s =>
  Blind.andThen (Blind.done (f := fun s => { s with curX := s.curX + u16 cellW }) fun _ => rfl)
    (glyph_blind ch s)

theorem printSeq_blind {ch : State → Nat → Byte} (h : ∀ s i, ch s.unread i = ch s i) (n : Nat) :
    Blind (printSeq ch n) := by
  induction n with
  | zero => exact fun _ => rfl
  | succ n ih =>
    refine fun s => Blind.andThen (fun t => ?_) (ih s)
    rw [h]
    exact printOne_blind (ch t n) t

theorem printNumber_blind (n : Addr) (width : Half) : Blind (printNumber n width) := fun s =>
  Blind.andThen (printSeq_blind (fun _ _ => rfl) _)
    ((printSeq_blind (ch := fun _ _ => 0x20) (fun _ _ => rfl) _).comp
      (g := fun s => { s with numBuf := (formatNumber n s.numBuf).2 }) (fun _ => rfl) s)

theorem body_blind_of_text {i : Instr} (hi : i.isText = true) : Blind (bodyOf i) := by
  cases i with
  | setCursor x y | setColor c | setBgColor c => exact fun _ => rfl
  | printChar ch => exact glyph_blind ch
  | print len addr => exact printSeq_blind (fun _ _ => rfl) len.toNat
  | printNumber n width => exact printNumber_blind n width
  | _ => cases hi

/-! ### Every instruction -/

theorem body_blind (i : Instr) : Blind (bodyOf i) := by
  rcases instr_kinds i with rfl | hi | hi | hi
  · exact initSequence_blind
  · exact body_blind_of_raster hi
  · exact body_blind_of_text hi
  · exact body_blind_of_command hi

theorem mapState_fault_of (f : State → State) (k : FaultKind) (op : Byte) (s : State) :
    Outcome.mapState f (.fault (Fault.of k op s)) = .fault (Fault.of k op (f s)) := by
  cases k <;> rfl

/-- What a run becomes as an operation depends, unread, on the unread run alone. -/
theorem runOperation_unread {op : Byte} {body : State → Run} (h : Blind body) (s : State) :
    Outcome.mapState State.unread (runOperation op body s)
      = Outcome.mapState State.unread (runOperation op body s.unread) := by
  have hr := h { s with seq := .busy 0 }
  unfold runOperation
  cases h1 : body { s with seq := .busy 0 } <;> cases h2 : body { s.unread with seq := .busy 0 } <;>
    rw [h1] at hr <;> injection (hr.trans (congrArg Run.unread h2))
  case done.done t t' e =>
    exact congrArg (fun u : State => Host.Outcome.next { u with seq := .idle }) e
  case stuck.stuck t t' e => exact congrArg Host.Outcome.next e
  case raised.raised k t k' t' ek e =>
    subst ek
    simp only [raiseFault, mapState_fault_of]
    exact congrArg (fun u : State =>
      Host.Outcome.fault (Fault.of k op { u with fault := some { kind := k, op := op } })) e

theorem exec_unread (i : Instr) (s : State) :
    Outcome.mapState State.unread (exec i s) = Outcome.mapState State.unread (exec i s.unread) := by
  by_cases hg : gated i s
  · rw [exec_gated hg, exec_gated (s := s.unread) hg]
  · rw [exec_open hg, exec_open (s := s.unread) hg]
    exact runOperation_unread (body_blind i) s

/-- Settles O57: the two states have one unread part, and every instruction answers it alike. -/
theorem nothingReadsTheObservation : Obligations.NothingReadsTheObservation := by
  intro i s tr p l
  exact (exec_unread i { s with trace := tr, panel := p, latches := l }).trans (exec_unread i s).symm

end Sys2Proof.Machine
end

section
/-! PROOFS. The invariant of every step (20_memory.md R60, 40_transport.md R142, R144,
70_reset_and_hazards.md R297): while an operation runs it is the legal configuration and the canonical
memories, which every micro-sequence keeps however it ends; the clean idle state comes back when it is
done. -/

namespace Sys2Proof.Machine

/-! ### The parts of the invariant -/

theorem Config.width_le_of_wf {c : Config} (h : c.wf = true) : c.width ≤ 32767 := by
  simp only [Config.wf, Bool.and_eq_true, decide_eq_true_eq] at h
  omega

/-- A busy sequencer has no idle state to keep clean. -/
theorem State.idleInv.of_busy {s : State} {k : Nat} (hq : s.seq = .busy k) : s.idleInv := by
  constructor <;> exact fun h => nomatch hq.symm.trans h

/-- The position and the fault record are no part of the memories. -/
theorem State.buffersInv.with_position {s : State} (h : s.buffersInv) (q : Seq)
    (f : Option FaultRecord) : State.buffersInv { s with seq := q, fault := f } :=
  ⟨h.rowBuf, h.glyphBuf, h.numBuf, h.host, h.gram⟩

/-- The buffers by what an operation keeps, the pixel memory by the events the panel took. -/
theorem State.buffersInv.of_kept {s t : State} {evs : List Event} (h : s.buffersInv) (k : Kept s t)
    (e : Took evs s t) : t.buffersInv where
  rowBuf := by
    rw [k.cfg]
    exact k.row h.rowBuf
  glyphBuf := k.glyph h.glyphBuf
  numBuf := k.num h.numBuf
  host := by
    rw [k.host]
    exact h.host
  gram := by
    rw [e.panel]
    exact GramOk.after s.cfg evs h.gram

/-! ### While an operation runs -/

/-- A run that follows a plan has taken some events, however it ends. -/
theorem Follows.leaves_took {pl : Plan} {s : State} {r : Run} (h : Follows pl s r) :
    r.Leaves fun t => ∃ evs, Took evs s t := by
  cases r with
  | done t => exact ⟨_, h.2.1⟩
  | stuck t =>
    obtain ⟨_, k, _, ht⟩ := h
    exact ⟨_, ht⟩
  | raised k t => exact ⟨_, h.2⟩

/-- Every micro-sequence keeps the invariant of a running operation, however it ends. -/
theorem body_inv (i : Instr) {s : State} (h : s.Inv) :
    (bodyOf i { s with seq := .busy 0 }).Leaves State.Inv := by
  have hfollows := body_follows_started i s (Config.width_le_of_wf h.cfg)
  refine ((body_kept i { s with seq := .busy 0 }).and hfollows.leaves_took).mono
    fun t ⟨hkept, evs, htook⟩ => ?_
  have hbuffers : State.buffersInv { s with seq := .busy 0 } := h.buffers.with_position _ _
  exact ⟨by rw [hkept.cfg]; exact h.cfg, hbuffers.of_kept hkept htook, .of_busy htook.seq_of_started⟩

/-! ### When an operation is done -/

/-- INIT leaves a clean idle state from any state (R160). -/
theorem Initialised.idleInv {s t : State} (h : Initialised s t) (hc : t.cfg = s.cfg) :
    t.idleInv where
  txe _ := h.txe
  blkEn _ := h.blkEn
  csLine _ _ hu := by
    rw [hc] at hu
    exact h.csLine.trans (if_pos hu)

/-- A run from rest that has not set `inited` leaves a clean idle state. -/
theorem Rested.idleInv {s t : State} (h : Rested s t) (hi : t.inited = s.inited) (hs : s.idleInv)
    (hq : s.seq = .idle) : t.idleInv where
  txe _ := h.txe (hs.txe hq)
  blkEn _ := h.blkEn (hs.blkEn hq)
  csLine _ hin hu := by
    rw [hi] at hin
    rw [h.cfg] at hu
    exact h.csLine hu (hs.csLine hq hin hu)

/-- A done operation accepted in a clean idle state leaves one. -/
theorem body_done_idleInv {i : Instr} {s t : State} (h : s.idleInv) (hq : s.seq = .idle)
    (hr : bodyOf i { s with seq := .busy 0 } = .done t) :
    State.idleInv { t with seq := .idle } := by
  by_cases hi : i = .init
  · subst hi
    have hdone : Initialised s { t with seq := .idle } := { initSequence_done hr with }
    exact hdone.idleInv ((body_kept .init _).of_done hr).cfg
  · have hrested : Rested s { t with seq := .idle } := { body_rests i _ hi t hr with }
    have hinited : t.inited = s.inited := (body_inited i { s with seq := .busy 0 } hi).of_done hr
    exact hrested.idleInv hinited h hq

/-! ### An instruction and a step -/

/-- Whatever an instruction accepted by an idle machine leaves, at its end, at a wait or at a fault, has
the invariant. -/
theorem exec_inv (i : Instr) {s : State} (h : s.Inv) (hq : s.seq = .idle) :
    Outcome.onLeft (exec i s) State.Inv := by
  by_cases hg : gated i s
  · rw [exec_gated hg]
    trivial
  have hb := body_inv i h
  rw [exec_open hg]
  cases hr : bodyOf i { s with seq := .busy 0 } with
  | done t =>
    rw [hr] at hb
    rw [runOperation_done hr]
    exact ⟨hb.cfg, hb.buffers.with_position _ _, body_done_idleInv h.idle hq hr⟩
  | stuck t =>
    rw [hr] at hb
    rwa [runOperation_stuck hr]
  | raised k t =>
    rw [hr] at hb
    rw [runOperation_raised hr]
    show State.Inv (Fault.left _)
    rw [Fault.left_of]
    exact ⟨hb.cfg, hb.buffers.with_position _ _, ⟨hb.idle.txe, hb.idle.blkEn, hb.idle.csLine⟩⟩

/-- A poke writes inside HOST's 2^32 bytes (20_memory.md R65) and nothing else. -/
theorem State.Inv.pokeHost {s : State} (h : s.Inv) (a : Addr) (v : Byte) : (pokeHost a v s).Inv where
  cfg := h.cfg
  buffers :=
    { h.buffers with
      host := ⟨Memory.wf_write h.buffers.host.1 _ _, Memory.below_write h.buffers.host.2 a.isLt v⟩ }
  idle := { h.idle with }

/-- The host's moves, the port and the latches are no part of the invariant. -/
theorem State.Inv.with_request {s : State} (h : s.Inv) (inputs : List HostMove)
    (port : Option (List Byte)) (l : Latches) :
    State.Inv { s with inputs := inputs, port := port, latches := l } :=
  ⟨h.cfg, { h.buffers with }, { h.idle with }⟩

/-- Every state an idle machine's step leaves, a fault's too, has the invariant. -/
theorem step_inv_of_idle {s : State} (h : s.Inv) (hq : s.seq = .idle) :
    Outcome.onLeft (step s) State.Inv :=
  step_onLeft h (fun a v rest _ => (h.with_request rest s.port s.latches).pokeHost a v)
    (fun i _ => exec_inv i (h.with_request s.inputs none s.latches) hq)
    fun _ rest i _ _ => exec_inv i (h.with_request rest s.port _) hq

theorem Outcome.onNext_of_onLeft {o : Outcome} {p : State → Prop} (h : Outcome.onLeft o p) :
    Outcome.onNext o p := by
  cases o with
  | next t => exact h
  | fault f => trivial
  | refused r => trivial

/-- Settles O47: a busy machine stays as it is or answers its fault again, and an idle one runs what it
accepts from a clean idle state. -/
theorem stepKeepsInv : Obligations.StepKeepsInv := by
  intro s h
  cases hq : s.seq with
  | idle => exact Outcome.onNext_of_onLeft (step_inv_of_idle h hq)
  | busy k =>
    cases hf : s.fault with
    | none => rwa [step_of_busy hf hq]
    | some f =>
      rw [step_of_fault hf]
      trivial

end Sys2Proof.Machine
end

section
/-! PROOFS. The encoding (30_encoding.md R104 to R112): what a request decodes to, which descriptors are
reserved, which bits of a descriptor are read; and the colour packings (R120, R121). -/

namespace Sys2Proof

open Machine

/-! ### The frame of a panel command gives its instruction back -/

theorem PanelCmd.mem_all (k : PanelCmd) : k ∈ PanelCmd.all := by
  cases k <;> decide

/-- In a table with distinct values an opcode byte names its command alone (R9). -/
theorem Opcodes.find?_code {o : Opcodes} (h : o.wf = true) (k : PanelCmd) :
    o.find? (o.code k) = some k := by
  have hinj := List.inj_on_of_nodup_map (of_decide_eq_true h : (PanelCmd.all.map o.code).Nodup)
  have hsome : (o.find? (o.code k)).isSome :=
    List.find?_isSome.mpr ⟨k, k.mem_all, beq_self_eq_true _⟩
  obtain ⟨j, hj⟩ := Option.isSome_iff_exists.mp hsome
  have hcode := List.find?_some (p := fun j => o.code j == o.code k) hj
  rw [hj, hinj j.mem_all k.mem_all (eq_of_beq hcode)]

theorem append_bytes (v : Half) : v.extractLsb' 8 8 ++ v.extractLsb' 0 8 = v :=
  (BitVec.extractLsb'_append_extractLsb'_eq_extractLsb' rfl).trans BitVec.extractLsb'_eq_self

/-- A payload's bytes give its pixels back (20_memory.md R66). -/
theorem pixelsOf_bytesOf (ps : List Half) : pixelsOf (bytesOf ps) = some ps := by
  induction ps with
  | nil => rfl
  | cons v rest ih => rw [bytesOf, pixelsOf, ih, Option.map_some, append_bytes]

/-- Two bounds' bytes give the bounds back (R105). -/
theorem boundsFrame_bytesOf (f : Half → Half → Instr) (a b : Half) :
    boundsFrame f (bytesOf [a, b]) = .ok (f a b) := by
  simp only [bytesOf, boundsFrame, append_bytes]

/-- The opcode byte finds the command (R104), whose reader takes the operand bytes. -/
theorem decode_encode_of_command {o : Opcodes} (h : o.wf = true) {i : Instr} (hi : i.isHost = false) :
    decode o (encode o i) = .ok i := by
  have find := Opcodes.find?_code h
  cases i with
  | slpout =>
    simp only [encode, decode, decodeFrame, show o.find? o.slpout = _ from find .slpout, bareFrame]
  | noron =>
    simp only [encode, decode, decodeFrame, show o.find? o.noron = _ from find .noron, bareFrame]
  | invoff =>
    simp only [encode, decode, decodeFrame, show o.find? o.invoff = _ from find .invoff, bareFrame]
  | invon =>
    simp only [encode, decode, decodeFrame, show o.find? o.invon = _ from find .invon, bareFrame]
  | dispon =>
    simp only [encode, decode, decodeFrame, show o.find? o.dispon = _ from find .dispon, bareFrame]
  | madctl =>
    simp only [encode, decode, decodeFrame, show o.find? o.madctl = _ from find .madctl, bareFrame]
  | colmod =>
    simp only [encode, decode, decodeFrame, show o.find? o.colmod = _ from find .colmod, bareFrame]
  | gmctrp1 =>
    simp only [encode, decode, decodeFrame, show o.find? o.gmctrp1 = _ from find .gmctrp1, bareFrame]
  | gmctrn1 =>
    simp only [encode, decode, decodeFrame, show o.find? o.gmctrn1 = _ from find .gmctrn1, bareFrame]
  | caset a b =>
    simp only [encode, decode, decodeFrame, show o.find? o.caset = _ from find .caset, boundsFrame_bytesOf]
  | raset a b =>
    simp only [encode, decode, decodeFrame, show o.find? o.raset = _ from find .raset, boundsFrame_bytesOf]
  | ramwr ps =>
    simp only [encode, decode, decodeFrame, show o.find? o.ramwr = _ from find .ramwr, payloadFrame,
      pixelsOf_bytesOf]
  | _ => cases hi

/-! ### The descriptor of a host operation gives its instruction back -/

theorem lowByte_setWidth (ch : Byte) : (ch.setWidth 16).extractLsb' 0 8 = ch := by
  ext i hi
  simp [show i < 16 by omega, hi]

/-- The fields of a packed descriptor are the operands (R108, R110). -/
theorem decode_encode_of_host (o : Opcodes) {i : Instr} (hi : i.isHost = true) :
    decode o (encode o i) = .ok i := by
  cases i with
  | printChar ch => simp [encode, decode, decodeDescriptor, lowByte_setWidth]
  | init | setCursor | setColor | setBgColor | print | printNumber | drawPixel | drawLine | drawRect
  | fillRect | drawBitmap => simp [encode, decode, decodeDescriptor]
  | _ => cases hi

/-- Settles O1: a host operation is packed into a descriptor's fields, which need no table; a panel command
goes by its opcode byte, which a legal table gives to no other command. -/
theorem decodeEncodeRoundTrip : Obligations.DecodeEncodeRoundTrip := by
  intro o i h
  cases hi : i.isHost with
  | true => exact decode_encode_of_host o hi
  | false => exact decode_encode_of_command h hi

/-- Settles O2: the nine words are closed, and the decoder evaluates each to its instruction. -/
theorem decodedSpecWords : Obligations.DecodedSpecWords := by
  refine ⟨?_, ?_, ?_, ?_, ?_, ?_, ?_, ?_, ?_⟩ <;> decide

/-! ### The reserved descriptors -/

/-- The reserved descriptors (R111). -/
def Descriptor.reserved (d : Descriptor) : Prop :=
  0x0C ≤ (Descriptor.op d).toNat ∨ Descriptor.rsv d ≠ 0

/-- A descriptor decodes to a host operation, or it is reserved and rejected as such (R110, R111). -/
theorem decodeDescriptor_cases (d : Descriptor) :
    (¬ Descriptor.reserved d ∧ ∃ i, decodeDescriptor d = .ok i ∧ i.isHost = true) ∨
    (Descriptor.reserved d ∧
      (decodeDescriptor d = .error .reservedRsv ∨ decodeDescriptor d = .error .reservedOp)) := by
  by_cases hr : Descriptor.rsv d = 0
  · unfold decodeDescriptor Descriptor.reserved
    rw [if_neg (not_not.mpr hr)]
    split
    case h_13 => exact .inr ⟨.inl (by simp only [imp_false] at *; omega), .inr rfl⟩
    all_goals exact .inl ⟨not_or.mpr ⟨by omega, not_not.mpr hr⟩, _, rfl, rfl⟩
  · exact .inr ⟨.inr hr, .inl (if_pos hr)⟩

/-! ### The bits of a descriptor that its operation reads -/

/-- A field that a mask covers is the same in two descriptors that agree under the mask. -/
theorem extract_of_and {m d e : Descriptor} (h : d &&& m = e &&& m) (start n : Nat)
    (hm : m.extractLsb' start n = BitVec.allOnes n) : d.extractLsb' start n = e.extractLsb' start n := by
  have h := congrArg (BitVec.extractLsb' start n) h
  rwa [BitVec.extractLsb'_and, BitVec.extractLsb'_and, hm, BitVec.and_allOnes, BitVec.and_allOnes] at h

/-- Every operation reads `OP` and `RSV` (R112). -/
theorem op_usedBits (op : Byte) : (Descriptor.usedBits op).extractLsb' 120 8 = BitVec.allOnes 8 := by
  unfold Descriptor.usedBits
  split <;> rfl

theorem rsv_usedBits (op : Byte) : (Descriptor.usedBits op).extractLsb' 112 8 = BitVec.allOnes 8 := by
  unfold Descriptor.usedBits
  split <;> rfl

/-- PRINT_CHAR's operand, where it stands in the descriptor (R110). -/
theorem lowByte_a (d : Descriptor) : (Descriptor.a d).extractLsb' 0 8 = d.extractLsb' 96 8 := by
  ext i hi
  simp [Descriptor.a, show i < 16 by omega]

/-- A descriptor is decoded from the bits its operation reads: row by row of R110, every operand lies under
the operation's mask. -/
theorem decodeDescriptor_eq_of_usedBits {d e : Descriptor}
    (h : d &&& Descriptor.usedBits (Descriptor.op d) = e &&& Descriptor.usedBits (Descriptor.op d)) :
    decodeDescriptor d = decodeDescriptor e := by
  have hop : Descriptor.op d = Descriptor.op e := extract_of_and h _ _ (op_usedBits _)
  have hrsv : Descriptor.rsv d = Descriptor.rsv e := extract_of_and h _ _ (rsv_usedBits _)
  have ha : _ → Descriptor.a d = Descriptor.a e := extract_of_and h 96 16
  have hch : (Descriptor.usedBits (Descriptor.op d)).extractLsb' 96 8 = BitVec.allOnes 8 →
      (Descriptor.a d).extractLsb' 0 8 = (Descriptor.a e).extractLsb' 0 8 := by
    rw [lowByte_a, lowByte_a]
    exact extract_of_and h 96 8
  have hb : _ → Descriptor.b d = Descriptor.b e := extract_of_and h 80 16
  have hc : _ → Descriptor.c d = Descriptor.c e := extract_of_and h 64 16
  have hd : _ → Descriptor.d d = Descriptor.d e := extract_of_and h 48 16
  have he : _ → Descriptor.e d = Descriptor.e e := extract_of_and h 32 16
  have hp : _ → Descriptor.p d = Descriptor.p e := extract_of_and h 0 32
  unfold decodeDescriptor
  rw [← hop, ← hrsv]
  split
  · rfl
  split
  all_goals
    rename_i hk
    simp only [Descriptor.usedBits, hk] at ha hch hb hc hd he hp ⊢
  case h_2 => rw [ha (by decide), hb (by decide)]
  case h_3 | h_4 => rw [he (by decide)]
  case h_5 => rw [hch (by decide)]
  case h_6 | h_7 => rw [ha (by decide), hp (by decide)]
  case h_8 => rw [ha (by decide), hb (by decide), he (by decide)]
  case h_9 | h_10 | h_11 =>
    rw [ha (by decide), hb (by decide), hc (by decide), hd (by decide), he (by decide)]
  case h_12 => rw [ha (by decide), hb (by decide), hc (by decide), hd (by decide), hp (by decide)]

/-! ### Colours -/

/-- Settles O60: each field of the packed colour, bit by bit. -/
theorem colourPacking : Obligations.ColourPacking := by
  intro r g b
  have hr : (rgb565 r g b).extractLsb' 11 5 = r.extractLsb' 3 5 := by
    ext i hi
    interval_cases i <;> simp [rgb565]
  have hg : (rgb565 r g b).extractLsb' 5 6 = g.extractLsb' 2 6 := by
    ext i hi
    interval_cases i <;> simp [rgb565]
  have hb : (rgb565 r g b).extractLsb' 0 5 = b.extractLsb' 3 5 := by
    ext i hi
    interval_cases i <;> simp [rgb565]
  refine ⟨hr, hg, hb, rfl, fun c => ?_⟩
  unfold packColor
  cases c.colorOrder <;> rfl

end Sys2Proof
end

section
/-! PROOFS. From the host's descriptor to the machine (30_encoding.md R109, R111, R113): what an idle
machine runs, what it refuses, and how the wire is reached. -/

namespace Sys2Proof.Machine

/-- Settles O5: the two ways an idle machine comes to run an instruction. -/
theorem stepRunsDecoded : Obligations.StepRunsDecoded :=
  ⟨fun _ _ _ _ hf hq hp hi hd => step_of_request hf hq hp hi hd,
    fun _ _ _ hf hq hp hd => step_of_frame hf hq hp hd⟩

/-! ### Reserved descriptors are refused -/

theorem decodeDescriptor_error_iff (d : Descriptor) :
    (∃ e, decodeDescriptor d = .error e) ↔ Descriptor.reserved d := by
  rcases decodeDescriptor_cases d with ⟨hr, i, hd, _⟩ | ⟨hr, hd⟩
  · simp [hd, hr]
  · exact ⟨fun _ => hr, fun _ => hd.elim (fun h => ⟨_, h⟩) fun h => ⟨_, h⟩⟩

/-- An idle machine refuses a reserved descriptor by name (R111), whether or not `inited`. -/
theorem step_of_reserved {s : State} {d : Descriptor} {rest : List HostMove} (hr : Descriptor.reserved d)
    (hf : s.fault = none) (hq : s.seq = .idle) (hp : s.port = none) (hi : s.inputs = .request d :: rest) :
    step s = .refused .reservedEncoding := by
  rcases decodeDescriptor_cases d with ⟨hn, _⟩ | ⟨_, hd | hd⟩
  · exact absurd hr hn
  · exact step_of_reserved_request hf hq hp hi hd
  · exact step_of_reserved_request hf hq hp hi hd

/-- Settles O3: the decoder rejects the reserved descriptors and no other, and both its rejections are the
refusal `reservedEncoding`, which takes the request away and sets the mark. -/
theorem reservedDescriptorsRefused : Obligations.ReservedDescriptorsRefused := by
  intro d
  refine ⟨decodeDescriptor_error_iff d, fun s rest hr hf hq hp hi => ?_⟩
  have hstep := step_of_reserved hr hf hq hp hi
  refine ⟨hstep, ?_⟩
  rw [hstep]
  simp [settle, dropRefused, hp, hi]

/-! ### The wire is reached by host operations alone -/

theorem isHost_of_decodeDescriptor {d : Descriptor} {i : Instr} (h : decodeDescriptor d = .ok i) :
    i.isHost = true := by
  rcases decodeDescriptor_cases d with ⟨_, j, hd, hj⟩ | ⟨_, hd | hd⟩
  · cases hd.symm.trans h
    exact hj
  · cases hd.symm.trans h
  · cases hd.symm.trans h

/-- No step fills an empty port: a refusal takes a request away, and no operation writes the port. -/
theorem settle_step_port {s : State} (hp : s.port = none) : (settle s (step s)).port = none := by
  have exec_port : ∀ i t, t.port = none → Outcome.onLeft (exec i t) fun u => u.port = none :=
    fun i t ht => exec_onLeft ((body_kept i { t with seq := .busy 0 }).mono fun _ h => h.port.trans ht)
      (fun _ _ h => h) fun _ _ h => h
  have hleft : Outcome.onLeft (step s) fun u => u.port = none :=
    step_onLeft hp (fun _ _ _ _ => hp) (fun i _ => exec_port i _ rfl) fun _ _ i _ _ => exec_port i _ hp
  cases hs : step s with
  | next t =>
    rw [hs] at hleft
    exact hleft
  | fault f =>
    rw [hs] at hleft
    exact hleft
  | refused r => simp [settle, dropRefused, hp]

/-- What a step that runs no operation leaves of the wire, the panel, the lines, the flags and the block
engine's registers. -/
structure WireUntouched (s t : State) : Prop where
  trace : t.trace = s.trace
  panel : t.panel = s.panel
  rstLine : t.rstLine = s.rstLine
  dcLine : t.dcLine = s.dcLine
  csLine : t.csLine = s.csLine
  txe : t.txe = s.txe
  tc : t.tc = s.tc
  blkEn : t.blkEn = s.blkEn
  blkSrc : t.blkSrc = s.blkSrc
  blkLen : t.blkLen = s.blkLen

theorem WireUntouched.refl (s : State) : WireUntouched s s := by constructor <;> rfl

theorem WireUntouched.pokeHost (a : Addr) (v : Byte) (rest : List HostMove) (s : State) :
    WireUntouched s (pokeHost a v { s with inputs := rest }) := by constructor <;> rfl

/-- The step is the meaning of the instruction that the host's descriptor decodes to (R109). -/
def RunsRequest (s : State) : Prop :=
  ∃ d rest i, s.inputs = .request d :: rest ∧ decodeDescriptor d = .ok i ∧
    step s = exec i (latch d { s with inputs := rest })

/-- From an empty port a step leaves the wire alone, or is the meaning of the instruction that the host's
descriptor decodes to (R113). -/
theorem step_cases_of_empty_port {s : State} (hp : s.port = none) :
    Outcome.onLeft (step s) (WireUntouched s) ∨ RunsRequest s := by
  cases hf : s.fault with
  | some f =>
    rw [step_of_fault hf]
    refine .inl ?_
    show WireUntouched s (Fault.left _)
    rw [Fault.left_of]
    exact WireUntouched.refl s
  | none =>
    cases hq : s.seq with
    | busy k =>
      rw [step_of_busy hf hq]
      exact .inl (WireUntouched.refl s)
    | idle =>
      match hi : s.inputs with
      | [] =>
        rw [step_of_no_input hf hq hp hi]
        exact .inl (WireUntouched.refl s)
      | .poke a v :: rest =>
        rw [step_of_poke hf hq hp hi]
        exact .inl (WireUntouched.pokeHost a v rest s)
      | .request d :: rest =>
        cases hd : decodeDescriptor d with
        | ok i => exact .inr ⟨d, rest, i, hi, hd, step_of_request hf hq hp hi hd⟩
        | error e =>
          rw [step_of_reserved_request hf hq hp hi hd]
          exact .inl trivial

theorem Outcome.onLeft_of_forall {o : Outcome} {p : State → Prop} (h : ∀ t, p t) :
    Outcome.onLeft o p := by
  cases o with
  | next t => exact h t
  | fault f => exact h _
  | refused r => trivial

/-- Settles O6: the port stays empty, so a step runs nothing but what a descriptor decodes to, a host
operation; before the first INIT the gate of R42 leaves no state of any other. -/
theorem routinesOnlyByHostOperations : Obligations.RoutinesOnlyByHostOperations := by
  refine ⟨rfl, fun d i => isHost_of_decodeDescriptor, fun s hp => ⟨settle_step_port hp, ?_⟩⟩
  rcases step_cases_of_empty_port hp with h | ⟨d, rest, i, hi, hd, hs⟩
  · exact Outcome.onLeft_mono h fun t w => .inl ⟨w.trace, w.panel, w.rstLine, w.dcLine, w.csLine, w.txe,
      w.tc, w.blkEn, w.blkSrc, w.blkLen⟩
  · by_cases hg : gated i (latch d { s with inputs := rest })
    · rw [hs, exec_gated hg]
      trivial
    · have hallowed : i = .init ∨ s.inited = true := by
        by_contra hn
        obtain ⟨hne, hin⟩ := not_or.mp hn
        exact hg ⟨isHost_of_decodeDescriptor hd, hne, Bool.eq_false_of_not_eq_true hin⟩
      exact Outcome.onLeft_of_forall fun _ => .inr ⟨d, rest, i, hi, hd, hallowed, hs⟩

end Sys2Proof.Machine
end

section
/-! PROOFS. The events of a routine in every configuration, also one whose width no plan is written for:
they are the twelve commands' (30_encoding.md R107), and they do not depend on the latches (R112,
10_state.md R23). -/

namespace Sys2Proof.Machine

/-! ### Events of the twelve commands -/

/-- A command byte is the opcode of one of the twelve (R104); every other event is free. -/
def Event.OfTwelve (c : Config) : Event → Prop
  | .byte .cmd v => ∃ k : PanelCmd, v = c.opcodes.code k
  | .byte .data _ | .rst _ | .cs _ | .delay _ => True

/-- No event carries a command byte that is none of the twelve (R107). -/
def Lawful (c : Config) (evs : List Event) : Prop := ∀ e ∈ evs, e.OfTwelve c

theorem Lawful.append {c : Config} {a b : List Event} (ha : Lawful c a) (hb : Lawful c b) :
    Lawful c (a ++ b) :=
  List.forall_mem_append.mpr ⟨ha, hb⟩

theorem Lawful.cons {c : Config} {e : Event} {evs : List Event} (he : e.OfTwelve c) (h : Lawful c evs) :
    Lawful c (e :: evs) :=
  List.forall_mem_cons.mpr ⟨he, h⟩

theorem Lawful.nil (c : Config) : Lawful c [] := List.forall_mem_nil _

theorem Lawful.take {c : Config} {evs : List Event} (h : Lawful c evs) (k : Nat) : Lawful c (evs.take k) :=
  fun e he => h e (List.mem_of_mem_take he)

theorem Lawful.flatMap {α : Type} {c : Config} {l : List α} {f : α → List Event}
    (h : ∀ a, Lawful c (f a)) : Lawful c (l.flatMap f) := by
  intro e he
  obtain ⟨a, _, ha⟩ := List.mem_flatMap.mp he
  exact h a e ha

theorem data_lawful (c : Config) (bs : List Byte) : Lawful c (bs.map (Event.byte .data)) := by
  intro e he
  obtain ⟨b, _, rfl⟩ := List.mem_map.mp he
  trivial

theorem halfEvents_lawful (c : Config) (v : Half) : Lawful c (halfEvents v) := data_lawful c [hi8 v, lo8 v]

theorem payloadEvents_lawful (c : Config) (ps : List Half) : Lawful c (payloadEvents ps) :=
  Lawful.flatMap (halfEvents_lawful c)

theorem blockEvents_lawful (c : Config) (s : State) (src : BlockSrc) (len reps : Nat) :
    Lawful c (blockEvents s src len reps) := by
  intro e he
  obtain ⟨l, hl, hel⟩ := List.mem_flatten.mp he
  rw [List.eq_of_mem_replicate hl] at hel
  exact data_lawful c _ e hel

theorem csEvents_lawful (c : Config) (l : CsLevel) : Lawful c (csEvents c l) := by
  unfold csEvents
  split
  · exact .cons trivial (.nil c)
  · exact .nil c

theorem casetEvents_lawful (c : Config) (a b : Half) : Lawful c (casetEvents c a b) :=
  .cons ⟨.caset, rfl⟩ ((halfEvents_lawful c a).append (halfEvents_lawful c b))

theorem rasetEvents_lawful (c : Config) (a b : Half) : Lawful c (rasetEvents c a b) :=
  .cons ⟨.raset, rfl⟩ ((halfEvents_lawful c a).append (halfEvents_lawful c b))

theorem windowEvents_lawful (c : Config) (x0 y0 x1 y1 : Half) : Lawful c (windowEvents c x0 y0 x1 y1) :=
  ((casetEvents_lawful c x0 x1).append (rasetEvents_lawful c y0 y1)).append (.cons ⟨.ramwr, rfl⟩ (.nil c))

theorem transaction_lawful (c : Config) (t : Transaction) : Lawful c (t.events c) :=
  (((csEvents_lawful c _).append (windowEvents_lawful c _ _ _ _)).append
    (payloadEvents_lawful c _)).append (csEvents_lawful c _)

theorem settledEvents_lawful {c : Config} (k : PanelCmd) (n : Nat) :
    Lawful c (settledEvents (c.opcodes.code k) n) :=
  .cons ⟨k, rfl⟩ (.cons trivial (.nil c))

theorem configuredEvents_lawful {c : Config} (k : PanelCmd) (p : Byte) :
    Lawful c (configuredEvents (c.opcodes.code k) p) :=
  .cons ⟨k, rfl⟩ (data_lawful c [p])

theorem gammaEvents_lawful {c : Config} (k : PanelCmd) (table : List Byte) :
    Lawful c (gammaEvents (c.opcodes.code k) table) := by
  refine .cons ⟨k, rfl⟩ fun e he => ?_
  obtain ⟨j, _, rfl⟩ := List.mem_map.mp he
  trivial

theorem initEvents_lawful (c : Config) : Lawful c (initEvents c) := by
  have inversion : Lawful c
      (settledEvents (if c.invert then c.opcodes.invon else c.opcodes.invoff) c.tSettle) := by
    split
    · exact settledEvents_lawful .invon _
    · exact settledEvents_lawful .invoff _
  have start : Lawful c [.rst false, .delay c.tRstLow, .rst true, .delay c.tRstHigh] :=
    .cons trivial (.cons trivial (.cons trivial (.cons trivial (.nil c))))
  exact start |>.append (csEvents_lawful c _) |>.append (settledEvents_lawful .slpout _)
    |>.append (configuredEvents_lawful .madctl _) |>.append (configuredEvents_lawful .colmod _)
    |>.append (gammaEvents_lawful .gmctrp1 _) |>.append (gammaEvents_lawful .gmctrn1 _)
    |>.append inversion |>.append (settledEvents_lawful .noron _)
    |>.append (settledEvents_lawful .dispon _) |>.append (csEvents_lawful c _)

theorem Plan.andThen_lawful {c : Config} {p q : Plan} (hp : Lawful c p.events) (hq : Lawful c q.events) :
    Lawful c (p.andThen q).events := by
  unfold Plan.andThen
  split
  · exact hp
  · exact hp.append hq

theorem glyphPlan_lawful (s : State) (x : Half) (ch : Byte) : Lawful s.cfg (glyphPlan s x ch).events := by
  unfold glyphPlan
  split
  · exact .nil _
  · split
    · exact .nil _
    · exact transaction_lawful _ _

theorem textPlan_lawful (s : State) (x : Half) (chars : List Byte) :
    Lawful s.cfg (textPlan s x chars).events := by
  induction chars generalizing x with
  | nil => exact .nil _
  | cons ch rest ih => exact Plan.andThen_lawful (glyphPlan_lawful s x ch) (ih _)

theorem bitmapPlan_lawful (c : Config) (m : Memory) (x y w h : Half) (addr : Addr) :
    Lawful c (bitmapPlan c m x y w h addr).events := by
  unfold bitmapPlan
  split
  · exact .nil c
  · split
    · exact .nil c
    · split
      · exact .nil c
      · exact transaction_lawful c _

/-! ### Two runs that differ only in the latches -/

/-- A state with other latches. -/
def State.relatch (l : Latches) (s : State) : State := { s with latches := l }

/-- A run from a state and a run from the state with other latches follow one plan, of the twelve
commands. -/
def Alike (s : State) (l : Latches) (r r' : Run) : Prop :=
  ∃ pl : Plan, Lawful s.cfg pl.events ∧ Follows pl s r ∧ Follows pl (s.relatch l) r'

/-- A routine's events are the twelve commands' and do not depend on the latches. -/
def Scripted (f : State → Run) : Prop := ∀ s l, Alike s l (f s) (f (s.relatch l))

/-- What is left of two states without the observation, and the same events taken, give the state but for
the latches. -/
theorem relatch_eq_of_took {evs : List Event} {s t t' : State} {l : Latches} (l' : Latches)
    (hu : t.unread = t'.unread) (ht : Took evs s t) (ht' : Took evs (s.relatch l) t') :
    t.relatch l' = t'.relatch l' := by
  have htrace : t.trace = t'.trace := ht.trace.trans ht'.trace.symm
  have hpanel : t.panel = t'.panel := ht.panel.trans ht'.panel.symm
  show ({ t.unread with trace := t.trace, panel := t.panel, latches := l' } : State)
    = { t'.unread with trace := t'.trace, panel := t'.panel, latches := l' }
  rw [hu, htrace, hpanel]

theorem Blind.relatch {f : State → Run} (h : Blind f) (s : State) (l : Latches) :
    (f s).unread = (f (s.relatch l)).unread :=
  (h s).trans (h (s.relatch l)).symm

theorem Alike.andThen {s : State} {l : Latches} {r r' : Run} {g : State → Run} (h : Alike s l r r')
    (hu : r.unread = r'.unread) (hg : Scripted g) : Alike s l (r.andThen g) (r'.andThen g) := by
  obtain ⟨p, law, hp, hp'⟩ := h
  cases r <;> cases r' <;> injection hu
  case done.done t t' hu =>
    have ht : Took p.events s t := hp.2.1
    have ht' : Took p.events (s.relatch l) t' := hp'.2.1
    have e : t.relatch t'.latches = t' := relatch_eq_of_took t'.latches hu ht ht'
    obtain ⟨q, lawq, hq, hq'⟩ := hg t t'.latches
    rw [ht.cfg] at lawq
    rw [e] at hq'
    refine ⟨p.andThen q, Plan.andThen_lawful law lawq, hp.andThen ?_, hp'.andThen ?_⟩
    · rintro _ ⟨⟩ _
      exact hq
    · rintro _ ⟨⟩ _
      exact hq'
  case stuck.stuck => exact ⟨p, law, hp, hp'⟩
  case raised.raised => exact ⟨p, law, hp, hp'⟩

theorem Alike.ite {s : State} {l : Latches} {c c' : Prop} [Decidable c] [Decidable c'] (hc : c ↔ c')
    {r r' q q' : Run} (hr : Alike s l r r') (hq : Alike s l q q') :
    Alike s l (if c then r else q) (if c' then r' else q') := by
  by_cases h : c
  · rwa [if_pos h, if_pos (hc.mp h)]
  · rwa [if_neg h, if_neg (mt hc.mpr h)]

/-- An update that emits nothing. -/
theorem Alike.silent {s t t' : State} {l : Latches} (h : Follows Plan.nothing s (.done t))
    (h' : Follows Plan.nothing (s.relatch l) (.done t')) : Alike s l (.done t) (.done t') :=
  ⟨Plan.nothing, .nil _, h, h'⟩

theorem Alike.refl (s : State) (l : Latches) : Alike s l (.done s) (.done (s.relatch l)) :=
  .silent (.silent rfl ⟨rfl, rfl⟩ rfl rfl) (.silent rfl ⟨rfl, rfl⟩ rfl rfl)

theorem Alike.raised (k : FaultKind) (s : State) (l : Latches) :
    Alike s l (.raised k s) (.raised k (s.relatch l)) :=
  ⟨Plan.fails k, .nil _, ⟨rfl, Took.refl _⟩, ⟨rfl, Took.refl _⟩⟩

theorem Scripted.of_follows {f : State → Run} (pl : State → Plan)
    (hl : ∀ s l, pl (s.relatch l) = pl s) (law : ∀ s, Lawful s.cfg (pl s).events)
    (h : ∀ s, Follows (pl s) s (f s)) : Scripted f :=
  fun s l => ⟨pl s, law s, h s, hl s l ▸ h (s.relatch l)⟩

theorem Scripted.andThen {f g : State → Run} (hf : Scripted f) (hb : Blind f) (hg : Scripted g) :
    Scripted fun s => (f s).andThen g :=
  fun s l => (hf s l).andThen (hb.relatch s l) hg

/-! ### The block transfer of a staged run, at any length -/

theorem openWindow_follows (x0 y0 x1 y1 : Half) (s : State) :
    Follows (Plan.emits (csEvents s.cfg .assert ++ windowEvents s.cfg x0 y0 x1 y1)) s
      (setWindow x0 y0 x1 y1 (select s)) := by
  have h := Follows.after (select_took s) (select_env s) (setWindow_follows x0 y0 x1 y1 (select s))
  rwa [(select_wire s).cfg, Plan.emits_andThen_emits] at h

theorem openWindow_scripted (x0 y0 x1 y1 : Half) : Scripted fun s => setWindow x0 y0 x1 y1 (select s) :=
  .of_follows _ (fun _ _ => rfl)
    (fun s => (csEvents_lawful s.cfg _).append (windowEvents_lawful s.cfg x0 y0 x1 y1))
    (openWindow_follows x0 y0 x1 y1)

/-- A block transfer feeds its bytes, or raises its fault before any. -/
theorem sendBlock_scripted (src : BlockSrc) (len reps : Nat) : Scripted (sendBlock src len reps) := by
  by_cases h : len = 0 ∨ len > blockLenMax ∨ reps = 0 ∨ reps > repeatMax
  · intro s l
    unfold sendBlock
    rw [if_pos h, if_pos h]
    exact Alike.raised _ s l
  · exact .of_follows _ (fun _ _ => rfl) (fun s => blockEvents_lawful s.cfg s src len reps)
      (sendBlock_follows h src)

theorem blockTransaction_scripted (x0 y0 x1 y1 : Half) (src : BlockSrc) (len reps : Nat) :
    Scripted (blockTransaction x0 y0 x1 y1 src len reps) := by
  have close : Scripted fun s => .done (deselect s) :=
    .of_follows _ (fun _ _ => rfl) (fun s => csEvents_lawful s.cfg _) deselect_follows
  exact (openWindow_scripted x0 y0 x1 y1).andThen ((setWindow_blind x0 y0 x1 y1).comp select_blind)
    ((sendBlock_scripted src len reps).andThen (sendBlock_blind src len reps) close)

theorem stageRun_scripted (c : Half) (n : Nat) : Scripted (stageRun c n) := by
  refine fun s l => Alike.ite Iff.rfl (Alike.raised _ s l) ?_
  exact .silent (.silent rfl ⟨rfl, rfl⟩ rfl rfl) (.silent rfl ⟨rfl, rfl⟩ rfl rfl)

/-- A staged run and its transaction: the shape of a fill and of both fast lines. -/
theorem staged_scripted (c : Half) (n : Nat) (x0 y0 x1 y1 : Half) (reps : Nat) :
    Scripted fun s => (stageRun c n s).andThen fun s =>
      blockTransaction x0 y0 x1 y1 (.rowBuf 0) (2 * n) reps s :=
  (stageRun_scripted c n).andThen (stageRun_blind c n) (blockTransaction_scripted _ _ _ _ _ _ _)

/-! ### The Rasterizer -/

theorem fillRect_scripted (x y w h c : Half) : Scripted (fillRect x y w h c) := fun s l =>
  Alike.ite Iff.rfl (Alike.refl s l) (Alike.ite Iff.rfl (Alike.raised _ s l)
    (staged_scripted c w.toNat _ _ _ _ _ s l))

theorem fastHLine_scripted (x y : Half) (len : Nat) (c : Half) : Scripted (fastHLine x y len c) :=
  fun s l => Alike.ite Iff.rfl (Alike.refl s l) (Alike.ite Iff.rfl (Alike.raised _ s l)
    (staged_scripted c len _ _ _ _ _ s l))

theorem fastVLine_scripted (x y : Half) (len : Nat) (c : Half) : Scripted (fastVLine x y len c) :=
  fun s l => Alike.ite Iff.rfl (Alike.refl s l) (Alike.ite Iff.rfl (Alike.raised _ s l)
    (staged_scripted c len _ _ _ _ _ s l))

theorem drawRect_scripted (x y w h c : Half) : Scripted (drawRect x y w h c) := by
  refine fun s l => Alike.ite Iff.rfl (Alike.refl s l) ?_
  refine Alike.andThen (fastHLine_scripted _ _ _ _ s l) ((fastHLine_blind _ _ _ _).relatch s l) ?_
  refine (fastHLine_scripted _ _ _ _).andThen (fastHLine_blind _ _ _ _) ?_
  exact (fastVLine_scripted _ _ _ _).andThen (fastVLine_blind _ _ _ _) (fastVLine_scripted _ _ _ _)

theorem pixel_scripted (x y c : Half) : Scripted (pixel x y c) :=
  .of_follows _ (fun _ _ => rfl) (fun s => transaction_lawful s.cfg _) (pixel_follows x y c)

theorem bresenhamLoop_scripted (steep : Bool) (dx dy ys : Int) (c : Half) (n : Nat) (xx yy err : Int) :
    Scripted (bresenhamLoop steep dx dy ys c n xx yy err) := by
  induction n generalizing xx yy err with
  | zero => exact Alike.refl
  | succ n ih =>
    intro s l
    unfold bresenhamLoop
    refine Alike.andThen ?_ ?_ fun t l => ?_
    · split <;> exact pixel_scripted _ _ _ s l
    · split <;> exact (pixel_blind _ _ _).relatch s l
    · split <;> exact ih _ _ _ t l

theorem drawLine_scripted (x0 y0 x1 y1 c : Half) : Scripted (drawLine x0 y0 x1 y1 c) := by
  intro s l
  unfold drawLine
  split
  · exact fastVLine_scripted _ _ _ _ s l
  · split
    · exact fastHLine_scripted _ _ _ _ s l
    · unfold bresenham bresenhamOrdered bresenhamFrom
      split <;> split <;> exact bresenhamLoop_scripted _ _ _ _ _ _ _ _ _ s l

/-! ### Every instruction -/

theorem textPlan_relatch (s : State) (l : Latches) (x : Half) (chars : List Byte) :
    textPlan (s.relatch l) x chars = textPlan s x chars :=
  SameSource.textPlan_eq (s := s) (t := s.relatch l) ⟨rfl, rfl, rfl, rfl, rfl, rfl, rfl⟩ x chars

theorem body_scripted_of_raster {i : Instr} (hi : i.isRaster = true) : Scripted (bodyOf i) := by
  cases i with
  | drawPixel x y c => exact pixel_scripted x y c
  | drawLine x0 y0 x1 y1 c => exact drawLine_scripted x0 y0 x1 y1 c
  | drawRect x y w h c => exact drawRect_scripted x y w h c
  | fillRect x y w h c => exact fillRect_scripted x y w h c
  | drawBitmap x y w h p =>
    exact .of_follows _ (fun _ _ => rfl) (fun s => bitmapPlan_lawful s.cfg s.host x y w h p)
      (drawBitmap_follows x y w h p)
  | _ => cases hi

theorem body_scripted_of_text {i : Instr} (hi : i.isText = true) : Scripted (bodyOf i) := by
  cases i with
  | setCursor x y | setColor c | setBgColor c =>
    exact .of_follows (fun _ => Plan.nothing) (fun _ _ => rfl) (fun _ => .nil _)
      fun _ => Follows.silent rfl ⟨rfl, rfl⟩ rfl rfl
  | printChar ch =>
    exact .of_follows _ (fun _ _ => rfl) (fun s => glyphPlan_lawful s _ ch) (glyph_follows ch)
  | print len addr =>
    exact .of_follows _ (fun s l => textPlan_relatch s l _ _) (fun s => textPlan_lawful s _ _)
      (printString_follows len addr)
  | printNumber n width =>
    exact .of_follows _ (fun s l => textPlan_relatch s l _ _) (fun s => textPlan_lawful s _ _)
      (printNumber_follows n width)
  | _ => cases hi

theorem settledCommand_scripted (k : PanelCmd) (n : Config → Nat) :
    Scripted fun s => settledCommand (s.cfg.opcodes.code k) (n s.cfg) s :=
  .of_follows _ (fun _ _ => rfl) (fun _ => settledEvents_lawful k _) fun s => settledCommand_follows _ _ s

theorem configuredCommand_scripted (k : PanelCmd) (p : Config → Byte) :
    Scripted fun s => configuredCommand (s.cfg.opcodes.code k) (p s.cfg) s :=
  .of_follows _ (fun _ _ => rfl) (fun _ => configuredEvents_lawful k _)
    fun s => configuredCommand_follows _ _ s

theorem ramwrFrame_scripted (ps : List Half) : Scripted (ramwrFrame ps) :=
  .of_follows (fun s => Plan.emits (.byte .cmd s.cfg.opcodes.ramwr :: payloadEvents ps)) (fun _ _ => rfl)
    (fun s => .cons ⟨.ramwr, rfl⟩ (payloadEvents_lawful s.cfg ps)) (ramwrFrame_follows ps)

theorem gammaCommand_scripted (k : PanelCmd) {src : BlockSrc} (table : Config → List Byte)
    (h : ∀ (s : State) j, sourceByte s src j = (table s.cfg).getD j 0) :
    Scripted fun s => gammaCommand (s.cfg.opcodes.code k) src s :=
  .of_follows (fun s => Plan.emits (gammaEvents (s.cfg.opcodes.code k) (table s.cfg))) (fun _ _ => rfl)
    (fun _ => gammaEvents_lawful k _) fun s => gammaCommand_follows _ s fun t ht j => ht ▸ h t j

/-- A panel command on its own has the plan of its row of the table (R161 to R172). -/
theorem body_scripted_of_command {i : Instr} (hi : i.isHost = false) : Scripted (bodyOf i) := by
  cases i with
  | slpout => exact settledCommand_scripted .slpout Config.tSlpout
  | noron => exact settledCommand_scripted .noron Config.tSettle
  | invoff => exact settledCommand_scripted .invoff Config.tSettle
  | invon => exact settledCommand_scripted .invon Config.tSettle
  | dispon => exact settledCommand_scripted .dispon Config.tSettle
  | madctl => exact configuredCommand_scripted .madctl Config.madctlValue
  | colmod => exact configuredCommand_scripted .colmod Config.colmodValue
  | gmctrp1 => exact gammaCommand_scripted .gmctrp1 Config.gammaP fun _ _ => rfl
  | gmctrn1 => exact gammaCommand_scripted .gmctrn1 Config.gammaN fun _ _ => rfl
  | caset a b =>
    exact .of_follows _ (fun _ _ => rfl) (fun s => casetEvents_lawful s.cfg a b) (casetFrame_follows a b)
  | raset a b =>
    exact .of_follows _ (fun _ _ => rfl) (fun s => rasetEvents_lawful s.cfg a b) (rasetFrame_follows a b)
  | ramwr ps => exact ramwrFrame_scripted ps
  | _ => cases hi

theorem body_scripted (i : Instr) : Scripted (bodyOf i) := by
  rcases instr_kinds i with rfl | hi | hi | hi
  · exact .of_follows _ (fun _ _ => rfl) (fun s => initEvents_lawful s.cfg) initSequence_follows
  · exact body_scripted_of_raster hi
  · exact body_scripted_of_text hi
  · exact body_scripted_of_command hi

/-! ### What the two runs leave -/

/-- A run with other latches in the state it leaves. -/
def Run.relatch (l : Latches) : Run → Run
  | .done s => .done (s.relatch l)
  | .stuck s => .stuck (s.relatch l)
  | .raised k s => .raised k (s.relatch l)

/-- Two runs from a running operation, alike and with one unread part, take the same events: where both
are stuck, the position counts how many. -/
theorem Alike.took {s : State} {l : Latches} {r r' : Run} {n : Nat} (h : Alike s l r r')
    (hu : r.unread = r'.unread) (hq : s.seq = .busy n) :
    ∃ evs, Lawful s.cfg evs ∧ r.Leaves (Took evs s) ∧ r'.Leaves (Took evs (s.relatch l)) := by
  obtain ⟨pl, law, hp, hp'⟩ := h
  cases r <;> cases r' <;> injection hu
  case done.done => exact ⟨pl.events, law, hp.2.1, hp'.2.1⟩
  case raised.raised => exact ⟨pl.events, law, hp.2, hp'.2⟩
  case stuck.stuck t t' hu =>
    obtain ⟨_, k, hk, ht⟩ := hp
    obtain ⟨_, k', hk', ht'⟩ := hp'
    have hseq : t.seq = t'.seq := (congrArg State.seq hu : t.unread.seq = t'.unread.seq)
    have hkk : k = k' := by
      rw [ht.seq, ht'.seq, show (s.relatch l).seq = .busy n from hq, hq] at hseq
      simpa [Seq.plus, hk, hk'] using hseq
    subst hkk
    exact ⟨_, law.take k, ht, ht'⟩

theorem Alike.relatch_eq {s : State} {l : Latches} {r r' : Run} {n : Nat} (h : Alike s l r r')
    (hu : r.unread = r'.unread) (hq : s.seq = .busy n) (l' : Latches) :
    r.relatch l' = r'.relatch l' := by
  obtain ⟨evs, _, ht, ht'⟩ := h.took hu hq
  cases r <;> cases r' <;> injection hu
  case done.done hu => exact congrArg Run.done (relatch_eq_of_took l' hu ht ht')
  case stuck.stuck hu => exact congrArg Run.stuck (relatch_eq_of_took l' hu ht ht')
  case raised.raised hk hu => exact hk ▸ congrArg (Run.raised _) (relatch_eq_of_took l' hu ht ht')

/-! ### The twelve commands -/

/-- The events an instruction adds are the twelve commands'. -/
theorem exec_lawful (i : Instr) (s : State) : Outcome.onLeft (exec i s) fun t =>
    ∃ evs, Lawful s.cfg evs ∧ t.trace = s.trace ++ evs := by
  obtain ⟨evs, law, ht, _⟩ := (body_scripted i { s with seq := .busy 0 } s.latches).took
    ((body_blind i).relatch _ _) rfl
  exact exec_onLeft (ht.mono fun t h => ⟨evs, law, h.trace⟩) (fun _ _ h => h) fun _ _ h => h

theorem Lawful.command_of_mem {c : Config} {evs : List Event} (h : Lawful c evs) {v : Byte}
    (hv : Event.byte .cmd v ∈ evs) : ∃ k : PanelCmd, v = c.opcodes.code k :=
  h _ hv

/-- Settles O53: a step adds no event, or those of an instruction that it runs. -/
theorem onlyTheTwelveCommands : Obligations.OnlyTheTwelveCommands := by
  intro s v
  have ran : ∀ i u, u.trace = s.trace → u.cfg = s.cfg → Outcome.onLeft (exec i u) fun t =>
      Event.byte .cmd v ∈ t.trace.drop s.trace.length → ∃ k : PanelCmd, v = s.cfg.opcodes.code k := by
    intro i u htrace hcfg
    refine Outcome.onLeft_mono (exec_lawful i u) fun t ⟨evs, law, ht⟩ hv => ?_
    rw [ht, htrace, List.drop_left] at hv
    rw [hcfg] at law
    exact law.command_of_mem hv
  have kept : Event.byte .cmd v ∈ s.trace.drop s.trace.length →
      ∃ k : PanelCmd, v = s.cfg.opcodes.code k := by
    rw [List.drop_length]
    exact nofun
  exact step_onLeft kept (fun _ _ _ _ => kept) (fun i _ => ran i _ rfl rfl)
    fun _ _ i _ _ => ran i _ rfl rfl

/-! ### Descriptors that differ in ignored fields -/

theorem runOperation_relatch {op : Byte} {body : State → Run} {s : State} {l l' : Latches}
    (h : (body { s with seq := .busy 0 }).relatch l'
      = (body { s.relatch l with seq := .busy 0 }).relatch l') :
    Outcome.mapState (State.relatch l') (runOperation op body s)
      = Outcome.mapState (State.relatch l') (runOperation op body (s.relatch l)) := by
  unfold runOperation
  cases h1 : body { s with seq := .busy 0 } <;> cases h2 : body { s.relatch l with seq := .busy 0 } <;>
    rw [h1, h2] at h <;> injection h
  case done.done t t' e =>
    exact congrArg (fun u : State => Host.Outcome.next { u with seq := .idle }) e
  case stuck.stuck t t' e => exact congrArg Host.Outcome.next e
  case raised.raised k t k' t' ek e =>
    subst ek
    simp only [raiseFault, mapState_fault_of]
    exact congrArg (fun u : State =>
      Host.Outcome.fault (Fault.of k op { u with fault := some { kind := k, op := op } })) e

/-- An instruction's outcome does not depend on the latches, but for the latches themselves. -/
theorem exec_relatch (i : Instr) (s : State) (l l' : Latches) :
    Outcome.mapState (State.relatch l') (exec i s)
      = Outcome.mapState (State.relatch l') (exec i (s.relatch l)) := by
  by_cases hg : gated i s
  · rw [exec_gated hg, exec_gated (s := s.relatch l) hg]
  · rw [exec_open hg, exec_open (s := s.relatch l) hg]
    exact runOperation_relatch ((body_scripted i { s with seq := .busy 0 } l).relatch_eq
      ((body_blind i).relatch _ l) rfl l')

/-- A machine ready for the host's moves, with a request put first among them. -/
theorem step_first_request {s : State} (hf : s.fault = none) (hq : s.seq = .idle) (hp : s.port = none)
    {d : Descriptor} (rest : List HostMove) {i : Instr} (hd : decodeDescriptor d = .ok i) :
    step { s with inputs := .request d :: rest } = exec i (latch d { s with inputs := rest }) :=
  step_of_request (s := { s with inputs := .request d :: rest }) hf hq hp rfl hd

theorem step_first_reserved {s : State} (hf : s.fault = none) (hq : s.seq = .idle) (hp : s.port = none)
    {d : Descriptor} (rest : List HostMove) {e : Reject} (hd : decodeDescriptor d = .error e) :
    step { s with inputs := .request d :: rest } = .refused (refusalOf e) :=
  step_of_reserved_request (s := { s with inputs := .request d :: rest }) hf hq hp rfl hd

/-- Settles O4: the two descriptors decode alike, so both are refused alike or run one instruction in two
states that differ in the latches. -/
theorem ignoredFieldsDoNotMatter : Obligations.IgnoredFieldsDoNotMatter := by
  intro d e s rest h hf hq hp
  have hde := decodeDescriptor_eq_of_usedBits h
  cases hd : decodeDescriptor d with
  | error r =>
    rw [step_first_reserved hf hq hp rest hd, step_first_reserved hf hq hp rest (hde ▸ hd)]
  | ok i =>
    rw [step_first_request hf hq hp rest hd, step_first_request hf hq hp rest (hde ▸ hd)]
    exact exec_relatch i (latch d { s with inputs := rest })
      (latch e { s with inputs := rest }).latches s.latches

end Sys2Proof.Machine
end

section
/-! PROOFS. The Transport's routines, where the environment answers and where an engine stalls
(40_transport.md R144 to R153, 60_exceptions.md R255, 70_reset_and_hazards.md R288). -/

namespace Sys2Proof.Machine

/-! ### The byte routines, answered -/

/-- Where every wait is answered, a routine that sends bytes and nothing else is done, and its state is
known whole. -/
theorem Follows.live_sent {evs : List Event} {k : Kind} {s : State} {r : Run}
    (h : Follows (Plan.emits evs) s r) (hl : s.env.isLive) (hs : ∀ t, r = .done t → Sent k s t)
    (hw : r.Leaves (Wire s)) :
    r = .done { afterEvents evs s with seq := s.seq.plus evs.length, dcLine := k, txe := true } := by
  obtain ⟨t, rfl, ht, henv⟩ := h.live_done hl rfl
  exact congrArg Run.done ((hs t rfl).state hw ht henv)

theorem sendByte_live (k : Kind) (v : Byte) {s : State} (hl : s.env.isLive) :
    sendByte k v s = .done { afterEvents [.byte k v] s with
      seq := s.seq.plus 1, dcLine := k, txe := true } :=
  (sendByte_follows k v s).live_sent hl (fun _ => sendByte_done) (sendByte_wire k v s)

theorem sendData16_live (w : Half) {s : State} (hl : s.env.isLive) :
    sendData16 w s = .done { afterEvents (halfEvents w) s with
      seq := s.seq.plus 2, dcLine := .data, txe := true } :=
  (sendData16_follows w s).live_sent hl (fun _ => sendData16_done) (sendData16_wire w s)

/-- Settles O21: the three routines are one byte of either kind, and two data bytes. -/
theorem byteRoutines : Obligations.ByteRoutines := fun _ v w hl =>
  ⟨sendByte_live .cmd v hl, sendByte_live .data v hl, sendData16_live w hl⟩

/-! ### The block transfer, answered -/

/-- The state after a block transfer. -/
theorem Blocked.state {src : BlockSrc} {len : Nat} {evs : List Event} {s t : State}
    (d : Blocked src len s t) (w : Wire s t) (e : Took evs s t) (v : t.env = s.env) :
    t = { afterEvents evs s with
      seq := s.seq.plus evs.length, dcLine := .data, tc := true, blkEn := false, blkSrc := src
      blkLen := u16 len } := by
  ext1
  · exact w.cfg
  · exact w.curX
  · exact w.curY
  · exact w.color
  · exact w.bgColor
  · exact w.latches
  · exact e.seq
  · exact w.inited
  · exact d.rstLine
  · exact d.dcLine
  · exact d.csLine
  · exact d.txe
  · exact d.tc
  · exact d.blkEn
  · exact d.blkSrc
  · exact d.blkLen
  · exact w.rowBuf
  · exact w.glyphBuf
  · exact w.numBuf
  · exact w.host
  · exact e.panel
  · exact e.trace
  · exact v
  · exact w.inputs
  · exact w.port
  · exact w.freeCount
  · exact w.fault
  · exact w.refused

theorem blockEvents_length (s : State) (src : BlockSrc) (len reps : Nat) :
    (blockEvents s src len reps).length = len * reps := by
  simp [blockEvents, passBytes_length, Nat.mul_comm]

/-- The bytes of a block transfer, index by index (R150). -/
theorem blockEvents_eq (s : State) (src : BlockSrc) (len reps : Nat) :
    blockEvents s src len reps = (List.replicate reps
      ((List.range len).map fun j => Event.byte .data (sourceByte s src j))).flatten := by
  rw [blockEvents, passBytes, List.map_map]
  rfl

theorem sendBlock_live {src : BlockSrc} {len reps : Nat}
    (h : ¬ (len = 0 ∨ len > blockLenMax ∨ reps = 0 ∨ reps > repeatMax)) {s : State} (hl : s.env.isLive) :
    sendBlock src len reps s = .done { afterEvents (blockEvents s src len reps) s with
      seq := s.seq.plus (len * reps), dcLine := .data, tc := true, blkEn := false, blkSrc := src
      blkLen := u16 len } := by
  obtain ⟨t, hd, ht, henv⟩ := (sendBlock_follows h src s).live_done hl rfl
  rw [hd, ← blockEvents_length s src len reps]
  exact congrArg Run.done
    ((sendBlock_done hd).state ((sendBlock_wire src len reps s).of_done hd) ht henv)

/-- Settles O22: a transfer in range follows its passes to the end, and one out of range is the first
branch of `send_block`. -/
theorem blockTransferIsExact : Obligations.BlockTransferIsExact := by
  refine fun s src len reps => ⟨fun hl h1 h2 h3 h4 => ?_, fun h => if_pos h⟩
  rw [sendBlock_live (by omega) hl, blockEvents_eq]
  rfl

/-! ### The byte engine stalled -/

/-- A byte sent to an engine that never answers again leaves the wire with the byte and the flag clear. -/
theorem sendByte_stalled (k : Kind) (v : Byte) {s : State} (htxe : s.txe = true)
    (hspi : s.env.spi = some 0) :
    sendByte k v s = .stuck (emit (.byte k v) { s with dcLine := k, txe := false }) := by
  simp [sendByte, awaitTxe, htxe, hspi]

/-- A window, and with it a pixel, starts with a command byte. -/
theorem pixel_stalled (x y c : Half) {s : State} (htxe : s.txe = true) (hspi : s.env.spi = some 0) :
    pixel x y c s = .stuck (emit (.byte .cmd s.cfg.opcodes.caset)
      { select s with dcLine := .cmd, txe := false }) := by
  have hs : (select s).txe = true := (select_lines s).2.2.1.trans htxe
  have hb := sendByte_stalled .cmd s.cfg.opcodes.caset hs ((congrArg Env.spi (select_env s)).trans hspi)
  simp [pixel, setWindow, casetFrame, sendCommand, (select_wire s).cfg, hb]

/-- Settles O23: the pixel is stuck at its first byte, and a busy machine stays as it is. -/
theorem stalledByteEngine : Obligations.StalledByteEngine := by
  intro s x y c n hi hf htxe hspi
  have hopen : exec (.drawPixel x y c) s = runOperation 0x07 (pixel x y c) s := hostOperation_inited hi _ _
  refine ⟨_, hopen.trans (runOperation_stuck (pixel_stalled x y c htxe hspi)), ?_, ?_⟩
  · cases hcs : s.cfg.useCs <;> simp [select, csEvents, afterEvents, emit, hcs, Seq.plus]
  · refine (busyAcceptsNothing _ (if s.cfg.useCs then 2 else 1) n ?_ ?_).2
    · exact (select_wire _).fault.trans hf
    · cases hcs : s.cfg.useCs <;> simp [select, hcs, Seq.plus]

/-! ### The block engine stalled -/

/-- A routine that is done wherever the byte engine answers, whatever the other engines do, and leaves
the environment's answers as they were. -/
def NeedsSpiOnly (f : State → Run) : Prop :=
  ∀ s, s.env.spi = none → ∃ t, f s = .done t ∧ t.env = s.env

theorem NeedsSpiOnly.andThen {f g : State → Run} (hf : NeedsSpiOnly f) (hg : NeedsSpiOnly g) :
    NeedsSpiOnly fun s => (f s).andThen g := by
  intro s hs
  obtain ⟨t, ht, he⟩ := hf s hs
  obtain ⟨u, hu, he'⟩ := hg t (he ▸ hs)
  exact ⟨u, by simp only [ht, Run.andThen_done, hu], he'.trans he⟩

theorem awaitTxe_needsSpiOnly : NeedsSpiOnly awaitTxe := by
  intro s hs
  cases htxe : s.txe <;> simp [awaitTxe, htxe, hs]

theorem sendByte_needsSpiOnly (k : Kind) (v : Byte) : NeedsSpiOnly (sendByte k v) :=
  awaitTxe_needsSpiOnly.andThen fun s =>
    awaitTxe_needsSpiOnly (emit (.byte k v) { s with dcLine := k, txe := false })

theorem sendData16_needsSpiOnly (w : Half) : NeedsSpiOnly (sendData16 w) :=
  (sendByte_needsSpiOnly _ _).andThen (sendByte_needsSpiOnly _ _)

theorem casetFrame_needsSpiOnly (x0 x1 : Half) : NeedsSpiOnly (casetFrame x0 x1) := fun s =>
  ((sendByte_needsSpiOnly .cmd s.cfg.opcodes.caset).andThen
    ((sendData16_needsSpiOnly x0).andThen (sendData16_needsSpiOnly x1))) s

theorem rasetFrame_needsSpiOnly (y0 y1 : Half) : NeedsSpiOnly (rasetFrame y0 y1) := fun s =>
  ((sendByte_needsSpiOnly .cmd s.cfg.opcodes.raset).andThen
    ((sendData16_needsSpiOnly y0).andThen (sendData16_needsSpiOnly y1))) s

theorem setWindow_needsSpiOnly (x0 y0 x1 y1 : Half) : NeedsSpiOnly (setWindow x0 y0 x1 y1) :=
  (casetFrame_needsSpiOnly x0 x1).andThen ((rasetFrame_needsSpiOnly y0 y1).andThen
    fun s => sendByte_needsSpiOnly .cmd s.cfg.opcodes.ramwr s)

/-- What a block engine that never completes leaves of a transfer: the engine armed, `tc` cleared, and the
part of the first pass that it still feeds (R150, R288). -/
def stalledBlock (src : BlockSrc) (len : Nat) (s : State) : State :=
  feed ((passBytes s src len).take s.env.dmaPartial) { armBlock src len s with tc := false }

/-- A pass clears `tc` before it waits, so a flag left set does not end it. -/
theorem blockPass_stalled (src : BlockSrc) (len : Nat) {s : State} (hdma : s.env.dma = some 0) :
    blockPass src len s
      = .stuck (feed ((passBytes s src len).take s.env.dmaPartial) { s with tc := false }) := by
  have hfed : (passBytes s src len).take (fedBytes s len)
      = (passBytes s src len).take s.env.dmaPartial := by
    simp [fedBytes, hdma, List.take_eq_take_iff, passBytes_length]
  simp [blockPass, awaitTc, hfed, hdma]

theorem sendBlock_stalled {src : BlockSrc} {len reps : Nat}
    (h : ¬ (len = 0 ∨ len > blockLenMax ∨ reps = 0 ∨ reps > repeatMax)) {s : State}
    (hdma : s.env.dma = some 0) : sendBlock src len reps s = .stuck (stalledBlock src len s) := by
  obtain ⟨n, rfl⟩ : ∃ n, reps = n + 1 := ⟨reps - 1, by omega⟩
  have hp := blockPass_stalled src len (s := armBlock src len s) hdma
  have hw : Wire s (armBlock src len s) := by constructor <;> rfl
  rw [passBytes_wire hw] at hp
  unfold sendBlock
  rw [if_neg h, blockPasses, hp]
  rfl

theorem stalledBlock_took (src : BlockSrc) (len : Nat) (s : State) :
    Took (((passBytes s src len).map (Event.byte .data)).take s.env.dmaPartial) s
      (stalledBlock src len s) := by
  have h := feed_took ((passBytes s src len).take s.env.dmaPartial) { armBlock src len s with tc := false }
  rw [List.map_take] at h
  exact ⟨h.cfg, h.trace, h.seq, h.panel⟩

theorem stalledBlock_wire (src : BlockSrc) (len : Nat) (s : State) : Wire s (stalledBlock src len s) :=
  Wire.trans (by constructor <;> rfl) (feed_wire _ _)

/-- The engine after it stalled: `tc` is clear, the engine enabled, its length register loaded. -/
theorem stalledBlock_engine (src : BlockSrc) (len : Nat) (s : State) :
    (stalledBlock src len s).tc = false ∧ (stalledBlock src len s).blkEn = true
      ∧ (stalledBlock src len s).blkLen = u16 len := by
  obtain ⟨_, _, _, _, hen, _, hlen⟩ :=
    feed_lines ((passBytes s src len).take s.env.dmaPartial) { armBlock src len s with tc := false }
  exact ⟨feed_tc _ _, hen, hlen⟩

/-- The window of a transaction is sent, and its first pass stalls. -/
theorem blockTransaction_stalled {len reps : Nat}
    (h : ¬ (len = 0 ∨ len > blockLenMax ∨ reps = 0 ∨ reps > repeatMax)) (x0 y0 x1 y1 : Half)
    (src : BlockSrc) {s : State} (hspi : s.env.spi = none) (hdma : s.env.dma = some 0) :
    ∃ t, blockTransaction x0 y0 x1 y1 src len reps s = .stuck t ∧
      Took (csEvents s.cfg .assert ++ windowEvents s.cfg x0 y0 x1 y1
        ++ (blockEvents s src len 1).take s.env.dmaPartial) s t ∧
      t.fault = s.fault ∧ t.tc = false ∧ t.blkEn = true ∧ t.blkLen = u16 len := by
  obtain ⟨u, hu, henv⟩ := setWindow_needsSpiOnly x0 y0 x1 y1 (select s) (by simpa using hspi)
  rw [select_env] at henv
  have hw : Wire s u :=
    (select_wire s).trans ((setWindow_wire x0 y0 x1 y1 (select s)).of_done hu)
  have hwin := openWindow_follows x0 y0 x1 y1 s
  rw [hu] at hwin
  have hfed := stalledBlock_took src len u
  rw [passBytes_wire hw, henv] at hfed
  refine ⟨stalledBlock src len u, ?_, ?_, ?_, stalledBlock_engine src len u⟩
  · rw [blockTransaction, hu, Run.andThen_done, sendBlock_stalled h (henv ▸ hdma), Run.andThen_stuck]
  · rw [show blockEvents s src len 1 = (passBytes s src len).map (Event.byte .data) from
      List.append_nil _]
    exact hwin.2.1.trans hfed
  · exact (stalledBlock_wire src len u).fault.trans hw.fault

/-- A fill in range stages its run and is one transaction (R194). -/
theorem fillRect_in_range {x y w h : Half} (c : Half) {s : State} (hw0 : w ≠ 0) (hh0 : h ≠ 0)
    (hx : beyond (offX s.cfg x) w.toNat = false) (hy : beyond (offY s.cfg y) h.toNat = false)
    (hw : w.toNat ≤ s.cfg.width) :
    fillRect x y w h c s = blockTransaction (offX s.cfg x) (offY s.cfg y)
      (u16 (farCorner (offX s.cfg x) w.toNat)) (u16 (farCorner (offY s.cfg y) h.toNat))
      (.rowBuf 0) (2 * w.toNat) h.toNat { s with rowBuf := stagePixels c w.toNat s.rowBuf } := by
  have hstage : stageRun c w.toNat s = .done { s with rowBuf := stagePixels c w.toNat s.rowBuf } := by
    rcases stageRun_cases c w.toNat s with ⟨hn, _⟩ | ⟨_, h⟩
    exacts [absurd hn (by omega), h]
  simp only [fillRect]
  rw [if_neg (not_or.mpr ⟨hw0, hh0⟩), if_neg (by simp [hx, hy]), hstage, Run.andThen_done]

/-- Settles O24: a fill in range stages its run and stalls in its transaction, and a busy machine stays as
it is. -/
theorem stalledBlockEngine : Obligations.StalledBlockEngine := by
  intro s x y w h c n hi hf hspi hdma hwidth hw0 hh0 hx hy hw
  have hwpos := toNat_pos_of_ne hw0
  have hhpos := toNat_pos_of_ne hh0
  have hrange : ¬ (2 * w.toNat = 0 ∨ 2 * w.toNat > blockLenMax ∨ h.toNat = 0 ∨ h.toNat > repeatMax) := by
    have := h.isLt
    unfold blockLenMax repeatMax
    omega
  obtain ⟨t, hstuck, ht, hfault, htc, hen, hlen⟩ := blockTransaction_stalled hrange
    (offX s.cfg x) (offY s.cfg y) (u16 (farCorner (offX s.cfg x) w.toNat))
    (u16 (farCorner (offY s.cfg y) h.toNat)) (.rowBuf 0)
    (s := { s with seq := .busy 0, rowBuf := stagePixels c w.toNat s.rowBuf }) hspi hdma
  have hbody : fillRect x y w h c { s with seq := .busy 0 } = .stuck t :=
    (fillRect_in_range (s := { s with seq := .busy 0 }) c hw0 hh0 hx hy hw).trans hstuck
  have hopen : exec (.fillRect x y w h c) s = runOperation 0x0A (fillRect x y w h c) s :=
    hostOperation_inited hi _ _
  have hpass := staged_blockEvents { s with seq := .busy 0 } c w.toNat 1
  rw [Nat.mul_one] at hpass
  rw [hpass] at ht
  refine ⟨t, hopen.trans (runOperation_stuck hbody), ?_, htc, hen, hlen, ?_, ?_⟩
  · rw [ht.trace, List.append_assoc, List.append_assoc, List.append_assoc]
  · rw [ht.seq]
    exact nofun
  · exact (busyAcceptsNothing t _ n (hfault.trans hf) ht.seq).2

end Sys2Proof.Machine
end

section
/-! PROOFS. A machine without a chip-select line (40_transport.md R142): its plan is the plan of the
machine with one, the chip-select events deleted. -/

namespace Sys2Proof

/-- The same configuration with `USE_CS` true, or false (00_scope.md R8). -/
def Config.withCs (c : Config) (b : Bool) : Config := { c with useCs := b }

end Sys2Proof

namespace Sys2Proof.Machine

/-! ### Deleting the chip-select events -/

/-- Events without the chip-select events among them. -/
def dropCs (evs : List Event) : List Event := evs.filter fun e => !e.isCs

@[simp] theorem dropCs_append (a b : List Event) : dropCs (a ++ b) = dropCs a ++ dropCs b :=
  List.filter_append a b

@[simp] theorem dropCs_cons_byte (k : Kind) (v : Byte) (evs : List Event) :
    dropCs (.byte k v :: evs) = .byte k v :: dropCs evs := rfl

@[simp] theorem dropCs_csEvents (c : Config) (l : CsLevel) : dropCs (csEvents c l) = [] := by
  unfold csEvents
  split <;> rfl

theorem dropCs_flatMap {α : Type} (l : List α) (f : α → List Event) :
    dropCs (l.flatMap f) = l.flatMap fun a => dropCs (f a) :=
  List.filter_flatMap

@[simp] theorem dropCs_data {α : Type} (l : List α) (f : α → Byte) :
    dropCs (l.map fun a => .byte .data (f a)) = l.map fun a => .byte .data (f a) :=
  List.filter_eq_self.mpr fun e he => by
    obtain ⟨_, _, rfl⟩ := List.mem_map.mp he
    rfl

@[simp] theorem dropCs_halfEvents (v : Half) : dropCs (halfEvents v) = halfEvents v := rfl

@[simp] theorem dropCs_payloadEvents (ps : List Half) : dropCs (payloadEvents ps) = payloadEvents ps :=
  dropCs_flatMap ps halfEvents

@[simp] theorem dropCs_casetEvents (c : Config) (a b : Half) :
    dropCs (casetEvents c a b) = casetEvents c a b := rfl

@[simp] theorem dropCs_rasetEvents (c : Config) (a b : Half) :
    dropCs (rasetEvents c a b) = rasetEvents c a b := rfl

@[simp] theorem dropCs_windowEvents (c : Config) (x0 y0 x1 y1 : Half) :
    dropCs (windowEvents c x0 y0 x1 y1) = windowEvents c x0 y0 x1 y1 := rfl

@[simp] theorem dropCs_settledEvents (v : Byte) (t : Nat) :
    dropCs (settledEvents v t) = settledEvents v t := rfl

@[simp] theorem dropCs_configuredEvents (v p : Byte) :
    dropCs (configuredEvents v p) = configuredEvents v p := rfl

@[simp] theorem dropCs_gammaEvents (v : Byte) (table : List Byte) :
    dropCs (gammaEvents v table) = gammaEvents v table := by
  simp [gammaEvents]

/-! ### With the line and without it -/

/-- The same machine with, or without, a chip-select line. -/
def State.withCs (s : State) (b : Bool) : State := { s with cfg := s.cfg.withCs b }

@[simp] theorem csEvents_without (c : Config) (l : CsLevel) : csEvents (c.withCs false) l = [] := rfl

/-- A plan without its chip-select events; its fault stays. -/
def Plan.withoutCs (p : Plan) : Plan := { events := dropCs p.events, fault := p.fault }

theorem Plan.withoutCs_andThen (p q : Plan) : (p.andThen q).withoutCs = p.withoutCs.andThen q.withoutCs := by
  obtain ⟨evs, f⟩ := p
  cases f <;> simp [Plan.andThen, Plan.withoutCs]

/-- A branch on what `USE_CS` does not enter is taken alike. -/
theorem Plan.ite_withoutCs {a : Prop} [Decidable a] {p q p' q' : Plan} (hp : p' = p.withoutCs)
    (hq : q' = q.withoutCs) : (if a then p' else q') = (if a then p else q).withoutCs := by
  split <;> assumption

theorem transactionEvents_without (c : Config) (t : Transaction) :
    t.events (c.withCs false) = dropCs (t.events (c.withCs true)) := by
  simp only [Transaction.events, dropCs_append, dropCs_csEvents, dropCs_windowEvents,
    dropCs_payloadEvents, csEvents_without]
  rfl

theorem Plan.transaction_without (c : Config) (t : Transaction) :
    Plan.transaction (c.withCs false) t = (Plan.transaction (c.withCs true) t).withoutCs :=
  congrArg Plan.emits (transactionEvents_without c t)

theorem initEvents_without (c : Config) :
    initEvents (c.withCs false) = dropCs (initEvents (c.withCs true)) := by
  simp only [initEvents, dropCs_append, dropCs_csEvents, csEvents_without, dropCs_settledEvents,
    dropCs_configuredEvents, dropCs_gammaEvents]
  rfl

/-! ### The plans -/

theorem fillPlan_without (c : Config) (x y w h col : Half) :
    fillPlan (c.withCs false) x y w h col = (fillPlan (c.withCs true) x y w h col).withoutCs :=
  Plan.ite_withoutCs rfl (Plan.ite_withoutCs rfl (Plan.ite_withoutCs rfl (Plan.transaction_without c _)))

theorem hLinePlan_without (c : Config) (x y : Half) (len : Nat) (col : Half) :
    hLinePlan (c.withCs false) x y len col = (hLinePlan (c.withCs true) x y len col).withoutCs :=
  Plan.ite_withoutCs rfl (Plan.ite_withoutCs rfl (Plan.ite_withoutCs rfl (Plan.transaction_without c _)))

theorem vLinePlan_without (c : Config) (x y : Half) (len : Nat) (col : Half) :
    vLinePlan (c.withCs false) x y len col = (vLinePlan (c.withCs true) x y len col).withoutCs :=
  Plan.ite_withoutCs rfl (Plan.ite_withoutCs rfl (Plan.ite_withoutCs rfl (Plan.transaction_without c _)))

theorem rectPlan_without (c : Config) (x y w h col : Half) :
    rectPlan (c.withCs false) x y w h col = (rectPlan (c.withCs true) x y w h col).withoutCs := by
  refine Plan.ite_withoutCs rfl ?_
  rw [Plan.withoutCs_andThen, Plan.withoutCs_andThen, Plan.withoutCs_andThen, hLinePlan_without,
    hLinePlan_without, vLinePlan_without, vLinePlan_without]

theorem bitmapPlan_without (c : Config) (m : Memory) (x y w h : Half) (addr : Addr) :
    bitmapPlan (c.withCs false) m x y w h addr = (bitmapPlan (c.withCs true) m x y w h addr).withoutCs :=
  Plan.ite_withoutCs rfl (Plan.ite_withoutCs rfl (Plan.ite_withoutCs rfl (Plan.transaction_without c _)))

theorem linePlan_without (c : Config) (x0 y0 x1 y1 col : Half) :
    linePlan (c.withCs false) x0 y0 x1 y1 col = (linePlan (c.withCs true) x0 y0 x1 y1 col).withoutCs := by
  refine Plan.ite_withoutCs (vLinePlan_without _ _ _ _ _)
    (Plan.ite_withoutCs (hLinePlan_without _ _ _ _ _) (congrArg Plan.emits ?_))
  rw [Plan.emits, dropCs_flatMap]
  exact congrArg (List.flatMap · _) (funext fun p => transactionEvents_without c _)

theorem glyphPlan_without (s : State) (x : Half) (ch : Byte) :
    glyphPlan (s.withCs false) x ch = (glyphPlan (s.withCs true) x ch).withoutCs :=
  Plan.ite_withoutCs rfl (Plan.ite_withoutCs rfl (Plan.transaction_without s.cfg _))

theorem textPlan_without (s : State) (x : Half) (chars : List Byte) :
    textPlan (s.withCs false) x chars = (textPlan (s.withCs true) x chars).withoutCs := by
  induction chars generalizing x with
  | nil => rfl
  | cons ch rest ih => rw [textPlan, textPlan, Plan.withoutCs_andThen, ih, glyphPlan_without]

/-- No instruction's plan depends on `USE_CS` but by its chip-select events. -/
theorem plan_without (i : Instr) (s : State) :
    plan i (s.withCs false) = (plan i (s.withCs true)).withoutCs := by
  cases i with
  | init => exact congrArg Plan.emits (initEvents_without s.cfg)
  | setCursor x y | setColor c | setBgColor c => rfl
  | printChar ch => exact glyphPlan_without s s.curX ch
  | print len addr => exact textPlan_without s s.curX _
  | printNumber n width => exact textPlan_without s s.curX _
  | drawPixel x y c => exact Plan.transaction_without s.cfg (pixelTransaction s.cfg x y c)
  | drawLine x0 y0 x1 y1 c => exact linePlan_without s.cfg x0 y0 x1 y1 c
  | drawRect x y w h c => exact rectPlan_without s.cfg x y w h c
  | fillRect x y w h c => exact fillPlan_without s.cfg x y w h c
  | drawBitmap x y w h p => exact bitmapPlan_without s.cfg s.host x y w h p
  | slpout | noron | invoff | invon | dispon | madctl | colmod | caset a b | raset a b => rfl
  | ramwr ps =>
    exact congrArg (fun evs => Plan.emits (.byte .cmd s.cfg.opcodes.ramwr :: evs))
      (dropCs_payloadEvents ps).symm
  | gmctrp1 => exact congrArg Plan.emits (dropCs_gammaEvents _ s.cfg.gammaP).symm
  | gmctrn1 => exact congrArg Plan.emits (dropCs_gammaEvents _ s.cfg.gammaN).symm

/-- Settles O55: the gate does not read `USE_CS`; past it the new events are the plans', and the plan
without the line is the other's without its chip-select events. -/
theorem noChipSelectLine : Obligations.NoChipSelectLine := by
  intro i s hl hw
  show Outcome.newEvents (s.withCs false).trace.length (exec i (s.withCs false))
    = (Outcome.newEvents (s.withCs true).trace.length (exec i (s.withCs true))).map dropCs
  by_cases hg : gated i s
  · rw [exec_gated (s := s.withCs false) hg, exec_gated (s := s.withCs true) hg]
    rfl
  · rw [newEvents_exec (s := s.withCs false) hg hl hw, newEvents_exec (s := s.withCs true) hg hl hw,
      plan_without]
    rfl

end Sys2Proof.Machine
end

section
/-! PROOFS. The panel commands on their own and INIT, where the environment answers: the whole state each
leaves (41_command_protocol.md R160 to R172, 10_state.md R50). -/

namespace Sys2Proof.Machine

/-! ### Commands that send bytes, and with them at most a delay -/

/-- An operation that sends bytes and nothing else, where every wait is answered. -/
theorem runOperation_sent {op : Byte} {body : State → Run} {s : State} {evs : List Event} {k : Kind}
    (hl : s.env.isLive)
    (hf : Follows (Plan.emits evs) { s with seq := .busy 0 } (body { s with seq := .busy 0 }))
    (hs : ∀ t, body { s with seq := .busy 0 } = .done t → Sent k { s with seq := .busy 0 } t)
    (hw : (body { s with seq := .busy 0 }).Leaves (Wire { s with seq := .busy 0 })) :
    runOperation op body s = .next { afterEvents evs s with seq := .idle, dcLine := k, txe := true } :=
  runOperation_done (hf.live_sent hl hs hw)

/-- Settles O16: each is a byte and a delay, which changes no line and no flag. -/
theorem settledCommands : Obligations.SettledCommands := by
  intro s hl
  have settled : ∀ v n, runOperation v (settledCommand v n) s = .next
      { afterEvents [.byte .cmd v, .delay n] s with seq := .idle, dcLine := .cmd, txe := true } :=
    fun v n => runOperation_sent hl (settledCommand_follows v n _) (fun _ => settledCommand_done)
      (settledCommand_wire v n _)
  exact ⟨settled _ _, settled _ _, settled _ _, settled _ _, settled _ _⟩

/-- Settles O17: each is a command byte and a data byte. -/
theorem configuredCommands : Obligations.ConfiguredCommands := by
  intro s hl
  have configured : ∀ v p, runOperation v (configuredCommand v p) s = .next
      { afterEvents [.byte .cmd v, .byte .data p] s with seq := .idle, dcLine := .data, txe := true } :=
    fun v p => runOperation_sent hl (configuredCommand_follows v p _) (fun _ => configuredCommand_done)
      (configuredCommand_wire v p _)
  exact ⟨configured _ _, configured _ _⟩

/-- Settles O19: a window command is its opcode and two 16-bit values. -/
theorem windowCommands : Obligations.WindowCommands := fun _ a b hl =>
  ⟨runOperation_sent hl (casetFrame_follows a b _) (fun _ => casetFrame_done) (casetFrame_wire a b _),
    runOperation_sent hl (rasetFrame_follows a b _) (fun _ => rasetFrame_done) (rasetFrame_wire a b _)⟩

/-- Settles O20: memory-write is its opcode and its payload, which alone moves the line to `data`. -/
theorem memoryWriteCommand : Obligations.MemoryWriteCommand := fun _ ps hl =>
  runOperation_sent hl (ramwrFrame_follows ps _) (fun _ => ramwrFrame_done) (ramwrFrame_wire ps _)

/-! ### The gamma commands -/

/-- The bytes of a list, index by index. -/
theorem map_range_getD {l : List Byte} {n : Nat} (h : l.length = n) :
    ((List.range n).map fun j => Event.byte .data (l.getD j 0)) = l.map (Event.byte .data) := by
  subst h
  apply List.ext_getElem <;> simp +contextual

theorem gammaEvents_eq {table : List Byte} (v : Byte) (h : table.length = 16) :
    gammaEvents v table = .byte .cmd v :: table.map (Event.byte .data) :=
  congrArg (List.cons _) (map_range_getD h)

/-- A gamma command is its opcode byte and one block of sixteen bytes (R164, R165). -/
theorem gammaCommand_live (v : Byte) {src : BlockSrc} {table : List Byte} {s : State}
    (hl : s.env.isLive) (h : ∀ t : State, t.cfg = s.cfg → ∀ j, sourceByte t src j = table.getD j 0) :
    gammaCommand v src s = .done { afterEvents (gammaEvents v table) s with
      seq := s.seq.plus 17, dcLine := .data, txe := true, tc := true, blkEn := false, blkSrc := src
      blkLen := 16 } := by
  refine (congrArg (Run.andThen · _) (sendByte_live .cmd v hl)).trans
    ((sendBlock_live (by decide) (by exact hl)).trans ?_)
  rw [gamma_blockEvents]
  simp only [h, gammaEvents, afterEvents, panelAfter_cons, panelAfter_nil, List.append_assoc,
    List.cons_append, List.nil_append, Seq.plus_plus]
  rfl

/-- Settles O18: the table of each command, byte by byte, is the source of its block. -/
theorem gammaCommands : Obligations.GammaCommands := by
  intro s hl hp hn
  rw [← gammaEvents_eq _ hp, ← gammaEvents_eq _ hn]
  exact ⟨runOperation_done (gammaCommand_live _ (s := { s with seq := .busy 0 }) hl
      fun t ht j => by rw [sourceByte, ht]),
    runOperation_done (gammaCommand_live _ (s := { s with seq := .busy 0 }) hl
      fun t ht j => by rw [sourceByte, ht])⟩

/-! ### INIT -/

/-- The event count of R160: two chip-select events more, where the line exists. -/
theorem initEvents_length (c : Config) : (initEvents c).length = if c.useCs then 52 else 50 := by
  cases h : c.useCs <;> simp [initEvents, csEvents, settledEvents, configuredEvents, gammaEvents, h]

/-- The state after INIT. -/
theorem Initialised.state {evs : List Event} {s t : State} (d : Initialised s t) (o : InitOnly s t)
    (e : Took evs s t) (v : t.env = s.env) :
    t = { afterEvents evs s with
      seq := s.seq.plus evs.length, inited := true, rstLine := true, dcLine := .cmd
      csLine := released s, txe := true, tc := true, blkEn := false, blkSrc := .gammaN, blkLen := 16
      curX := Config.freeValue s.freeCount, curY := Config.freeValue (s.freeCount + 1)
      color := Config.freeValue (s.freeCount + 2), bgColor := Config.freeValue (s.freeCount + 3)
      freeCount := s.freeCount + 4 } := by
  have w := o.wire
  ext1
  · exact e.cfg
  · exact d.curX
  · exact d.curY
  · exact d.color
  · exact d.bgColor
  · exact w.latches
  · exact e.seq
  · exact d.inited
  · exact d.rstLine
  · exact d.dcLine
  · exact d.csLine
  · exact d.txe
  · exact d.tc
  · exact d.blkEn
  · exact d.blkSrc
  · exact d.blkLen
  · exact w.rowBuf
  · exact w.glyphBuf
  · exact w.numBuf
  · exact w.host
  · exact e.panel
  · exact e.trace
  · exact v
  · exact w.inputs
  · exact w.port
  · exact d.freeCount
  · exact w.fault
  · exact w.refused

theorem initSequence_live {s : State} (hl : s.env.isLive) :
    ∃ t, initSequence s = .done t ∧ Initialised s t ∧ InitOnly s t ∧ Took (initEvents s.cfg) s t ∧
      t.env = s.env := by
  obtain ⟨t, hd, ht, henv⟩ := (initSequence_follows s).live_done hl rfl
  exact ⟨t, hd, initSequence_done hd, (initSequence_only s).of_done hd, ht, henv⟩

/-- Settles O14: INIT follows its event list to the end, and its lines, flags and DeviceState are those
of R50. -/
theorem initResult : Obligations.InitResult := by
  intro s hl
  obtain ⟨t, hd, hi, ho, ht, henv⟩ := initSequence_live (s := { s with seq := .busy 0 }) hl
  have hexec : exec .init s = .next { t with seq := .idle } := runOperation_done hd
  refine ⟨initEvents_length s.cfg, hexec.trans ?_⟩
  rw [hi.state ho ht henv]
  rfl

end Sys2Proof.Machine
end

section
/-! PROOFS. What INIT makes of the panel sink (20_memory.md R80 to R86): the reset blanks it, and each frame
then records its register. -/

namespace Sys2Proof.Machine

/-! ### The registers a command records -/

/-- The registers after a command's opcode byte (R86). -/
def PanelRegs.noted (k : PanelCmd) (r : PanelRegs) : PanelRegs :=
  match k with
  | .slpout => { r with sleepOut := true }
  | .noron => { r with normalOn := true }
  | .invoff => { r with inversion := some false }
  | .invon => { r with inversion := some true }
  | .dispon => { r with displayOn := true }
  | .caset | .raset | .ramwr | .madctl | .colmod | .gmctrp1 | .gmctrn1 => r

/-- The registers after the parameter of a command that has one (R86). -/
def PanelRegs.withParameter (k : PanelCmd) (x : Byte) (r : PanelRegs) : PanelRegs :=
  if k = .madctl then { r with madctl := some x } else { r with colmod := some x }

/-- The table a gamma command records. -/
def PanelRegs.table (k : PanelCmd) (r : PanelRegs) : List Byte :=
  if k = .gmctrp1 then r.gammaP else r.gammaN

/-- The registers with a gamma command's table. -/
def PanelRegs.withTable (k : PanelCmd) (bs : List Byte) (r : PanelRegs) : PanelRegs :=
  if k = .gmctrp1 then { r with gammaP := bs } else { r with gammaN := bs }

theorem PanelRegs.table_withTable (k : PanelCmd) (bs : List Byte) (r : PanelRegs) :
    (r.withTable k bs).table k = bs := by
  by_cases h : k = .gmctrp1 <;> simp [withTable, table, h]

theorem PanelRegs.withTable_withTable (k : PanelCmd) (bs cs : List Byte) (r : PanelRegs) :
    (r.withTable k bs).withTable k cs = r.withTable k cs := by
  by_cases h : k = .gmctrp1 <;> simp [withTable, h]

/-- Only display-on, the last command of INIT, ends the recovery (R80). -/
theorem command_eq {c : Config} {v : Byte} {k : PanelCmd} (h : c.opcodes.find? v = some k)
    (hr : k ≠ .ramwr) (hd : k ≠ .dispon) (p : Panel) :
    p.command c v = { p with
      cmd := some v, idx := 0, args := [], half := none, regs := p.regs.noted k } := by
  cases k with
  | ramwr => exact absurd rfl hr
  | dispon => exact absurd rfl hd
  | _ => simp only [Panel.command, h, PanelRegs.noted]

/-! ### A sink that is being set up -/

/-- A sink with a status that is not `Unknown`, with given registers and no specified cell. -/
structure Panel.SetUp (st : SinkStatus) (r : PanelRegs) (p : Panel) : Prop where
  status : p.status = st
  live : st ≠ .unknown
  regs : p.regs = r
  gram : p.gram = []

/-- A sink that has taken the `n` first parameters of a command. -/
structure Panel.Taking (v : Byte) (n : Nat) (st : SinkStatus) (r : PanelRegs) (p : Panel) : Prop
    extends p.SetUp st r where
  cmd : p.cmd = some v
  idx : p.idx = n

variable {c : Config} {st : SinkStatus} {r : PanelRegs} {p : Panel}

theorem accept_command (h : p.status ≠ .unknown) (v : Byte) :
    p.accept c (.byte .cmd v) = p.command c v := by
  unfold Panel.accept
  cases hs : p.status with
  | unknown => exact absurd hs h
  | known | recovering => rfl

theorem accept_data (h : p.status ≠ .unknown) (v : Byte) :
    p.accept c (.byte .data v) = p.data c v := by
  unfold Panel.accept
  cases hs : p.status with
  | unknown => exact absurd hs h
  | known | recovering => rfl

/-- After `RST(0)` nothing is specified, and the sink is known or on its way there (R81). -/
theorem afterReset_setUp (p : Panel) : ∃ st, p.afterReset.SetUp st .blank := by
  cases h : p.status with
  | known => exact ⟨.known, by simp [Panel.afterReset, h], nofun, rfl, rfl⟩
  | unknown | recovering => exact ⟨.recovering, by simp [Panel.afterReset, h], nofun, rfl, rfl⟩

theorem Panel.SetUp.command (h : p.SetUp st r) {v : Byte} {k : PanelCmd}
    (hf : c.opcodes.find? v = some k) (hr : k ≠ .ramwr) (hd : k ≠ .dispon) :
    (p.accept c (.byte .cmd v)).Taking v 0 st (r.noted k) := by
  rw [accept_command (h.status ▸ h.live), command_eq hf hr hd]
  exact ⟨⟨h.status, h.live, congrArg (PanelRegs.noted k) h.regs, h.gram⟩, rfl, rfl⟩

/-- A parameter that records a register and does nothing else is counted (R86). -/
theorem Panel.Taking.data {v x : Byte} {n : Nat} {k : PanelCmd} {r' : PanelRegs}
    (h : p.Taking v n st r) (hf : c.opcodes.find? v = some k)
    (hp : p.parameter k x = { p with regs := r' }) :
    (p.accept c (.byte .data x)).Taking v (n + 1) st r' := by
  have halive : p.status ≠ .unknown := h.status ▸ h.live
  have hdata : p.data c x = { p with regs := r', idx := p.idx + 1 } := by
    simp only [Panel.data, h.cmd, Option.bind_some, hf, hp]
    cases hs : p.status with
    | unknown => exact absurd hs halive
    | known | recovering => rfl
  rw [accept_data halive, hdata]
  exact ⟨⟨h.status, h.live, rfl, h.gram⟩, h.cmd, congrArg (· + 1) h.idx⟩

/-! ### The frames of INIT -/

theorem Panel.SetUp.settled (h : p.SetUp st r) {v : Byte} {k : PanelCmd}
    (hf : c.opcodes.find? v = some k) (hr : k ≠ .ramwr) (hd : k ≠ .dispon) (n : Nat) :
    (panelAfter c (settledEvents v n) p).SetUp st (r.noted k) :=
  (h.command hf hr hd).toSetUp

theorem Panel.SetUp.configured (h : p.SetUp st r) {k : PanelCmd} (hk : k = .madctl ∨ k = .colmod)
    {v : Byte} (hf : c.opcodes.find? v = some k) (x : Byte) :
    (panelAfter c (configuredEvents v x) p).SetUp st (r.withParameter k x) := by
  have hcmd : (p.accept c (.byte .cmd v)).Taking v 0 st r := by
    rcases hk with rfl | rfl <;> exact h.command hf nofun nofun
  have hparam : (p.accept c (.byte .cmd v)).parameter k x =
      { p.accept c (.byte .cmd v) with regs := r.withParameter k x } := by
    rw [← hcmd.regs]
    rcases hk with rfl | rfl <;> exact if_pos hcmd.idx
  exact (hcmd.data hf hparam).toSetUp

/-- A parameter of a gamma command is the next byte of its table. -/
theorem parameter_gamma {k : PanelCmd} (hk : k = .gmctrp1 ∨ k = .gmctrn1) (hi : p.idx < 16) (x : Byte) :
    p.parameter k x =
      { p with regs := p.regs.withTable k ((p.regs.table k).take p.idx ++ [x]) } := by
  rcases hk with rfl | rfl <;> exact if_pos hi

/-- The bytes of a gamma command join those of its table that have been taken. -/
theorem Panel.Taking.table {k : PanelCmd} (hk : k = .gmctrp1 ∨ k = .gmctrn1) {v : Byte}
    (hf : c.opcodes.find? v = some k) {n : Nat} {x : Byte} {rest : List Byte} (h : p.Taking v n st r)
    (hn : n + rest.length < 16) :
    (panelAfter c ((x :: rest).map (Event.byte .data)) p).SetUp st
      (r.withTable k ((r.table k).take n ++ x :: rest)) := by
  have hx : (p.accept c (.byte .data x)).Taking v (n + 1) st
      (r.withTable k ((r.table k).take n ++ [x])) := by
    refine h.data hf ?_
    rw [parameter_gamma hk (by rw [h.idx]; omega), h.regs, h.idx]
  induction rest generalizing p n x r with
  | nil => exact hx.toSetUp
  | cons y rest ih =>
    rw [List.length_cons] at hn
    have hy := ih (x := y) hx (by omega) (hx.data hf ?_)
    · rw [PanelRegs.table_withTable, PanelRegs.withTable_withTable,
        List.take_of_length_le (by simp), List.append_assoc] at hy
      exact hy
    · rw [parameter_gamma hk (by rw [hx.idx]; omega), hx.regs, hx.idx]

theorem Panel.SetUp.gamma (h : p.SetUp st r) {k : PanelCmd} (hk : k = .gmctrp1 ∨ k = .gmctrn1)
    {v : Byte} (hf : c.opcodes.find? v = some k) {table : List Byte} (ht : table.length = 16) :
    (panelAfter c (gammaEvents v table) p).SetUp st (r.withTable k table) := by
  have hcmd : (p.accept c (.byte .cmd v)).Taking v 0 st r := by
    rcases hk with rfl | rfl <;> exact h.command hf nofun nofun
  rw [gammaEvents_eq v ht]
  match table, ht with
  | x :: rest, ht => exact hcmd.table hk hf (by rw [List.length_cons] at ht; omega)

/-- Display-on completes the sequence: the sink is known again (R80). -/
theorem Panel.SetUp.dispon (h : p.SetUp st r) {v : Byte} (hf : c.opcodes.find? v = some .dispon)
    (hr : (r.noted .dispon).complete = true) (n : Nat) :
    (panelAfter c (settledEvents v n) p).SetUp .known (r.noted .dispon) := by
  show (p.accept c (.byte .cmd v)).SetUp _ _
  have hcomplete : ({ p.regs with displayOn := true } : PanelRegs).complete = true := by
    rw [h.regs]
    exact hr
  rw [accept_command (h.status ▸ h.live)]
  simp only [Panel.command, hf, Panel.displayOn, hcomplete, if_true]
  refine ⟨?_, nofun, congrArg (PanelRegs.noted .dispon) h.regs, h.gram⟩
  cases hs : p.status with
  | unknown => exact absurd (h.status.symm.trans hs) h.live
  | known | recovering => rfl

/-! ### INIT -/

theorem panelAfter_csEvents (l : CsLevel) : panelAfter c (csEvents c l) p = p := by
  unfold csEvents
  split <;> rfl

/-- The registers INIT leaves (R160): those of the configuration. -/
def configuredRegs (c : Config) : PanelRegs where
  sleepOut := true
  normalOn := true
  displayOn := true
  inversion := some c.invert
  madctl := some c.madctlValue
  colmod := some c.colmodValue
  gammaP := c.gammaP
  gammaN := c.gammaN

theorem Config.tables_of_wf (h : c.wf = true) :
    c.gammaP.length = 16 ∧ c.gammaN.length = 16 ∧ c.opcodes.wf = true := by
  simp only [Config.wf, Bool.and_eq_true, decide_eq_true_eq] at h
  tauto

/-- INIT inverts or does not, as configured (R166, R167). -/
theorem Panel.SetUp.inversion (h : p.SetUp st r) (ho : c.opcodes.wf = true) (n : Nat) :
    (panelAfter c (settledEvents (if c.invert then c.opcodes.invon else c.opcodes.invoff) n) p).SetUp st
      { r with inversion := some c.invert } := by
  cases c.invert with
  | true => exact h.settled (Opcodes.find?_code ho .invon) nofun nofun n
  | false => exact h.settled (Opcodes.find?_code ho .invoff) nofun nofun n

/-- The event list of INIT sets up any sink (R80, R160). -/
theorem initEvents_setUp (h : c.wf = true) (p : Panel) :
    (panelAfter c (initEvents c) p).SetUp .known (configuredRegs c) := by
  obtain ⟨hp, hn, ho⟩ := Config.tables_of_wf h
  have find := Opcodes.find?_code ho
  simp only [initEvents, panelAfter_append, panelAfter_csEvents]
  obtain ⟨st, hreset⟩ := afterReset_setUp p
  have hslpout := hreset.settled (find .slpout) nofun nofun c.tSlpout
  have hmadctl := hslpout.configured (.inl rfl) (find .madctl) c.madctlValue
  have hcolmod := hmadctl.configured (.inr rfl) (find .colmod) c.colmodValue
  have hgammaP := hcolmod.gamma (.inl rfl) (find .gmctrp1) hp
  have hgammaN := hgammaP.gamma (.inr rfl) (find .gmctrn1) hn
  have hinversion := hgammaN.inversion ho c.tSettle
  have hnoron := hinversion.settled (find .noron) nofun nofun c.tSettle
  exact hnoron.dispon (find .dispon) (r := { configuredRegs c with displayOn := false })
    (by simp [PanelRegs.complete, PanelRegs.noted, configuredRegs, hp, hn]) c.tSettle

/-- Settles O15: INIT ends with its event list taken, which sets up any sink. -/
theorem initLeavesThePanelKnown : Obligations.InitLeavesThePanelKnown := by
  intro s t hl hwf ht
  cases ht.symm.trans (initResult s hl).2
  have h : (panelAfter s.cfg (initEvents s.cfg) s.panel).SetUp _ _ := initEvents_setUp hwf s.panel
  refine ⟨h.status, h.regs, fun col row => ?_⟩
  show (panelAfter s.cfg (initEvents s.cfg) s.panel).cell col row = none
  simp only [Panel.cell, h.status, h.gram, Cells.get?]

end Sys2Proof.Machine
end

section
/-! PROOFS. What INIT and the panel commands leave unchanged, however they end (41_command_protocol.md R160,
R161 to R172, 40_transport.md R145, R150, 70_reset_and_hazards.md R281). -/

namespace Sys2Proof.Machine

/-! ### Chip-select and the block engine -/

/-- Chip-select and the registers of the block engine are as they were. -/
structure EngineKept (s t : State) : Prop where
  csLine : t.csLine = s.csLine
  tc : t.tc = s.tc
  blkEn : t.blkEn = s.blkEn
  blkSrc : t.blkSrc = s.blkSrc
  blkLen : t.blkLen = s.blkLen

theorem EngineKept.refl (s : State) : EngineKept s s := ⟨rfl, rfl, rfl, rfl, rfl⟩

theorem EngineKept.trans {s t u : State} (h : EngineKept s t) (k : EngineKept t u) : EngineKept s u :=
  ⟨k.csLine.trans h.csLine, k.tc.trans h.tc, k.blkEn.trans h.blkEn, k.blkSrc.trans h.blkSrc,
    k.blkLen.trans h.blkLen⟩

theorem EngineKept.andThen {s : State} {r : Run} {f : State → Run} (h : r.Leaves (EngineKept s))
    (k : ∀ t, (f t).Leaves (EngineKept t)) : (r.andThen f).Leaves (EngineKept s) :=
  Run.Leaves.andThen (rel := EngineKept) EngineKept.trans h fun t _ => k t

theorem awaitTxe_engineKept (s : State) : (awaitTxe s).Leaves (EngineKept s) := by
  unfold awaitTxe
  split
  · exact EngineKept.refl s
  · split <;> exact ⟨rfl, rfl, rfl, rfl, rfl⟩

theorem delay_engineKept (n : Nat) (s : State) : (delay n s).Leaves (EngineKept s) := by
  unfold delay awaitTimer
  split <;> exact ⟨rfl, rfl, rfl, rfl, rfl⟩

theorem sendByte_engineKept (k : Kind) (v : Byte) (s : State) :
    (sendByte k v s).Leaves (EngineKept s) :=
  EngineKept.andThen (awaitTxe_engineKept s) fun t =>
    (awaitTxe_engineKept (emit (.byte k v) { t with dcLine := k, txe := false })).mono
      fun _ h => { h with }

theorem sendData16_engineKept (v : Half) (s : State) : (sendData16 v s).Leaves (EngineKept s) :=
  EngineKept.andThen (sendByte_engineKept _ _ s) (sendByte_engineKept _ _)

/-- An opcode byte and two bounds: the shape of both window commands. -/
theorem boundsFrame_engineKept (v : Byte) (a b : Half) (s : State) :
    ((sendCommand v s).andThen fun s => (sendData16 a s).andThen fun s =>
      sendData16 b s).Leaves (EngineKept s) :=
  EngineKept.andThen (sendByte_engineKept _ _ s) fun t =>
    EngineKept.andThen (sendData16_engineKept a t) (sendData16_engineKept b)

theorem settledCommand_engineKept (v : Byte) (n : Nat) (s : State) :
    (settledCommand v n s).Leaves (EngineKept s) :=
  EngineKept.andThen (sendByte_engineKept _ _ s) (delay_engineKept n)

theorem configuredCommand_engineKept (v x : Byte) (s : State) :
    (configuredCommand v x s).Leaves (EngineKept s) :=
  EngineKept.andThen (sendByte_engineKept _ _ s) (sendByte_engineKept _ _)

theorem sendPixels_engineKept (ps : List Half) (s : State) :
    (sendPixels ps s).Leaves (EngineKept s) := by
  induction ps generalizing s with
  | nil => exact EngineKept.refl s
  | cons v rest ih => exact EngineKept.andThen (sendData16_engineKept v s) ih

/-- No panel command but the gamma commands uses the block engine (R145, R150). -/
theorem body_engineKept {i : Instr} (hi : i.isHost = false) (hp : i ≠ .gmctrp1) (hn : i ≠ .gmctrn1)
    (s : State) : (bodyOf i s).Leaves (EngineKept s) := by
  cases i with
  | slpout | noron | invoff | invon | dispon => exact settledCommand_engineKept _ _ s
  | madctl | colmod => exact configuredCommand_engineKept _ _ s
  | gmctrp1 => exact absurd rfl hp
  | gmctrn1 => exact absurd rfl hn
  | caset a b | raset a b => exact boundsFrame_engineKept _ a b s
  | ramwr ps => exact EngineKept.andThen (sendByte_engineKept _ _ s) (sendPixels_engineKept ps)
  | _ => cases hi

/-- Chip-select is as it was. -/
def CsKept (s t : State) : Prop := t.csLine = s.csLine

theorem CsKept.andThen {s : State} {r : Run} {f : State → Run} (h : r.Leaves (CsKept s))
    (k : ∀ t, (f t).Leaves (CsKept t)) : (r.andThen f).Leaves (CsKept s) :=
  Run.Leaves.andThen (rel := CsKept) (fun h k => Eq.trans k h) h fun t _ => k t

theorem awaitTc_csKept (s : State) : (awaitTc s).Leaves (CsKept s) := by
  unfold awaitTc
  split
  · exact rfl
  · split <;> exact rfl

theorem blockPass_csKept (src : BlockSrc) (len : Nat) (s : State) :
    (blockPass src len s).Leaves (CsKept s) :=
  (awaitTc_csKept _).mono fun _ h => h.trans (feed_lines _ { s with tc := false }).2.1

theorem blockPasses_csKept (src : BlockSrc) (len n : Nat) (s : State) :
    (blockPasses src len n s).Leaves (CsKept s) := by
  induction n generalizing s with
  | zero => exact rfl
  | succ n ih => exact CsKept.andThen (blockPass_csKept src len s) ih

theorem sendBlock_csKept (src : BlockSrc) (len reps : Nat) (s : State) :
    (sendBlock src len reps s).Leaves (CsKept s) := by
  unfold sendBlock
  split
  · exact rfl
  · exact CsKept.andThen (s := s) (blockPasses_csKept src len reps (armBlock src len s)) fun _ => rfl

/-- No panel command on its own opens a bracket (R142). -/
theorem body_csKept {i : Instr} (hi : i.isHost = false) (s : State) :
    (bodyOf i s).Leaves (CsKept s) := by
  have gamma : ∀ v src, (gammaCommand v src s).Leaves (CsKept s) := fun v src =>
    CsKept.andThen ((sendByte_engineKept .cmd v s).mono fun _ h => h.csLine)
      (sendBlock_csKept src 16 1)
  by_cases hp : i = .gmctrp1
  · subst hp
    exact gamma _ _
  by_cases hn : i = .gmctrn1
  · subst hn
    exact gamma _ _
  exact (body_engineKept hi hp hn s).mono fun _ h => h.csLine

/-! ### How INIT and the panel commands end -/

/-- A panel command follows an event list without a fault, whatever the configuration. -/
theorem command_follows {i : Instr} (hi : i.isHost = false) (s : State) :
    ∃ evs, Follows (Plan.emits evs) s (bodyOf i s) := by
  cases i with
  | slpout | noron | invoff | invon | dispon => exact ⟨_, settledCommand_follows _ _ s⟩
  | madctl | colmod => exact ⟨_, configuredCommand_follows _ _ s⟩
  | gmctrp1 =>
    exact ⟨_, gammaCommand_follows (table := s.cfg.gammaP) _ s fun t ht j => by rw [sourceByte, ht]⟩
  | gmctrn1 =>
    exact ⟨_, gammaCommand_follows (table := s.cfg.gammaN) _ s fun t ht j => by rw [sourceByte, ht]⟩
  | caset a b => exact ⟨_, casetFrame_follows a b s⟩
  | raset a b => exact ⟨_, rasetFrame_follows a b s⟩
  | ramwr ps => exact ⟨_, ramwrFrame_follows ps s⟩
  | _ => cases hi

/-- INIT and the panel commands raise no fault: each ends, idle, or hangs, busy. -/
theorem exec_protocol_cases {i : Instr} (hi : i = .init ∨ i.isHost = false) (s : State) :
    (∃ t, bodyOf i { s with seq := .busy 0 } = .done t ∧ exec i s = .next { t with seq := .idle }) ∨
    ∃ t, bodyOf i { s with seq := .busy 0 } = .stuck t ∧ exec i s = .next t ∧ t.seq ≠ .idle := by
  have hg : ¬ gated i s := by
    rintro ⟨hhost, hne, _⟩
    rcases hi with rfl | hi
    · exact hne rfl
    · exact absurd (hhost.symm.trans hi) nofun
  obtain ⟨evs, hf⟩ : ∃ evs, Follows (Plan.emits evs) { s with seq := .busy 0 }
      (bodyOf i { s with seq := .busy 0 }) := by
    rcases hi with rfl | hi
    · exact ⟨_, initSequence_follows _⟩
    · exact command_follows hi _
  rw [exec_open hg]
  cases hr : bodyOf i { s with seq := .busy 0 } with
  | done t => exact .inl ⟨t, rfl, runOperation_done hr⟩
  | stuck t =>
    rw [hr] at hf
    obtain ⟨_, k, _, ht⟩ := hf
    refine .inr ⟨t, rfl, runOperation_stuck hr, ?_⟩
    rw [ht.seq_of_started]
    exact nofun
  | raised k t =>
    rw [hr] at hf
    exact nomatch hf.1

/-! ### The frame -/

/-- What INIT, or a panel command, keeps: all but the Transport's state and what the end of INIT sets;
DeviceState and `inited`, unless it is an INIT that ends; the lines and the engine, for a command that does
not use them. -/
structure ProtocolKept (i : Instr) (s t : State) : Prop where
  only : InitOnly s t
  device : i ≠ .init ∨ t.seq ≠ .idle → InitPart s t
  rstLine : i ≠ .init → t.rstLine = s.rstLine
  csLine : i ≠ .init → CsKept s t
  engine : i ≠ .init → i ≠ .gmctrp1 → i ≠ .gmctrn1 → EngineKept s t

theorem Run.Leaves.of_stuck {r : Run} {p : State → Prop} {t : State} (h : r.Leaves p)
    (e : r = .stuck t) : p t := by
  subst e
  exact h

/-- What a run leaves under a condition that does not speak of the state it leaves. -/
theorem Run.Leaves.of_imp {a : Prop} {r : Run} {p : State → Prop} (h : a → r.Leaves p) :
    r.Leaves fun t => a → p t := by
  cases r <;> exact h

theorem init_kept (s : State) : ∃ t, exec .init s = .next t ∧ ProtocolKept .init s t := by
  have honly := initSequence_only { s with seq := .busy 0 }
  rcases exec_protocol_cases (.inl rfl) s with ⟨t, hr, he⟩ | ⟨t, hr, he, _⟩
  · have ho : InitOnly _ t := honly.of_done hr
    exact ⟨_, he, ⟨{ ho.wire with }, ho.inited⟩, fun h => absurd rfl (h.resolve_right fun h => h rfl),
      fun h => absurd rfl h, fun h => absurd rfl h, fun h => absurd rfl h⟩
  · have ho : InitOnly _ t := honly.of_stuck hr
    exact ⟨t, he, ⟨{ ho.wire with }, ho.inited⟩, fun _ => { initSequence_stuck hr with },
      fun h => absurd rfl h, fun h => absurd rfl h, fun h => absurd rfl h⟩

theorem command_kept {i : Instr} (hi : i.isHost = false) (s : State) :
    ∃ t, exec i s = .next t ∧ ProtocolKept i s t := by
  have hkept : (bodyOf i { s with seq := .busy 0 }).Leaves fun t =>
      ∀ q, ProtocolKept i s { t with seq := q } := by
    refine (((body_wire_of_command hi _).and (body_csKept hi _)).and
      (Run.Leaves.of_imp fun h : i ≠ .gmctrp1 ∧ i ≠ .gmctrn1 => body_engineKept hi h.1 h.2 _)).mono
        fun t ⟨⟨w, hcs⟩, heng⟩ q => ?_
    have hw : Wire s { t with seq := q } := { w with }
    exact ⟨.of_wire hw, fun _ => .of_wire hw, fun _ => hw.rstLine, fun _ => hcs,
      fun _ hp hn => { heng ⟨hp, hn⟩ with }⟩
  rcases exec_protocol_cases (.inr hi) s with ⟨t, hr, he⟩ | ⟨t, hr, he, _⟩
  · exact ⟨_, he, hkept.of_done hr .idle⟩
  · exact ⟨t, he, hkept.of_stuck hr t.seq⟩

/-- Settles O46: neither INIT nor a panel command faults, so each leaves what it keeps by its end or by its
hang. -/
theorem protocolFrame : Obligations.ProtocolFrame := by
  intro i s hi
  obtain ⟨t, he, hk⟩ : ∃ t, exec i s = .next t ∧ ProtocolKept i s t := by
    rcases hi with rfl | hi
    exacts [init_kept s, command_kept hi s]
  have w := hk.only.wire
  rw [he]
  refine ⟨w.cfg, w.latches, w.inputs, w.port, w.fault, w.refused, fun _ => by rw [w.rowBuf],
    fun _ => by rw [w.glyphBuf], fun _ => by rw [w.numBuf], fun _ => by rw [w.host], fun h => ?_,
    fun h => ⟨hk.rstLine h, hk.csLine h⟩, fun h hp hn => ?_⟩
  · have d := hk.device h
    exact ⟨d.curX, d.curY, d.color, d.bgColor, d.inited, d.freeCount⟩
  · have e := hk.engine h hp hn
    exact ⟨e.tc, e.blkEn, e.blkSrc, e.blkLen⟩

end Sys2Proof.Machine
end

section
/-! PROOFS. Drawing and printing emit whole transactions, each an ordered window and the pixels that fill it
(41_command_protocol.md R175 to R178): read off the plans, whose faults come before the transaction they
stop. -/

namespace Sys2Proof.Machine

/-! ### Transactions that fill their windows -/

/-- A far corner that the window check lets through is the integer one (R178). -/
theorem toNat_farCorner {x : Half} {n : Nat} (h : beyond x n = false) :
    (u16 (farCorner x n)).toNat = x.toNat + n - 1 := by
  have hle : ¬ 65535 < x.toNat + n - 1 := by
    rw [← beyond_iff, h]
    exact nofun
  exact (BitVec.toNat_ofNat _ _).trans (Nat.mod_eq_of_lt (by unfold farCorner; omega))

theorem beyond_one (x : Half) : beyond x 1 = false := by
  have := x.isLt
  exact decide_eq_false (by unfold farCorner; omega)

theorem u16_farCorner_one (x : Half) : u16 (farCorner x 1) = x :=
  BitVec.eq_of_toNat_eq (toNat_farCorner (beyond_one x))

/-- A window of `w` by `h` pixels that passes the window check is ordered and takes `w * h` of them. -/
theorem exact_of_size {x y : Half} {w h : Nat} {pixels : List Half} (hw : 0 < w) (hh : 0 < h)
    (hx : beyond x w = false) (hy : beyond y h = false) (hp : pixels.length = w * h) :
    Transaction.exact
      { x0 := x, y0 := y, x1 := u16 (farCorner x w), y1 := u16 (farCorner y h), pixels := pixels } := by
  simp only [Transaction.exact, BitVec.le_def, toNat_farCorner hx, toNat_farCorner hy]
  refine ⟨by omega, by omega, ?_⟩
  rw [hp, show x.toNat + w - 1 - x.toNat + 1 = w by omega,
    show y.toNat + h - 1 - y.toNat + 1 = h by omega]

theorem pixelTransaction_exact (c : Config) (x y col : Half) : (pixelTransaction c x y col).exact := by
  have h := exact_of_size (pixels := [col]) Nat.one_pos Nat.one_pos (beyond_one (offX c x))
    (beyond_one (offY c y)) rfl
  rwa [u16_farCorner_one, u16_farCorner_one] at h

theorem hLineTransaction_exact {c : Config} {x : Half} {len : Nat} (y col : Half) (h0 : 0 < len)
    (hx : beyond (offX c x) len = false) : (hLineTransaction c x y len col).exact := by
  have h := exact_of_size (pixels := List.replicate len col) h0 Nat.one_pos hx
    (beyond_one (offY c y)) (by simp)
  rwa [u16_farCorner_one] at h

theorem vLineTransaction_exact {c : Config} {y : Half} {len : Nat} (x col : Half) (h0 : 0 < len)
    (hy : beyond (offY c y) len = false) : (vLineTransaction c x y len col).exact := by
  have h := exact_of_size (pixels := List.replicate len col) Nat.one_pos h0
    (beyond_one (offX c x)) hy (by simp)
  rwa [u16_farCorner_one] at h

/-! ### Plans of whole transactions -/

/-- The events of a plan are whole transactions that fill their windows. -/
def Plan.Whole (c : Config) (p : Plan) : Prop :=
  ∃ ts : List Transaction, p.events = ts.flatMap (fun t => t.events c) ∧ ∀ t ∈ ts, t.exact

variable {c : Config}

theorem Plan.Whole.nothing : Plan.nothing.Whole c := ⟨[], rfl, List.forall_mem_nil _⟩

theorem Plan.Whole.fails (k : FaultKind) : (Plan.fails k).Whole c := ⟨[], rfl, List.forall_mem_nil _⟩

theorem Plan.Whole.flatMap {α : Type} {l : List α} {f : α → Transaction} (h : ∀ a, (f a).exact) :
    (Plan.emits (l.flatMap fun a => (f a).events c)).Whole c :=
  ⟨l.map f, (List.flatMap_map ..).symm, List.forall_mem_map.mpr fun a _ => h a⟩

theorem Plan.Whole.transaction {t : Transaction} (h : t.exact) : (Plan.transaction c t).Whole c :=
  ⟨[t], (List.append_nil _).symm, List.forall_mem_singleton.mpr h⟩

theorem Plan.Whole.andThen {p q : Plan} (hp : p.Whole c) (hq : q.Whole c) : (p.andThen q).Whole c := by
  unfold Plan.andThen
  split
  · exact hp
  · obtain ⟨ts, hts, ht⟩ := hp
    obtain ⟨us, hus, hu⟩ := hq
    exact ⟨ts ++ us, by simp only [hts, hus, List.flatMap_append], List.forall_mem_append.mpr ⟨ht, hu⟩⟩

/-- A transaction behind the checks of a drawing operation: for a zero size, for the window, for the
length (R193, R258). -/
theorem Plan.Whole.checked {zero window length : Prop} [Decidable zero] [Decidable window]
    [Decidable length] {k j : FaultKind} {t : Transaction} (h : ¬ zero → ¬ window → t.exact) :
    (if zero then Plan.nothing else if window then Plan.fails k else if length then Plan.fails j
      else Plan.transaction c t).Whole c := by
  by_cases hz : zero
  · rw [if_pos hz]
    exact .nothing
  by_cases hw : window
  · rw [if_neg hz, if_pos hw]
    exact .fails k
  by_cases hl : length
  · rw [if_neg hz, if_neg hw, if_pos hl]
    exact .fails j
  · rw [if_neg hz, if_neg hw, if_neg hl]
    exact .transaction (h hz hw)

theorem exact_of_checked {x y w h : Half} {pixels : List Half} (hz : ¬ (w = 0 ∨ h = 0))
    (hb : ¬ (beyond x w.toNat = true ∨ beyond y h.toNat = true))
    (hp : pixels.length = w.toNat * h.toNat) :
    Transaction.exact
      { x0 := x, y0 := y, x1 := u16 (farCorner x w.toNat), y1 := u16 (farCorner y h.toNat)
        pixels := pixels } := by
  simp only [not_or, Bool.not_eq_true] at hz hb
  exact exact_of_size (toNat_pos_of_ne hz.1) (toNat_pos_of_ne hz.2) hb.1 hb.2 hp

theorem fillPlan_whole (x y w h col : Half) : (fillPlan c x y w h col).Whole c :=
  .checked fun hz hb => exact_of_checked hz hb List.length_replicate

theorem bitmapPlan_whole (m : Memory) (x y w h : Half) (addr : Addr) :
    (bitmapPlan c m x y w h addr).Whole c :=
  .checked fun hz hb => exact_of_checked hz hb (by simp)

theorem hLinePlan_whole (x y : Half) (len : Nat) (col : Half) : (hLinePlan c x y len col).Whole c :=
  .checked fun hz hb =>
    hLineTransaction_exact y col (Nat.pos_of_ne_zero hz) (Bool.eq_false_of_not_eq_true hb)

theorem vLinePlan_whole (x y : Half) (len : Nat) (col : Half) : (vLinePlan c x y len col).Whole c :=
  .checked fun hz hb =>
    vLineTransaction_exact x col (Nat.pos_of_ne_zero hz) (Bool.eq_false_of_not_eq_true hb)

theorem rectPlan_whole (x y w h col : Half) : (rectPlan c x y w h col).Whole c := by
  unfold rectPlan
  split
  · exact .nothing
  · exact (((hLinePlan_whole _ _ _ _).andThen (hLinePlan_whole _ _ _ _)).andThen
      (vLinePlan_whole _ _ _ _)).andThen (vLinePlan_whole _ _ _ _)

theorem linePlan_whole (x0 y0 x1 y1 col : Half) : (linePlan c x0 y0 x1 y1 col).Whole c := by
  unfold linePlan
  split
  · exact vLinePlan_whole _ _ _ _
  · split
    · exact hLinePlan_whole _ _ _ _
    · exact .flatMap fun p => pixelTransaction_exact c p.1 p.2 col

theorem glyphPlan_whole (s : State) (x : Half) (ch : Byte) : (glyphPlan s x ch).Whole s.cfg := by
  unfold glyphPlan
  split
  · exact .fails _
  · split
    · exact .fails _
    · rename_i hb
      simp only [not_or, Bool.not_eq_true] at hb
      exact .transaction (exact_of_size (by decide) (by decide) hb.1 hb.2 (by simp))

theorem textPlan_whole (s : State) (x : Half) (chars : List Byte) :
    (textPlan s x chars).Whole s.cfg := by
  induction chars generalizing x with
  | nil => exact .nothing
  | cons ch rest ih => exact (glyphPlan_whole s x ch).andThen (ih _)

theorem plan_whole {i : Instr} (hi : i.isRaster = true ∨ i.isText = true) (s : State) :
    (plan i s).Whole s.cfg := by
  cases i with
  | setCursor x y | setColor c | setBgColor c => exact .nothing
  | printChar ch => exact glyphPlan_whole s _ ch
  | print len addr => exact textPlan_whole s _ _
  | printNumber n width => exact textPlan_whole s _ _
  | drawPixel x y c => exact .transaction (pixelTransaction_exact _ x y c)
  | drawLine x0 y0 x1 y1 c => exact linePlan_whole x0 y0 x1 y1 c
  | drawRect x y w h c => exact rectPlan_whole x y w h c
  | fillRect x y w h c => exact fillPlan_whole x y w h c
  | drawBitmap x y w h p => exact bitmapPlan_whole s.host x y w h p
  | _ => rcases hi with hi | hi <;> cases hi

/-- Settles O54: after INIT the new events are the plan's, which are whole transactions. -/
theorem transactionsFillTheirWindows : Obligations.TransactionsFillTheirWindows := by
  intro i s hi hinit hl hw
  have hg : ¬ gated i s := fun ⟨_, _, h⟩ => nomatch hinit.symm.trans h
  obtain ⟨ts, hevents, hexact⟩ := plan_whole hi s
  exact ⟨ts, (newEvents_exec hg hl hw).trans (congrArg some hevents), hexact⟩

end Sys2Proof.Machine
end

section
/-! PROOFS. The drawing operations where the environment answers, and their faults: the whole state each
leaves (42_rasterizer.md R190 to R210, 60_exceptions.md R256, R258). -/

namespace Sys2Proof.Machine

/-! ### A host operation after INIT, by how its micro-sequence ends -/

section Inited

variable {s t : State} (hi : s.inited = true)
include hi

theorem exec_of_inited (i : Instr) : exec i s = runOperation (i.opByte s.cfg) (bodyOf i) s :=
  exec_open fun ⟨_, _, h⟩ => nomatch hi.symm.trans h

theorem exec_of_done (i : Instr) (h : bodyOf i { s with seq := .busy 0 } = .done t) :
    exec i s = .next { t with seq := .idle } :=
  (exec_of_inited hi i).trans (runOperation_done h)

theorem exec_of_raised (i : Instr) {k : FaultKind} (h : bodyOf i { s with seq := .busy 0 } = .raised k t) :
    exec i s = .fault (Fault.of k (i.opByte s.cfg)
      { t with fault := some { kind := k, op := i.opByte s.cfg } }) :=
  (exec_of_inited hi i).trans (runOperation_raised h)

end Inited

/-! ### Zero sizes (R193) -/

section Zero

variable {w h : Half} (hz : w = 0 ∨ h = 0) (x y c : Half) (s : State)
include hz

theorem fillRect_zero : fillRect x y w h c s = .done s := if_pos hz
theorem drawRect_zero : drawRect x y w h c s = .done s := if_pos hz
theorem drawBitmap_zero (p : Addr) : drawBitmap x y w h p s = .done s := if_pos hz

end Zero

/-- Settles O40: the test for a zero side is the first of each micro-sequence. -/
theorem zeroSizesDoNothing : Obligations.ZeroSizesDoNothing := fun _ x y _ _ c addr =>
  ⟨fun hi hz => ⟨(exec_of_done hi (.fillRect ..) (fillRect_zero hz x y c _)).trans rfl,
    (exec_of_done hi (.drawRect ..) (drawRect_zero hz x y c _)).trans rfl,
    (exec_of_done hi (.drawBitmap ..) (drawBitmap_zero hz x y _ addr)).trans rfl⟩, rfl, rfl⟩

/-! ### The faults of a rectangle and of a line (R178, R192, R258) -/

theorem stageRun_tooLong {c : Half} {n : Nat} {s : State} (h : s.cfg.width < n) :
    stageRun c n s = .raised .rowBufOverflow s :=
  if_pos (Nat.mul_lt_mul_of_pos_left h Nat.two_pos)

theorem not_beyond {x : Half} {n : Nat} (h : x.toNat + n - 1 ≤ 65535) : beyond x n = false :=
  decide_eq_false (Nat.not_lt.mpr h)

section Rectangle

variable {x y w h : Half} {s : State} (hw : w ≠ 0) (hh : h ≠ 0)
include hw hh

theorem fillRect_beyond (c : Half)
    (hb : 65535 < (offX s.cfg x).toNat + w.toNat - 1 ∨ 65535 < (offY s.cfg y).toNat + h.toNat - 1) :
    fillRect x y w h c s = .raised .windowRange s := by
  simp only [← beyond_iff] at hb
  exact (if_neg (not_or.mpr ⟨hw, hh⟩)).trans (if_pos hb)

theorem drawBitmap_beyond (p : Addr)
    (hb : 65535 < (offX s.cfg x).toNat + w.toNat - 1 ∨ 65535 < (offY s.cfg y).toNat + h.toNat - 1) :
    drawBitmap x y w h p s = .raised .windowRange s := by
  simp only [← beyond_iff] at hb
  exact (if_neg (not_or.mpr ⟨hw, hh⟩)).trans (if_pos hb)

variable (hx : (offX s.cfg x).toNat + w.toNat - 1 ≤ 65535)
  (hy : (offY s.cfg y).toNat + h.toNat - 1 ≤ 65535)
include hx hy

/-- A fill whose window fits is a staged run and its transaction (R194). -/
theorem fillRect_inside (c : Half) : fillRect x y w h c s = (stageRun c w.toNat s).andThen
    (blockTransaction (offX s.cfg x) (offY s.cfg y) (u16 (farCorner (offX s.cfg x) w.toNat))
      (u16 (farCorner (offY s.cfg y) h.toNat)) (.rowBuf 0) (2 * w.toNat) h.toNat) :=
  (if_neg (not_or.mpr ⟨hw, hh⟩)).trans (if_neg (by simp [not_beyond hx, not_beyond hy]))

theorem fillRect_tooLong (c : Half) (hlen : s.cfg.width < w.toNat) :
    fillRect x y w h c s = .raised .rowBufOverflow s := by
  rw [fillRect_inside hw hh hx hy c, stageRun_tooLong hlen]
  rfl

theorem drawBitmap_tooLong (p : Addr) (hlen : 65535 < 2 * w.toNat * h.toNat) :
    drawBitmap x y w h p s = .raised .blockLength s :=
  (if_neg (not_or.mpr ⟨hw, hh⟩)).trans
    ((if_neg (by simp [not_beyond hx, not_beyond hy])).trans (if_pos hlen))

end Rectangle

/-- Settles O41: the window check comes before the length, and both before anything else. -/
theorem rectangleFaults : Obligations.RectangleFaults := by
  refine fun s x y w h c addr hi hw hh =>
    ⟨fun hb => ⟨?_, ?_⟩, fun hx hy => ⟨fun hlen => ?_, fun hlen => ?_⟩⟩
  · exact (exec_of_raised hi (.fillRect ..) (fillRect_beyond hw hh c hb)).trans rfl
  · exact (exec_of_raised hi (.drawBitmap ..) (drawBitmap_beyond hw hh addr hb)).trans rfl
  · exact (exec_of_raised hi (.fillRect ..)
      (fillRect_tooLong (s := { s with seq := .busy 0 }) hw hh hx hy c hlen)).trans rfl
  · exact (exec_of_raised hi (.drawBitmap ..)
      (drawBitmap_tooLong (s := { s with seq := .busy 0 }) hw hh hx hy addr hlen)).trans rfl

section Line

variable {x y : Half} {len : Nat} {s : State} (h0 : len ≠ 0)
include h0

theorem fastHLine_beyond (c : Half) (hx : 65535 < (offX s.cfg x).toNat + len - 1) :
    fastHLine x y len c s = .raised .windowRange s :=
  (if_neg h0).trans (if_pos ((beyond_iff _ _).mpr hx))

theorem fastVLine_beyond (c : Half) (hy : 65535 < (offY s.cfg y).toNat + len - 1) :
    fastVLine x y len c s = .raised .windowRange s :=
  (if_neg h0).trans (if_pos ((beyond_iff _ _).mpr hy))

/-- A horizontal line whose window fits is a staged run and its transaction (R196). -/
theorem fastHLine_inside (c : Half) (hx : (offX s.cfg x).toNat + len - 1 ≤ 65535) :
    fastHLine x y len c s = (stageRun c len s).andThen (blockTransaction (offX s.cfg x) (offY s.cfg y)
      (u16 (farCorner (offX s.cfg x) len)) (offY s.cfg y) (.rowBuf 0) (2 * len) 1) :=
  (if_neg h0).trans (if_neg (by simp [not_beyond hx]))

/-- A vertical line whose window fits is a staged run and its transaction (R198). -/
theorem fastVLine_inside (c : Half) (hy : (offY s.cfg y).toNat + len - 1 ≤ 65535) :
    fastVLine x y len c s = (stageRun c len s).andThen (blockTransaction (offX s.cfg x) (offY s.cfg y)
      (offX s.cfg x) (u16 (farCorner (offY s.cfg y) len)) (.rowBuf 0) (2 * len) 1) :=
  (if_neg h0).trans (if_neg (by simp [not_beyond hy]))

theorem fastHLine_tooLong (c : Half) (hx : (offX s.cfg x).toNat + len - 1 ≤ 65535)
    (hlen : s.cfg.width < len) : fastHLine x y len c s = .raised .rowBufOverflow s := by
  rw [fastHLine_inside h0 c hx, stageRun_tooLong hlen]
  rfl

theorem fastVLine_tooLong (c : Half) (hy : (offY s.cfg y).toNat + len - 1 ≤ 65535)
    (hlen : s.cfg.width < len) : fastVLine x y len c s = .raised .rowBufOverflow s := by
  rw [fastVLine_inside h0 c hy, stageRun_tooLong hlen]
  rfl

end Line

/-- A vertical line is one fast line, a single point too (R208). -/
theorem drawLine_vertical (a b0 b1 c : Half) (s : State) :
    drawLine a b0 a b1 c s = fastVLine a (lower b0 b1) (span b0 b1 + 1) c s := if_pos rfl

/-- A horizontal line is one fast line (R208). -/
theorem drawLine_horizontal {b0 b1 : Half} (h : b0 ≠ b1) (a c : Half) (s : State) :
    drawLine b0 a b1 a c s = fastHLine (lower b0 b1) a (span b0 b1 + 1) c s :=
  (if_neg h).trans (if_pos rfl)

/-- Settles O42: a line along an axis is a fast line, with the faults of one. -/
theorem axisLineFaults : Obligations.AxisLineFaults := by
  intro s a b0 b1 c hi
  have h0 : span b0 b1 + 1 ≠ 0 := Nat.succ_ne_zero _
  have vertical : ∀ k, fastVLine a (lower b0 b1) (span b0 b1 + 1) c { s with seq := .busy 0 }
        = .raised k { s with seq := .busy 0 } → exec (.drawLine a b0 a b1 c) s = .fault (Fault.of k 0x08
      { s with seq := .busy 0, fault := some { kind := k, op := 0x08 } }) := fun k hk =>
    (exec_of_raised hi (.drawLine ..) ((drawLine_vertical ..).trans hk)).trans rfl
  have horizontal : b0 ≠ b1 → ∀ k, fastHLine (lower b0 b1) a (span b0 b1 + 1) c { s with seq := .busy 0 }
        = .raised k { s with seq := .busy 0 } → exec (.drawLine b0 a b1 a c) s = .fault (Fault.of k 0x08
      { s with seq := .busy 0, fault := some { kind := k, op := 0x08 } }) := fun hne k hk =>
    (exec_of_raised hi (.drawLine ..) ((drawLine_horizontal hne ..).trans hk)).trans rfl
  exact ⟨fun hb => vertical _ (fastVLine_beyond h0 c hb),
    fun hb hlen => vertical _ (fastVLine_tooLong h0 c hb hlen),
    fun hne hb => horizontal hne _ (fastHLine_beyond h0 c hb),
    fun hne hb hlen => horizontal hne _ (fastHLine_tooLong h0 c hb hlen)⟩

/-! ### Block transactions, answered -/

/-- The state after events that a block transfer of `len` bytes ended, with the Row Buffer it leaves. -/
def State.blockSent (src : BlockSrc) (len : Nat) (b : Memory) (evs : List Event) (s : State) : State :=
  { afterEvents evs s with
    seq := s.seq.plus evs.length, dcLine := .data, csLine := released s, txe := true, tc := true
    blkEn := false, blkSrc := src, blkLen := u16 len, rowBuf := b }

/-- Of two block transactions the second leaves the engine, and the events join. -/
theorem State.blockSent_blockSent (src src' : BlockSrc) (len len' : Nat) (b b' : Memory)
    (evs evs' : List Event) (s : State) :
    (s.blockSent src len b evs).blockSent src' len' b' evs' = s.blockSent src' len' b' (evs ++ evs') := by
  have hcs : released (s.blockSent src len b evs) = released s := by
    cases hu : s.cfg.useCs <;> simp [released, blockSent, hu]
  rw [blockSent, hcs]
  simp [blockSent, afterEvents]

theorem Transacted.blockSent {src : BlockSrc} {len : Nat} {evs : List Event} {s t : State}
    (d : Transacted src len s t) (w : Wire { s with rowBuf := t.rowBuf } t) (e : Took evs s t)
    (v : t.env = s.env) : t = s.blockSent src len t.rowBuf evs := by
  have hstate := d.state (by rw [w.curX, w.glyphBuf, w.numBuf]; exact w) e v
  rw [w.curX, w.glyphBuf, w.numBuf] at hstate
  exact hstate

/-- A run that fits, staged and sent (R192, R194): the shape of a fill and of both fast lines. -/
theorem staged_live (c : Half) {n reps : Nat} (hn : n ≠ 0) (hr0 : reps ≠ 0) (hr : reps ≤ repeatMax)
    (x0 y0 x1 y1 : Half) {s : State} (hl : s.env.isLive) (hw : s.cfg.width ≤ 32767)
    (hfit : n ≤ s.cfg.width) :
    (stageRun c n s).andThen (blockTransaction x0 y0 x1 y1 (.rowBuf 0) (2 * n) reps) =
      .done (s.blockSent (.rowBuf 0) (2 * n) (stagePixels c n s.rowBuf)
        (Transaction.events s.cfg
          { x0 := x0, y0 := y0, x1 := x1, y1 := y1, pixels := List.replicate (n * reps) c })) := by
  have hf := staged_follows c hn hr0 hr x0 y0 x1 y1 s hw
  rw [if_neg (Nat.not_lt.mpr hfit)] at hf
  obtain ⟨t, hd, ht, henv⟩ := hf.live_done hl rfl
  obtain ⟨htr, hrow⟩ := staged_done hd
  rw [← hrow]
  exact hd.trans (congrArg Run.done
    (htr.blockSent ((staged_rowOnly c n x0 y0 x1 y1 reps s).of_done hd).wire ht henv))

theorem fastHLine_live {x : Half} {len : Nat} {s : State} (y c : Half) (h0 : len ≠ 0)
    (hl : s.env.isLive) (hw : s.cfg.width ≤ 32767) (hfit : len ≤ s.cfg.width)
    (hx : (offX s.cfg x).toNat + len - 1 ≤ 65535) :
    fastHLine x y len c s = .done (s.blockSent (.rowBuf 0) (2 * len) (stagePixels c len s.rowBuf)
      ((hLineTransaction s.cfg x y len c).events s.cfg)) := by
  rw [fastHLine_inside h0 c hx, staged_live c h0 Nat.one_ne_zero (by decide) _ _ _ _ hl hw hfit,
    Nat.mul_one]
  rfl

theorem fastVLine_live {y : Half} {len : Nat} {s : State} (x c : Half) (h0 : len ≠ 0)
    (hl : s.env.isLive) (hw : s.cfg.width ≤ 32767) (hfit : len ≤ s.cfg.width)
    (hy : (offY s.cfg y).toNat + len - 1 ≤ 65535) :
    fastVLine x y len c s = .done (s.blockSent (.rowBuf 0) (2 * len) (stagePixels c len s.rowBuf)
      ((vLineTransaction s.cfg x y len c).events s.cfg)) := by
  rw [fastVLine_inside h0 c hy, staged_live c h0 Nat.one_ne_zero (by decide) _ _ _ _ hl hw hfit,
    Nat.mul_one]
  rfl

/-- A horizontal line after block transactions. -/
theorem fastHLine_sent {x : Half} {len : Nat} {s : State} (y c : Half) (h0 : len ≠ 0)
    (hl : s.env.isLive) (hw : s.cfg.width ≤ 32767) (hfit : len ≤ s.cfg.width)
    (hx : (offX s.cfg x).toNat + len - 1 ≤ 65535) (src : BlockSrc) (n : Nat) (b : Memory)
    (evs : List Event) :
    fastHLine x y len c (s.blockSent src n b evs) = .done (s.blockSent (.rowBuf 0) (2 * len)
      (stagePixels c len b) (evs ++ (hLineTransaction s.cfg x y len c).events s.cfg)) := by
  rw [← State.blockSent_blockSent src _ n]
  exact fastHLine_live (s := s.blockSent src n b evs) y c h0 hl hw hfit hx

/-- A vertical line after block transactions. -/
theorem fastVLine_sent {y : Half} {len : Nat} {s : State} (x c : Half) (h0 : len ≠ 0)
    (hl : s.env.isLive) (hw : s.cfg.width ≤ 32767) (hfit : len ≤ s.cfg.width)
    (hy : (offY s.cfg y).toNat + len - 1 ≤ 65535) (src : BlockSrc) (n : Nat) (b : Memory)
    (evs : List Event) :
    fastVLine x y len c (s.blockSent src n b evs) = .done (s.blockSent (.rowBuf 0) (2 * len)
      (stagePixels c len b) (evs ++ (vLineTransaction s.cfg x y len c).events s.cfg)) := by
  rw [← State.blockSent_blockSent src _ n]
  exact fastVLine_live (s := s.blockSent src n b evs) x c h0 hl hw hfit hy

/-! ### The staged bytes (R192) -/

theorem read_stagePixels (c : Half) (n : Nat) (m : Memory) (a : Nat) :
    (stagePixels c n m).read a = stagedByte c n m a := stagePixels_read c n m a

/-- Of two runs of one colour, staged one after the other, the longer shows. -/
theorem stagedByte_stagePixels (c : Half) (m n : Nat) (b : Memory) (a : Nat) :
    stagedByte c n (stagePixels c m b) a = stagedByte c (max m n) b a := by
  simp only [stagedByte, read_stagePixels]
  by_cases hn : a < 2 * n
  · rw [if_pos hn, if_pos (c := a < 2 * max m n) (by omega)]
  · rw [if_neg hn]
    by_cases hm : a < 2 * m
    · rw [if_pos hm, if_pos (c := a < 2 * max m n) (by omega)]
    · rw [if_neg hm, if_neg (by omega)]

/-! ### Fills, bitmaps and lines along an axis -/

theorem fillRect_live {x y w h : Half} {s : State} (c : Half) (hw0 : w ≠ 0) (hh0 : h ≠ 0)
    (hl : s.env.isLive) (hw : s.cfg.width ≤ 32767) (hfit : w.toNat ≤ s.cfg.width)
    (hx : (offX s.cfg x).toNat + w.toNat - 1 ≤ 65535) (hy : (offY s.cfg y).toNat + h.toNat - 1 ≤ 65535) :
    fillRect x y w h c s = .done (s.blockSent (.rowBuf 0) (2 * w.toNat)
      (stagePixels c w.toNat s.rowBuf) ((fillTransaction s.cfg x y w h c).events s.cfg)) :=
  (fillRect_inside hw0 hh0 hx hy c).trans (staged_live c (toNat_pos_of_ne hw0).ne'
    (toNat_pos_of_ne hh0).ne' (Nat.le_of_lt_succ h.isLt) _ _ _ _ hl hw hfit)

/-- Settles O33: the checks passed, a fill is a staged run and its transaction. -/
theorem fillRectResult : Obligations.FillRectResult := fun s _ _ w _ c hi hl hw hw0 hh0 hfit hx hy =>
  ⟨_, read_stagePixels c w.toNat s.rowBuf,
    (exec_of_done hi (.fillRect ..) (fillRect_live c hw0 hh0 hl hw hfit hx hy)).trans rfl⟩

/-- A done bitmap was its transaction. -/
theorem drawBitmap_done {x y w h : Half} {p : Addr} {s t : State} (hw : w ≠ 0) (hh : h ≠ 0)
    (hd : drawBitmap x y w h p s = .done t) : Transacted (.host p) (2 * w.toNat * h.toNat) s t := by
  unfold drawBitmap at hd
  rw [if_neg (not_or.mpr ⟨hw, hh⟩)] at hd
  simp only at hd
  split at hd
  · cases hd
  · split at hd
    · cases hd
    · exact blockTransaction_done hd

/-- Settles O35: the checks passed, the plan of a bitmap is its transaction, and no buffer is written. -/
theorem drawBitmapResult : Obligations.DrawBitmapResult := by
  intro s x y w h addr hi hl hw0 hh0 hlen hx hy
  have hf := drawBitmap_follows x y w h addr { s with seq := .busy 0 }
  have hp : bitmapPlan s.cfg s.host x y w h addr
      = Plan.transaction s.cfg (bitmapTransaction s.cfg s.host x y w h addr) := by
    unfold bitmapPlan
    rw [if_neg (not_or.mpr ⟨hw0, hh0⟩), if_neg (by simp [not_beyond hx, not_beyond hy]),
      if_neg (Nat.not_lt.mpr hlen)]
  obtain ⟨t, hd, ht, henv⟩ := hf.live_done hl (congrArg Plan.fault hp)
  have hw := (drawBitmap_wire ..).of_done hd
  have hstate := (drawBitmap_done hw0 hh0 hd).blockSent (RowOnly.of_wire hw).wire
    (hp ▸ ht : Took (Plan.transaction s.cfg _).events _ t) henv
  rw [hw.rowBuf] at hstate
  rw [exec_of_done hi (.drawBitmap ..) hd, hstate]
  rfl

/-- Settles O36: a line along an axis is a fast line, and it fits. -/
theorem axisLineResult : Obligations.AxisLineResult := by
  intro s a b0 b1 c hi hl hw hfit
  have h0 : span b0 b1 + 1 ≠ 0 := Nat.succ_ne_zero _
  refine ⟨fun hy => ⟨_, read_stagePixels c _ s.rowBuf, ?_⟩,
    fun hne hx => ⟨_, read_stagePixels c _ s.rowBuf, ?_⟩⟩
  · exact (exec_of_done hi (.drawLine ..)
      ((drawLine_vertical ..).trans (fastVLine_live a c h0 hl hw hfit hy))).trans rfl
  · exact (exec_of_done hi (.drawLine ..)
      ((drawLine_horizontal hne ..).trans (fastHLine_live a c h0 hl hw hfit hx))).trans rfl

/-! ### Outlines -/

section Outline

variable {x y w h : Half} {s : State} (hw0 : w ≠ 0) (hh0 : h ≠ 0) (c : Half)
include hw0 hh0

/-- An outline is its top and the rest (R200). -/
theorem drawRect_top : drawRect x y w h c s = (fastHLine x y w.toNat c s).andThen fun s =>
    (fastHLine x (y + h - 1) w.toNat c s).andThen fun s =>
    (fastVLine x y h.toNat c s).andThen fun s => fastVLine (x + w - 1) y h.toNat c s := by
  rw [← u16_corner y h hh0, ← u16_corner x w hw0]
  exact if_neg (not_or.mpr ⟨hw0, hh0⟩)

theorem drawRect_top_raised {k : FaultKind} (hk : fastHLine x y w.toNat c s = .raised k s) :
    drawRect x y w h c s = .raised k s := by
  rw [drawRect_top hw0 hh0, hk]
  rfl

variable (hl : s.env.isLive) (hw : s.cfg.width ≤ 32767) (hfit : w.toNat ≤ s.cfg.width)
  (hx : (offX s.cfg x).toNat + w.toNat - 1 ≤ 65535)
include hl hw hfit hx

/-- The state after the top and the bottom of an outline. -/
theorem drawRect_left : drawRect x y w h c s =
    (fastVLine x y h.toNat c (s.blockSent (.rowBuf 0) (2 * w.toNat)
      (stagePixels c w.toNat (stagePixels c w.toNat s.rowBuf))
      ((hLineTransaction s.cfg x y w.toNat c).events s.cfg ++
        (hLineTransaction s.cfg x (y + h - 1) w.toNat c).events s.cfg))).andThen fun s =>
    fastVLine (x + w - 1) y h.toNat c s := by
  have hw' : w.toNat ≠ 0 := (toNat_pos_of_ne hw0).ne'
  rw [drawRect_top hw0 hh0, fastHLine_live y c hw' hl hw hfit hx, Run.andThen_done,
    fastHLine_sent (y + h - 1) c hw' hl hw hfit hx, Run.andThen_done]

theorem drawRect_live (hfit' : h.toNat ≤ s.cfg.width)
    (hy : (offY s.cfg y).toNat + h.toNat - 1 ≤ 65535) :
    drawRect x y w h c s = .done (s.blockSent (.rowBuf 0) (2 * h.toNat)
      (stagePixels c h.toNat (stagePixels c h.toNat
        (stagePixels c w.toNat (stagePixels c w.toNat s.rowBuf))))
      ([hLineTransaction s.cfg x y w.toNat c, hLineTransaction s.cfg x (y + h - 1) w.toNat c,
        vLineTransaction s.cfg x y h.toNat c, vLineTransaction s.cfg (x + w - 1) y h.toNat c].flatMap
          fun t => t.events s.cfg)) := by
  have hh' : h.toNat ≠ 0 := (toNat_pos_of_ne hh0).ne'
  rw [drawRect_left hw0 hh0 c hl hw hfit hx, fastVLine_sent x c hh' hl hw hfit' hy,
    Run.andThen_done, fastVLine_sent (x + w - 1) c hh' hl hw hfit' hy]
  simp [List.append_assoc]

end Outline

/-- Settles O34: the four sides one after the other; each of two runs is staged twice. -/
theorem drawRectResult : Obligations.DrawRectResult := by
  intro s x y w h c hi hl hw hw0 hh0 hfit hfit' hx hy
  have hstaged : ∀ a, (stagePixels c h.toNat (stagePixels c h.toNat (stagePixels c w.toNat
      (stagePixels c w.toNat s.rowBuf)))).read a = stagedByte c (max w.toNat h.toNat) s.rowBuf a := by
    simp [read_stagePixels, stagedByte_stagePixels]
  exact ⟨_, hstaged,
    (exec_of_done hi (.drawRect ..) (drawRect_live hw0 hh0 c hl hw hfit hx hfit' hy)).trans rfl⟩

/-- Settles O43: the top's faults are a fast line's; past them the top and the bottom are sent, and the
left's faults are a fast line's again, from which the right is safe where the left is. -/
theorem drawRectFaultKeepsItsEdges : Obligations.DrawRectFaultKeepsItsEdges := by
  intro s x y w h c hi hw0 hh0
  have hw' : w.toNat ≠ 0 := (toNat_pos_of_ne hw0).ne'
  have hh' : h.toNat ≠ 0 := (toNat_pos_of_ne hh0).ne'
  refine ⟨fun hx => ?_, fun hx hlen => ?_, fun hl hw hfit hx => ⟨fun hbad => ?_, fun hy hfit' => ?_⟩⟩
  · exact (exec_of_raised hi (.drawRect ..)
      (drawRect_top_raised hw0 hh0 c (fastHLine_beyond hw' c hx))).trans rfl
  · exact (exec_of_raised hi (.drawRect ..)
      (drawRect_top_raised hw0 hh0 c (fastHLine_tooLong hw' c hx hlen))).trans rfl
  · have hleft := drawRect_left (s := { s with seq := .busy 0 }) (x := x) (y := y) hw0 hh0 c hl hw hfit hx
    have hstaged : ∀ a, (stagePixels c w.toNat (stagePixels c w.toNat s.rowBuf)).read a
        = stagedByte c w.toNat s.rowBuf a := fun a => by
      rw [read_stagePixels, stagedByte_stagePixels, max_self]
    by_cases hy : 65535 < (offY s.cfg y).toNat + h.toNat - 1
    · rw [fastVLine_beyond hh' c (by exact hy)] at hleft
      exact ⟨_, (exec_of_raised hi (.drawRect ..) hleft).trans (congrArg _ (if_pos hy).symm),
        (List.append_assoc ..).symm, hstaged, nofun⟩
    · rw [fastVLine_tooLong hh' c (by exact Nat.le_of_not_lt hy) (by exact hbad.resolve_left hy)] at hleft
      exact ⟨_, (exec_of_raised hi (.drawRect ..) hleft).trans (congrArg _ (if_neg hy).symm),
        (List.append_assoc ..).symm, hstaged, nofun⟩
  · exact ⟨_, exec_of_done hi (.drawRect ..) (drawRect_live hw0 hh0 c hl hw hfit hx hfit' hy)⟩

end Sys2Proof.Machine
end

section
/-! PROOFS. Pixels and the lines drawn with them (42_rasterizer.md R190, R208 to R212): the state they
leave, the points of a line, and its two directions. -/

namespace Sys2Proof.Machine

/-! ### A pixel -/

theorem payloadEvents_length (ps : List Half) : (payloadEvents ps).length = 2 * ps.length := by
  induction ps with
  | nil => rfl
  | cons v rest ih =>
    rw [show v :: rest = [v] ++ rest from rfl, payloadEvents_append, payloadEvents_singleton,
      List.length_append, ih, List.length_append, Nat.mul_add]
    rfl

/-- A transaction is eleven events of its window, two for each pixel, and two for the bracket where
chip-select exists (R142, R175). -/
theorem Transaction.events_length (c : Config) (t : Transaction) :
    (t.events c).length = (if c.useCs then 13 else 11) + 2 * t.pixels.length := by
  cases h : c.useCs <;>
    simp [Transaction.events, csEvents, windowEvents, casetEvents, rasetEvents, halfEvents,
      payloadEvents_length, h] <;> omega

/-- A run that follows events without a fault and leaves what pixels leave, where every wait is answered:
its state is known whole. -/
theorem Follows.live_dotted {evs : List Event} {s : State} {r : Run} (h : Follows (Plan.emits evs) s r)
    (hl : s.env.isLive) (hs : ∀ t, r = .done t → Dotted s t) (hw : r.Leaves (Wire s)) :
    r = .done { afterEvents evs s with
      seq := s.seq.plus evs.length, dcLine := .data, csLine := released s, txe := true } := by
  obtain ⟨t, rfl, ht, henv⟩ := h.live_done hl rfl
  exact congrArg Run.done ((hs t rfl).state hw ht henv)

/-- Settles O32: a pixel is one transaction of one pixel. -/
theorem drawPixelResult : Obligations.DrawPixelResult := by
  refine fun s x y c hi hl => ⟨?_, ?_⟩
  · rw [Transaction.events_length]
    split <;> rfl
  · exact (exec_of_done hi (.drawPixel ..) ((pixel_follows x y c _).live_dotted hl
      (fun _ => pixel_done) (pixel_wire x y c _))).trans rfl

/-! ### Lines along no axis -/

theorem Dotted.trans {s t u : State} (h : Dotted s t) (k : Dotted t u) (hc : t.cfg = s.cfg) :
    Dotted s u := by
  refine ⟨k.dcLine, k.csLine.trans ?_, k.rstLine.trans h.rstLine, k.txe, k.tc.trans h.tc,
    k.blkEn.trans h.blkEn, k.blkSrc.trans h.blkSrc, k.blkLen.trans h.blkLen⟩
  unfold released
  rw [hc, h.csLine]
  unfold released
  split <;> rfl

/-- One pixel or more leave the lines as a pixel does. -/
theorem bresenhamLoop_done {steep : Bool} {dx dy ys : Int} {c : Half} {n : Nat} {xx yy err : Int}
    {s u : State} (h : bresenhamLoop steep dx dy ys c (n + 1) xx yy err s = .done u) : Dotted s u := by
  induction n generalizing xx yy err s with
  | zero =>
    obtain ⟨t, h1, h2⟩ := Run.andThen_eq_done h
    rw [pixel_if] at h1
    have htu : t = u := by
      simpa [bresenhamLoop] using h2
    exact htu ▸ pixel_done h1
  | succ n ih =>
    obtain ⟨t, h1, h2⟩ := Run.andThen_eq_done h
    rw [pixel_if] at h1
    refine (pixel_done h1).trans ?_ ((pixel_wire _ _ _ _).of_done h1).cfg
    split at h2 <;> exact ih h2

theorem bresenham_done {x0 y0 x1 y1 : Int} {c : Half} {s u : State}
    (h : bresenham x0 y0 x1 y1 c s = .done u) : Dotted s u := by
  unfold bresenham bresenhamOrdered bresenhamFrom at h
  split at h <;> split at h <;> exact bresenhamLoop_done h

/-- A line along no axis draws its points (R210), whatever the width of the panel. -/
theorem bresenham_follows {x0 y0 x1 y1 : Half} (c : Half) (hx : x0 ≠ x1) (hy : y0 ≠ y1) (s : State) :
    Follows (Plan.emits ((linePoints x0 y0 x1 y1).flatMap fun p =>
      (pixelTransaction s.cfg p.1 p.2 c).events s.cfg)) s
      (bresenham x0.toNat y0.toNat x1.toNat y1.toNat c s) := by
  have hspan : ∀ a b : Half, |(b.toNat : Int) - a.toNat| = (span a b : Nat) := fun a b => by
    rw [span_int, span_comm]
  unfold bresenham linePoints
  rw [hspan, hspan]
  by_cases h : span y0 y1 > span x0 x1
  · rw [if_pos h, if_pos (Int.ofNat_lt.mpr h), List.flatMap_map]
    exact bresenhamOrdered_follows true c hy hx h.le s
  · rw [if_neg h, if_neg (mt Int.ofNat_lt.mp h)]
    exact bresenhamOrdered_follows false c hx hy (Nat.le_of_not_gt h) s

theorem drawLine_oblique {x0 y0 x1 y1 : Half} (c : Half) (hx : x0 ≠ x1) (hy : y0 ≠ y1) (s : State) :
    drawLine x0 y0 x1 y1 c s = bresenham x0.toNat y0.toNat x1.toNat y1.toNat c s :=
  (if_neg hx).trans (if_neg hy)

/-- Settles O37: the loop draws the points of the closed form, and a pixel cannot fault. -/
theorem obliqueLineResult : Obligations.ObliqueLineResult := by
  intro s x0 y0 x1 y1 c hi hl hx hy
  have hlive := (bresenham_follows c hx hy { s with seq := .busy 0 }).live_dotted hl
    (fun _ => bresenham_done) (bresenham_wire _ _ _ _ c _)
  exact (exec_of_done hi (.drawLine ..) ((drawLine_oblique c hx hy _).trans hlive)).trans rfl

/-! ### A line's points -/

theorem span_of_le {a b : Half} (h : a ≤ b) : span a b = b.toNat - a.toNat := by
  have h : a.toNat ≤ b.toNat := h
  rw [span, max_eq_right h, min_eq_left h]

theorem span_pos {a b : Half} (h : a ≠ b) : 0 < span a b := by
  have hne : a.toNat ≠ b.toNat := fun e => h (BitVec.eq_of_toNat_eq e)
  unfold span
  omega

theorem lineSteps_last {dx : Nat} (dy : Nat) (h : 0 < dx) : lineSteps dx dy dx = dy :=
  lineSteps_unique (by rw [mul_comm (dx : Int)]; omega) (by rw [mul_comm (dx : Int)]; omega)

theorem u16_toNat (a : Half) : u16 a.toNat = a := (BitVec.ofNat_toNat ..).trans (BitVec.setWidth_eq a)

/-- Point 0 of a line is the end it starts from. -/
theorem linePoint_first {dx : Nat} (a0 b0 b1 : Half) (dy : Nat) (h : 0 < dx) :
    linePoint a0 b0 b1 dx dy 0 = (a0, b0) := by
  simp [linePoint, lineSteps_zero dy h, u16_toNat]

/-- The last point of a line is its other end. -/
theorem linePoint_last {a0 a1 b0 b1 : Half} (ha : a0 ≤ a1) (hne : a0 ≠ a1) :
    linePoint a0 b0 b1 (span a0 a1) (span b0 b1) (span a0 a1) = (a1, b1) := by
  have hlong : a0.toNat + span a0 a1 = a1.toNat := by
    rw [span_of_le ha]
    exact Nat.add_sub_cancel' ha
  rw [linePoint, lineSteps_last _ (span_pos hne), hlong, u16_toNat]
  by_cases hb : b0 ≤ b1
  · have hb' : b0.toNat ≤ b1.toNat := hb
    rw [if_pos hb, span_of_le hb, Nat.add_sub_cancel' hb', u16_toNat]
  · have hb' : b1 ≤ b0 := by simp only [BitVec.le_def] at hb ⊢; omega
    have hb'' : b1.toNat ≤ b0.toNat := hb'
    rw [if_neg hb, span_comm, span_of_le hb', Nat.sub_sub_self hb'', u16_toNat]

theorem span_u16 {m n : Nat} (h : m ≤ n + 1 ∧ n ≤ m + 1) (hm : m < 65536) (hn : n < 65536) :
    span (u16 m) (u16 n) ≤ 1 := by
  simp only [span, u16, BitVec.toNat_ofNat, Nat.reducePow, Nat.mod_eq_of_lt hm, Nat.mod_eq_of_lt hn]
  omega

/-- From a point to the next a line moves by one along its long axis and by at most one along the
other. -/
theorem linePoint_step {a0 a1 b0 b1 : Half} {i : Nat} (ha : a0 ≤ a1) (hd : span b0 b1 ≤ span a0 a1)
    (hi : i < span a0 a1) :
    span (linePoint a0 b0 b1 (span a0 a1) (span b0 b1) i).1
        (linePoint a0 b0 b1 (span a0 a1) (span b0 b1) (i + 1)).1 ≤ 1 ∧
      span (linePoint a0 b0 b1 (span a0 a1) (span b0 b1) i).2
        (linePoint a0 b0 b1 (span a0 a1) (span b0 b1) (i + 1)).2 ≤ 1 := by
  have hpos : 0 < span a0 a1 := Nat.zero_lt_of_lt hi
  have hlong := span_of_le ha
  have ha1 := a1.isLt
  have hb0 := b0.isLt
  have hb1 := b1.isLt
  have hk := lineSteps_le (dy := span b0 b1) hpos hi.le
  have hk' : lineSteps (span a0 a1) (span b0 b1) (i + 1) ≤ span b0 b1 := lineSteps_le hpos hi
  have hstep : lineSteps (span a0 a1) (span b0 b1) (i + 1) = lineSteps (span a0 a1) (span b0 b1) i + 1 ∨
      lineSteps (span a0 a1) (span b0 b1) (i + 1) = lineSteps (span a0 a1) (span b0 b1) i := by
    obtain ⟨hup, hlevel⟩ := lineSteps_succ i hpos hd
    exact (em _).imp hup hlevel
  refine ⟨span_u16 (by omega) (by omega) (by omega), ?_⟩
  unfold linePoint
  by_cases hb : b0 ≤ b1
  · rw [if_pos hb, if_pos hb]
    have hshort := span_of_le hb
    exact span_u16 (by omega) (by omega) (by omega)
  · rw [if_neg hb, if_neg hb]
    exact span_u16 (by omega) (by omega) (by omega)

/-- A list of points that goes in `n` steps from one of two ends to the other, and by at most one pixel
on each axis at a step. -/
structure LineShape (n : Nat) (p q : Half × Half) (l : List (Half × Half)) : Prop where
  length : l.length = n + 1
  ends : (l.head? = some p ∧ l.getLast? = some q) ∨ (l.head? = some q ∧ l.getLast? = some p)
  step : ∀ k u v, l[k]? = some u → l[k + 1]? = some v → span u.1 v.1 ≤ 1 ∧ span u.2 v.2 ≤ 1

theorem LineShape.reverse {n : Nat} {p q : Half × Half} {l : List (Half × Half)}
    (h : LineShape n p q l) : LineShape n q p l :=
  ⟨h.length, h.ends.symm, h.step⟩

/-- The axes exchanged. -/
theorem LineShape.swap {n : Nat} {p q : Half × Half} {l : List (Half × Half)}
    (h : LineShape n p q l) : LineShape n (p.2, p.1) (q.2, q.1) (l.map fun r => (r.2, r.1)) := by
  refine ⟨(List.length_map _).trans h.length, ?_, fun k u v hu hv => ?_⟩
  · rw [List.head?_map, List.getLast?_map]
    exact h.ends.imp (fun ⟨h1, h2⟩ => by simp [h1, h2]) fun ⟨h1, h2⟩ => by simp [h1, h2]
  · rw [List.getElem?_map, Option.map_eq_some_iff] at hu hv
    obtain ⟨u, hu, rfl⟩ := hu
    obtain ⟨v, hv, rfl⟩ := hv
    exact (h.step k u v hu hv).symm

theorem linePoint_shape {a0 a1 b0 b1 : Half} (ha : a0 ≤ a1) (hne : a0 ≠ a1)
    (hd : span b0 b1 ≤ span a0 a1) : LineShape (span a0 a1) (a0, b0) (a1, b1)
      ((List.range (span a0 a1 + 1)).map (linePoint a0 b0 b1 (span a0 a1) (span b0 b1))) := by
  refine ⟨by simp, .inl ⟨?_, ?_⟩, fun k u v hu hv => ?_⟩
  · simp [List.range_succ_eq_map, linePoint_first a0 b0 b1 _ (span_pos hne)]
  · simp [List.range_succ, linePoint_last ha hne]
  · simp only [List.getElem?_map, Option.map_eq_some_iff, List.getElem?_eq_some_iff, List.length_range,
      List.getElem_range] at hu hv
    obtain ⟨_, ⟨_, rfl⟩, rfl⟩ := hu
    obtain ⟨_, ⟨hk, rfl⟩, rfl⟩ := hv
    exact linePoint_step ha hd (by omega)

theorem longPoints_shape {a0 a1 b0 b1 : Half} (hne : a0 ≠ a1) (hd : span b0 b1 ≤ span a0 a1) :
    LineShape (span a0 a1) (a0, b0) (a1, b1) (longPoints a0 b0 a1 b1) := by
  unfold longPoints
  by_cases ha : a0 ≤ a1
  · rw [if_pos ha]
    exact linePoint_shape ha hne hd
  · rw [if_neg ha, span_comm a0 a1, span_comm b0 b1]
    rw [span_comm a0 a1, span_comm b0 b1] at hd
    exact (linePoint_shape (by simp only [BitVec.le_def] at ha ⊢; omega) hne.symm hd).reverse

theorem linePoints_shape {x0 y0 x1 y1 : Half} (hx : x0 ≠ x1) (hy : y0 ≠ y1) :
    LineShape (max (span x0 x1) (span y0 y1)) (x0, y0) (x1, y1) (linePoints x0 y0 x1 y1) := by
  unfold linePoints
  by_cases h : span y0 y1 > span x0 x1
  · rw [if_pos h, max_eq_right h.le]
    exact (longPoints_shape hy h.le).swap
  · rw [if_neg h, max_eq_left (Nat.le_of_not_gt h)]
    exact longPoints_shape hx (Nat.le_of_not_gt h)

/-- Settles O38: each axis as the long one, from its smaller end. -/
theorem obliqueLinePoints : Obligations.ObliqueLinePoints := fun _ _ _ _ hx hy =>
  have h := linePoints_shape hx hy
  ⟨h.length, h.ends, h.step⟩

/-! ### The two directions of a line -/

theorem lower_comm (a b : Half) : lower a b = lower b a := by
  unfold lower
  by_cases h : a ≤ b
  · by_cases h' : b ≤ a
    · rw [if_pos h, if_pos h']
      exact BitVec.eq_of_toNat_eq (Nat.le_antisymm h h')
    · rw [if_pos h, if_neg h']
  · rw [if_neg h, if_pos (by simp only [BitVec.le_def] at h ⊢; omega)]

/-- The second swap of R210 makes the direction of the long axis irrelevant. -/
theorem bresenhamOrdered_comm (steep : Bool) {x0 x1 : Int} (h : x0 ≠ x1) (y0 y1 : Int) (c : Half)
    (s : State) :
    bresenhamOrdered steep x0 y0 x1 y1 c s = bresenhamOrdered steep x1 y1 x0 y0 c s := by
  unfold bresenhamOrdered
  rcases lt_or_gt_of_ne h with hlt | hgt
  · rw [if_neg hlt.not_gt, if_pos hlt]
  · rw [if_pos hgt, if_neg hgt.not_gt]

theorem bresenham_comm {x0 y0 x1 y1 : Int} (hx : x0 ≠ x1) (hy : y0 ≠ y1) (c : Half) (s : State) :
    bresenham x0 y0 x1 y1 c s = bresenham x1 y1 x0 y0 c s := by
  unfold bresenham
  rw [abs_sub_comm y1 y0, abs_sub_comm x1 x0, bresenhamOrdered_comm true hy x0 x1,
    bresenhamOrdered_comm false hx y0 y1]

theorem drawLine_comm (x0 y0 x1 y1 c : Half) : drawLine x0 y0 x1 y1 c = drawLine x1 y1 x0 y0 c := by
  funext s
  by_cases hx : x0 = x1
  · subst hx
    rw [drawLine_vertical, drawLine_vertical, lower_comm, span_comm]
  by_cases hy : y0 = y1
  · subst hy
    rw [drawLine_horizontal hx, drawLine_horizontal (Ne.symm hx), lower_comm, span_comm]
  · have hne : ∀ {a b : Half}, a ≠ b → (a.toNat : Int) ≠ b.toNat := fun h e =>
      h (BitVec.eq_of_toNat_eq (Int.ofNat_inj.mp e))
    rw [drawLine_oblique c hx hy, drawLine_oblique c (Ne.symm hx) (Ne.symm hy),
      bresenham_comm (hne hx) (hne hy)]

/-- Settles O39: the two micro-sequences are one function, in each branch of the dispatch. -/
theorem lineHasNoDirection : Obligations.LineHasNoDirection := fun s x0 y0 x1 y1 c =>
  congrArg (hostOperation 0x08 · s) (drawLine_comm x0 y0 x1 y1 c)

end Sys2Proof.Machine
end

section
/-! PROOFS. What a window of one colour leaves of the panel's cells, and the same cells drawn one by one
(20_memory.md R82 to R84, 42_rasterizer.md R195). -/

namespace Sys2Proof.Machine

/-! ### Cells -/

theorem hi8_append_lo8 (v : Half) : hi8 v ++ lo8 v = v := append_bytes v

/-- A cell has one place in `gram`. -/
theorem gramKey_inj {a b a' b' : Half} : gramKey a b = gramKey a' b' ↔ a = a' ∧ b = b' := by
  have hb := b.isLt
  have hb' := b'.isLt
  simp only [gramKey, ← BitVec.toNat_inj]
  omega

/-- A known sink with the pixel format INIT gives it: what R84 asks of a sink before a write. -/
structure Panel.Ready (c : Config) (p : Panel) : Prop where
  status : p.status = .known
  colmod : p.regs.colmod = some c.colmodValue

/-- From `p` to `q` the cells of a set have taken a colour and every other is as it was. -/
structure Panel.Painted (v : Half) (cells : Half → Half → Prop) (p q : Panel) : Prop where
  inside : ∀ {col row}, cells col row → q.cell col row = some v
  outside : ∀ {col row}, ¬ cells col row → q.cell col row = p.cell col row

theorem Panel.Painted.none {v : Half} {cells : Half → Half → Prop} {p q : Panel}
    (h : ∀ col row, ¬ cells col row) (hq : ∀ col row, q.cell col row = p.cell col row) :
    Panel.Painted v cells p q :=
  ⟨fun hc => absurd hc (h _ _), fun _ => hq _ _⟩

/-- One painting after another paints the cells of both. -/
theorem Panel.Painted.trans {v : Half} {a b cells : Half → Half → Prop} {p q r : Panel}
    (h : Panel.Painted v a p q) (k : Panel.Painted v b q r)
    (hc : ∀ col row, cells col row ↔ a col row ∨ b col row) : Panel.Painted v cells p r := by
  refine ⟨fun {col row} hin => ?_, fun {col row} hout => ?_⟩
  · by_cases hb : b col row
    · exact k.inside hb
    · rw [k.outside hb, h.inside (((hc col row).mp hin).resolve_right hb)]
  · rw [hc, not_or] at hout
    rw [k.outside hout.2, h.outside hout.1]

theorem Panel.Painted.congr {v : Half} {a b : Half → Half → Prop} {p q : Panel}
    (h : Panel.Painted v a p q) (hc : ∀ col row, a col row ↔ b col row) : Panel.Painted v b p q :=
  ⟨fun hb => h.inside ((hc _ _).mpr hb), fun hb => h.outside (mt (hc _ _).mp hb)⟩

/-- Two paintings of the same cells leave the same cells. -/
theorem Panel.Painted.cell_eq {v : Half} {cells : Half → Half → Prop} {p q r : Panel}
    (h : Panel.Painted v cells p q) (k : Panel.Painted v cells p r) (col row : Half) :
    q.cell col row = r.cell col row := by
  by_cases hc : cells col row
  · rw [h.inside hc, k.inside hc]
  · rw [h.outside hc, k.outside hc]

/-! ### The window commands -/

variable {c : Config} {p : Panel}

/-- The sink after a column command and its two bounds (R82). -/
theorem panelAfter_caset (ho : c.opcodes.wf = true) (hp : p.status = .known) (x0 x1 : Half) :
    panelAfter c (casetEvents c x0 x1) p = { p with
      cmd := some c.opcodes.caset, idx := 4, args := [hi8 x0, lo8 x0, hi8 x1], half := none
      xs := some x0, xe := some x1 } := by
  have hfind : c.opcodes.find? c.opcodes.caset = some .caset := Opcodes.find?_code ho .caset
  simp [casetEvents, halfEvents, Panel.accept, hp, Panel.command, Panel.data, Panel.parameter, hfind,
    hi8_append_lo8]

/-- The sink after a row command and its two bounds (R83). -/
theorem panelAfter_raset (ho : c.opcodes.wf = true) (hp : p.status = .known) (y0 y1 : Half) :
    panelAfter c (rasetEvents c y0 y1) p = { p with
      cmd := some c.opcodes.raset, idx := 4, args := [hi8 y0, lo8 y0, hi8 y1], half := none
      ys := some y0, ye := some y1 } := by
  have hfind : c.opcodes.find? c.opcodes.raset = some .raset := Opcodes.find?_code ho .raset
  simp [rasetEvents, halfEvents, Panel.accept, hp, Panel.command, Panel.data, Panel.parameter, hfind,
    hi8_append_lo8]

/-! ### Writing a window -/

/-- A window of `w` by `h` cells from `(x, y)` that the panel has (R84). -/
structure Window (c : Config) (x y : Half) (w h : Nat) : Prop where
  width : 0 < w
  height : 0 < h
  columns : x.toNat + w ≤ min 65536 c.gramCols
  rows : y.toNat + h ≤ min 65536 c.gramRows

variable {x y : Half} {w h : Nat}

theorem Window.toNat_right (win : Window c x y w h) :
    (u16 (farCorner x w)).toNat = x.toNat + w - 1 :=
  toNat_farCorner (not_beyond (by have := win.columns; omega))

theorem Window.toNat_bottom (win : Window c x y w h) :
    (u16 (farCorner y h)).toNat = y.toNat + h - 1 :=
  toNat_farCorner (not_beyond (by have := win.rows; omega))

/-- A sink that has taken `k` pixels of a window: until the last, the write pointer is at cell `k`, row by
row (R84). -/
structure Panel.Writing (c : Config) (x y : Half) (w h k : Nat) (p : Panel) : Prop
    extends p.Ready c where
  cmd : p.cmd = some c.opcodes.ramwr
  half : p.half = none
  xs : p.xs = some x
  xe : p.xe = some (u16 (farCorner x w))
  ye : p.ye = some (u16 (farCorner y h))
  live : k < w * h → p.live = true
  col : k < w * h → p.col.toNat = x.toNat + k % w
  row : k < w * h → p.row.toNat = y.toNat + k / w

/-- The window's commands put the write pointer on its first cell (R82 to R84). -/
theorem panelAfter_window (ho : c.opcodes.wf = true) (win : Window c x y w h) (hp : p.Ready c) :
    (panelAfter c (windowEvents c x y (u16 (farCorner x w)) (u16 (farCorner y h))) p).Writing c x y w h 0 ∧
      ∀ col row, (panelAfter c (windowEvents c x y (u16 (farCorner x w)) (u16 (farCorner y h))) p).cell
        col row = p.cell col row := by
  have hfind : c.opcodes.find? c.opcodes.ramwr = some .ramwr := Opcodes.find?_code ho .ramwr
  have hx := win.columns
  have hy := win.rows
  have hw := win.width
  have hh := win.height
  have hstart : x ≤ u16 (farCorner x w) ∧ y ≤ u16 (farCorner y h) ∧
      (u16 (farCorner x w)).toNat < c.gramCols ∧ (u16 (farCorner y h)).toNat < c.gramRows := by
    simp only [BitVec.le_def, win.toNat_right, win.toNat_bottom]
    omega
  obtain ⟨h1, h2, h3, h4⟩ := hstart
  rw [windowEvents, panelAfter_append, panelAfter_append, panelAfter_caset ho hp.status,
    panelAfter_raset ho (by exact hp.status)]
  simp only [panelAfter_cons, panelAfter_nil, Panel.accept, hp.status, Panel.command, hfind,
    Panel.startWrite, h1, h2, h3, h4, hp.colmod, and_self, if_true]
  refine ⟨⟨⟨rfl, hp.colmod⟩, rfl, rfl, rfl, rfl, rfl, fun _ => rfl, fun _ => ?_, fun _ => ?_⟩, fun _ _ => ?_⟩
  · simp
  · simp
  · simp [Panel.cell, hp.status]

/-- The place after place `k` of a window: the next of the row, or the first of the next row. -/
theorem place_succ {k : Nat} (hw : 0 < w) (hk : k + 1 < w * h) :
    (k % w + 1 < w ∧ (k + 1) % w = k % w + 1 ∧ (k + 1) / w = k / w) ∨
      (k % w + 1 = w ∧ (k + 1) % w = 0 ∧ (k + 1) / w = k / w + 1 ∧ k / w + 1 < h) := by
  have hsplit : k + 1 = w * (k / w) + (k % w + 1) := congrArg (· + 1) (Nat.div_add_mod k w).symm
  rcases Nat.lt_or_ge (k % w + 1) w with hlt | hge
  · refine .inl ⟨hlt, ?_, ?_⟩
    · rw [hsplit, Nat.mul_add_mod, Nat.mod_eq_of_lt hlt]
    · rw [hsplit, Nat.mul_add_div hw, Nat.div_eq_of_lt hlt, Nat.add_zero]
  · have heq : k % w + 1 = w := Nat.le_antisymm (Nat.mod_lt k hw) hge
    have hrow : k + 1 = w * (k / w + 1) := by rw [hsplit, heq, Nat.mul_succ]
    refine .inr ⟨heq, ?_, ?_, ?_⟩
    · rw [hrow, Nat.mul_mod_right]
    · rw [hrow, Nat.mul_div_cancel_left _ hw]
    · exact Nat.lt_of_mul_lt_mul_left (hrow ▸ hk)

theorem toNat_succ {a : Half} (h : a.toNat + 1 < 65536) : (a + 1).toNat = a.toNat + 1 :=
  (BitVec.toNat_add a 1).trans (Nat.mod_eq_of_lt h)

/-- From place `k` the write pointer goes to place `k + 1` (R84). -/
theorem advance_place (win : Window c x y w h) {k : Nat} (hk : k + 1 < w * h)
    (hcol : p.col.toNat = x.toNat + k % w) (hrow : p.row.toNat = y.toNat + k / w) :
    (Panel.advance x (u16 (farCorner x w)) (u16 (farCorner y h)) p).live = p.live ∧
    (Panel.advance x (u16 (farCorner x w)) (u16 (farCorner y h)) p).col.toNat = x.toNat + (k + 1) % w ∧
    (Panel.advance x (u16 (farCorner x w)) (u16 (farCorner y h)) p).row.toNat = y.toNat + (k + 1) / w := by
  have hx := win.columns
  have hy := win.rows
  unfold Panel.advance
  simp only [BitVec.lt_def, win.toNat_right, win.toNat_bottom]
  rcases place_succ win.width hk with ⟨hin, hm, hd⟩ | ⟨hend, hm, hd, hnext⟩
  · rw [if_pos (by omega), hm, hd]
    exact ⟨rfl, (toNat_succ (by omega)).trans (by omega), hrow⟩
  · rw [if_neg (by omega), if_pos (by omega), hm, hd]
    exact ⟨rfl, rfl, (toNat_succ (by omega)).trans (by omega)⟩

/-- Only the write pointer moves. -/
theorem advance_eq (xs xe ye : Half) (p : Panel) : Panel.advance xs xe ye p =
    { p with
      col := (Panel.advance xs xe ye p).col
      row := (Panel.advance xs xe ye p).row
      live := (Panel.advance xs xe ye p).live } := by
  unfold Panel.advance
  split
  · rfl
  · split <;> rfl

theorem advance_status (xs xe ye : Half) (p : Panel) : (Panel.advance xs xe ye p).status = p.status := by
  rw [advance_eq]

/-- The sink with the cell at its pointer written by the second byte of a pixel. -/
def Panel.withCell (v : Half) (p : Panel) : Panel :=
  { p with gram := Cells.put (gramKey p.col p.row) v p.gram, half := none, idx := p.idx + 1 }

theorem Panel.withCell_painted (hp : p.status = .known) (v : Half) :
    Panel.Painted v (fun col row => col = p.col ∧ row = p.row) p (p.withCell v) := by
  refine ⟨fun {col row} hin => ?_, fun {col row} hout => ?_⟩
  · obtain ⟨rfl, rfl⟩ := hin
    simp only [Panel.cell, Panel.withCell, hp]
    exact Cells.get?_put_same _ _ _
  · simp only [Panel.cell, Panel.withCell, hp]
    exact Cells.get?_put_other (mt gramKey_inj.mp hout) _ _

/-- A data byte after memory-write is a payload byte (R81, R84). -/
theorem accept_payload (ho : c.opcodes.wf = true) (hp : p.status = .known)
    (hcmd : p.cmd = some c.opcodes.ramwr) {v : Byte} {q : Panel} (hq : p.payload v = q)
    (hs : q.status = .known) : p.accept c (.byte .data v) = { q with idx := q.idx + 1 } := by
  have hfind : c.opcodes.find? c.opcodes.ramwr = some .ramwr := Opcodes.find?_code ho .ramwr
  rw [accept_data (hp ▸ nofun)]
  simp only [Panel.data, hcmd, Option.bind_some, hfind, Panel.parameter, hq, hs]

/-- The two bytes of a pixel write the cell at the pointer and move it on (R84). -/
theorem Panel.Writing.halfEvents (ho : c.opcodes.wf = true) {k : Nat} (hp : p.Writing c x y w h k)
    (hk : k < w * h) (v : Half) :
    ∃ n, panelAfter c (Machine.halfEvents v) p =
      { Panel.advance x (u16 (farCorner x w)) (u16 (farCorner y h)) (p.withCell v) with idx := n } := by
  have hhi : p.payload (hi8 v) = { p with half := some (hi8 v) } := by
    simp only [Panel.payload, hp.half]
  have hlo : Panel.payload (lo8 v) { p with half := some (hi8 v), idx := p.idx + 1 } =
      Panel.advance x (u16 (farCorner x w)) (u16 (farCorner y h)) (p.withCell v) := by
    simp only [Panel.payload, hp.live hk, hp.xs, hp.xe, hp.ye, hi8_append_lo8, Panel.withCell]
  have hfirst := accept_payload ho hp.status hp.cmd hhi hp.status
  have hsecond := accept_payload (p := { p with half := some (hi8 v), idx := p.idx + 1 }) ho hp.status
    hp.cmd hlo ((advance_status ..).trans hp.status)
  exact ⟨_, (congrArg (Panel.accept c (.byte .data (lo8 v))) hfirst).trans hsecond⟩

/-- A pixel is written at place `k`, and the pointer goes to place `k + 1` (R84). -/
theorem Panel.Writing.pixel (ho : c.opcodes.wf = true) (win : Window c x y w h) {k : Nat}
    (hp : p.Writing c x y w h k) (hk : k < w * h) (v : Half) :
    (panelAfter c (Machine.halfEvents v) p).Writing c x y w h (k + 1) ∧
      Panel.Painted v (fun col row => col.toNat = x.toNat + k % w ∧ row.toNat = y.toNat + k / w) p
        (panelAfter c (Machine.halfEvents v) p) := by
  obtain ⟨n, he⟩ := hp.halfEvents ho hk v
  have hcell := (Panel.withCell_painted hp.status v).congr
    (b := fun col row => col.toNat = x.toNat + k % w ∧ row.toNat = y.toNat + k / w)
    fun col row => by rw [← hp.col hk, ← hp.row hk, BitVec.toNat_inj, BitVec.toNat_inj]
  have hplace := fun hk' => advance_place (p := p.withCell v) win (k := k) hk' (hp.col hk) (hp.row hk)
  rw [he]
  rw [advance_eq] at hplace ⊢
  exact ⟨⟨⟨hp.status, hp.colmod⟩, hp.cmd, rfl, hp.xs, hp.xe, hp.ye,
    fun hk' => (hplace hk').1.trans (hp.live hk), fun hk' => (hplace hk').2.1,
    fun hk' => (hplace hk').2.2⟩, hcell.inside, hcell.outside⟩

/-- The first `n` pixels of a window paint its first `n` places. -/
theorem Panel.Writing.pixels (ho : c.opcodes.wf = true) (win : Window c x y w h)
    (hp : p.Writing c x y w h 0) (v : Half) {n : Nat} (hn : n ≤ w * h) :
    (panelAfter c (payloadEvents (List.replicate n v)) p).Writing c x y w h n ∧
      Panel.Painted v (fun col row => ∃ k < n, col.toNat = x.toNat + k % w ∧ row.toNat = y.toNat + k / w)
        p (panelAfter c (payloadEvents (List.replicate n v)) p) := by
  induction n with
  | zero => exact ⟨hp, .none (fun _ _ ⟨_, hk, _⟩ => nomatch hk) fun _ _ => rfl⟩
  | succ n ih =>
    obtain ⟨hwrite, hpaint⟩ := ih (Nat.le_of_succ_le hn)
    obtain ⟨hwrite', hpaint'⟩ := hwrite.pixel ho win hn v
    rw [List.replicate_succ', payloadEvents_append, payloadEvents_singleton, panelAfter_append]
    refine ⟨hwrite', hpaint.trans hpaint' fun col row => ?_⟩
    simp only [Nat.lt_succ_iff_lt_or_eq, or_and_right, exists_or, exists_eq_left]

/-- The cells of a `w` by `h` rectangle from `(x, y)`. -/
def inRect (x y : Half) (w h : Nat) (col row : Half) : Prop :=
  x.toNat ≤ col.toNat ∧ col.toNat < x.toNat + w ∧ y.toNat ≤ row.toNat ∧ row.toNat < y.toNat + h

/-- The places of a window are the cells of its rectangle. -/
theorem exists_place_iff (hw : 0 < w) (col row : Half) :
    (∃ k < w * h, col.toNat = x.toNat + k % w ∧ row.toNat = y.toNat + k / w) ↔
      inRect x y w h col row := by
  constructor
  · rintro ⟨k, hk, hc, hr⟩
    rw [inRect, hc, hr]
    exact ⟨Nat.le_add_right .., Nat.add_lt_add_left (Nat.mod_lt k hw) _, Nat.le_add_right ..,
      Nat.add_lt_add_left (Nat.div_lt_of_lt_mul hk) _⟩
  · rintro ⟨hx, hx', hy, hy'⟩
    have hi : col.toNat - x.toNat < w := by omega
    have hj : row.toNat - y.toNat + 1 ≤ h := by omega
    refine ⟨w * (row.toNat - y.toNat) + (col.toNat - x.toNat), ?_, ?_, ?_⟩
    · calc w * (row.toNat - y.toNat) + (col.toNat - x.toNat)
          < w * (row.toNat - y.toNat + 1) := by rw [Nat.mul_succ]; omega
        _ ≤ w * h := Nat.mul_le_mul_left w hj
    · rw [Nat.mul_add_mod, Nat.mod_eq_of_lt hi]
      omega
    · rw [Nat.mul_add_div hw, Nat.div_eq_of_lt hi]
      omega

/-- A window filled with a colour paints its rectangle and leaves the sink ready (R195). -/
theorem window_painted (ho : c.opcodes.wf = true) (win : Window c x y w h) (hp : p.Ready c) (v : Half)
    {t : Transaction} (ht : t = { x0 := x, y0 := y, x1 := u16 (farCorner x w), y1 := u16 (farCorner y h)
                                  pixels := List.replicate (w * h) v }) :
    (panelAfter c (t.events c) p).Ready c ∧
      Panel.Painted v (inRect x y w h) p (panelAfter c (t.events c) p) := by
  subst ht
  obtain ⟨hopen, hkept⟩ := panelAfter_window ho win hp
  obtain ⟨hwrite, hpaint⟩ := hopen.pixels ho win v (Nat.le_refl (w * h))
  rw [Transaction.events, panelAfter_append, panelAfter_append, panelAfter_append, panelAfter_csEvents,
    panelAfter_csEvents]
  have hrect := hpaint.congr (exists_place_iff win.width)
  exact ⟨hwrite.toReady, hrect.inside, fun hout => (hrect.outside hout).trans (hkept _ _)⟩

/-! ### A fill and its pixels (R195) -/

theorem pixel_painted (ho : c.opcodes.wf = true) {a b : Half}
    (win : Window c (offX c a) (offY c b) 1 1) (hp : p.Ready c) (v : Half) :
    (panelAfter c ((pixelTransaction c a b v).events c) p).Ready c ∧
      Panel.Painted v (fun col row => col = offX c a ∧ row = offY c b) p
        (panelAfter c ((pixelTransaction c a b v).events c) p) := by
  obtain ⟨hready, hpaint⟩ := window_painted ho win hp v (t := pixelTransaction c a b v)
    (by rw [u16_farCorner_one, u16_farCorner_one]; rfl)
  refine ⟨hready, hpaint.congr fun col row => ?_⟩
  simp only [inRect, ← BitVec.toNat_inj]
  omega

theorem toNat_add_u16 {a : Half} {n : Nat} (h : a.toNat + n < 65536) : (a + u16 n).toNat = a.toNat + n := by
  rw [BitVec.toNat_add, u16, BitVec.toNat_ofNat, Nat.add_mod_mod, Nat.mod_eq_of_lt h]

theorem toNat_offX_add {a : Half} {n : Nat} (h : (offX c a).toNat + n < 65536) :
    (offX c (a + u16 n)).toNat = (offX c a).toNat + n := by
  rw [← toNat_add_u16 h, offX, offX, add_right_comm]

theorem toNat_offY_add {a : Half} {n : Nat} (h : (offY c a).toNat + n < 65536) :
    (offY c (a + u16 n)).toNat = (offY c a).toNat + n := by
  rw [← toNat_add_u16 h, offY, offY, add_right_comm]

/-- The cell of a rectangle at a place counted from its corner. -/
def isPlace (x y : Half) (q : Nat × Nat) (col row : Half) : Prop :=
  col.toNat = x.toNat + q.1 ∧ row.toNat = y.toNat + q.2

/-- One `DRAW_PIXEL` inside a rectangle that the panel has. -/
theorem drawPixel_painted {s : State} {a b : Half} (v : Half) (hi : s.inited = true) (hl : s.env.isLive)
    (ho : s.cfg.opcodes.wf = true) (hp : s.panel.Ready s.cfg)
    (win : Window s.cfg (offX s.cfg a) (offY s.cfg b) w h) {q : Nat × Nat} (hq : q.1 < w ∧ q.2 < h) :
    ∃ t, exec (.drawPixel (a + u16 q.1) (b + u16 q.2) v) s = .next t ∧ t.seq = .idle ∧
      t.inited = true ∧ t.env = s.env ∧ t.cfg = s.cfg ∧ t.panel.Ready s.cfg ∧
      Panel.Painted v (isPlace (offX s.cfg a) (offY s.cfg b) q) s.panel t.panel := by
  have hcols := win.columns
  have hrows := win.rows
  have hx : (offX s.cfg (a + u16 q.1)).toNat = (offX s.cfg a).toNat + q.1 := toNat_offX_add (by omega)
  have hy : (offY s.cfg (b + u16 q.2)).toNat = (offY s.cfg b).toNat + q.2 := toNat_offY_add (by omega)
  obtain ⟨hready, hpaint⟩ := pixel_painted ho
    ⟨Nat.one_pos, Nat.one_pos, by omega, by omega⟩ hp v (a := a + u16 q.1) (b := b + u16 q.2)
  refine ⟨_, (drawPixelResult s _ _ v hi hl).2, rfl, hi, rfl, rfl, hready,
    hpaint.congr fun col row => ?_⟩
  rw [isPlace, ← hx, ← hy, BitVec.toNat_inj, BitVec.toNat_inj]

/-- `DRAW_PIXEL`s inside a rectangle that the panel has, in any order. -/
theorem drawPixels_painted {s : State} {a b : Half} (v : Half) {pts : List (Nat × Nat)}
    (hi : s.inited = true) (hl : s.env.isLive) (ho : s.cfg.opcodes.wf = true) (hp : s.panel.Ready s.cfg)
    (win : Window s.cfg (offX s.cfg a) (offY s.cfg b) w h) (hpts : ∀ q ∈ pts, q.1 < w ∧ q.2 < h) :
    ∃ u, execAll (pts.map fun q => .drawPixel (a + u16 q.1) (b + u16 q.2) v) s = some u ∧
      Panel.Painted v (fun col row => ∃ q ∈ pts, isPlace (offX s.cfg a) (offY s.cfg b) q col row)
        s.panel u.panel := by
  induction pts generalizing s with
  | nil => exact ⟨s, rfl, .none (fun _ _ ⟨_, hq, _⟩ => nomatch hq) fun _ _ => rfl⟩
  | cons q rest ih =>
    obtain ⟨hq, hrest⟩ := List.forall_mem_cons.mp hpts
    obtain ⟨t, ht, hidle, hi', henv, hcfg, hp', hpaint⟩ := drawPixel_painted v hi hl ho hp win hq
    obtain ⟨u, hu, hpaint'⟩ := ih hi' (henv ▸ hl) (hcfg ▸ ho) (hcfg ▸ hp') (hcfg ▸ win) hrest
    rw [hcfg] at hpaint'
    refine ⟨u, ?_, hpaint.trans hpaint' fun col row => List.exists_mem_cons_iff ..⟩
    simp only [List.map_cons, execAll, ht, hidle, if_true]
    exact hu

theorem mem_grid {w h : Nat} {q : Nat × Nat} : q ∈ grid w h ↔ q.1 < w ∧ q.2 < h := by
  obtain ⟨i, j⟩ := q
  simp [grid]

/-- The places of the grid are the cells of the rectangle. -/
theorem exists_mem_grid_iff (x y : Half) (w h : Nat) (col row : Half) :
    (∃ q ∈ grid w h, isPlace x y q col row) ↔ inRect x y w h col row := by
  constructor
  · rintro ⟨q, hq, hc, hr⟩
    obtain ⟨hi, hj⟩ := mem_grid.mp hq
    refine ⟨?_, ?_, ?_, ?_⟩ <;> omega
  · rintro ⟨hx, hx', hy, hy'⟩
    exact ⟨(col.toNat - x.toNat, row.toNat - y.toNat), mem_grid.mpr ⟨by omega, by omega⟩,
      (Nat.add_sub_cancel' hx).symm, (Nat.add_sub_cancel' hy).symm⟩

theorem Config.width_of_wf {c : Config} (h : c.wf = true) : c.width ≤ 32767 := by
  simp only [Config.wf, Bool.and_eq_true, decide_eq_true_eq] at h
  tauto

/-- Settles O56: both paint the rectangle, the fill by its window and the pixels cell by cell. -/
theorem fillEqualsPixels : Obligations.FillEqualsPixels := by
  intro s x y w h c pts hi hl hwf hstatus hcolmod hw0 hh0 hfit hcols hrows hperm
  have ho := (Config.tables_of_wf hwf).2.2
  have hp : s.panel.Ready s.cfg := ⟨hstatus, hcolmod⟩
  have win : Window s.cfg (offX s.cfg x) (offY s.cfg y) w.toNat h.toNat :=
    ⟨toNat_pos_of_ne hw0, toNat_pos_of_ne hh0, hcols, hrows⟩
  obtain ⟨_, _, hfill⟩ := fillRectResult s x y w h c hi hl (Config.width_of_wf hwf) hw0 hh0 hfit
    (by omega) (by omega)
  obtain ⟨u, hu, hpixels⟩ := drawPixels_painted c hi hl ho hp win
    fun q hq => mem_grid.mp (hperm.mem_iff.mp hq)
  obtain ⟨_, hrect⟩ := window_painted ho win hp c (t := fillTransaction s.cfg x y w h c) rfl
  simp only [hperm.mem_iff] at hpixels
  have hpixels := hpixels.congr (exists_mem_grid_iff _ _ _ _)
  refine ⟨_, u, hfill, hu, fun col row => ⟨?_, hpixels.cell_eq hrect col row⟩⟩
  split
  · exact hrect.inside ‹_›
  · exact hrect.outside ‹_›

end Sys2Proof.Machine
end

section
/-! PROOFS. The decimal text of a number and its padding (43_text_engine.md R230, R231, 30_encoding.md
R124). -/

namespace Sys2Proof.Machine

/-! ### The digits -/

/-- The decimal digits of a magnitude, as character codes. -/
def digitBytes (m : Nat) : List Byte := (Nat.toDigits 10 m).map digitByte

/-- The text is the digits, after a minus where the number is negative (R230). -/
theorem numberText_eq (n : Addr) :
    numberText n = (if n.toInt < 0 then [0x2D] else []) ++ digitBytes (magnitude n) := by
  unfold numberText negative
  simp only [decide_eq_true_eq]
  rfl

theorem mem_toDigits_range {m : Nat} {d : Char} (h : d ∈ Nat.toDigits 10 m) :
    48 ≤ d.toNat ∧ d.toNat ≤ 57 :=
  Char.isDigit_iff_toNat.mp (Nat.isDigit_of_mem_toDigits (by decide) le_rfl h)

theorem digitByte_toNat {m : Nat} {d : Char} (h : d ∈ Nat.toDigits 10 m) :
    (digitByte d).toNat = d.toNat := by
  have hd := mem_toDigits_range h
  rw [digitByte, BitVec.toNat_ofNat]
  exact Nat.mod_eq_of_lt (by omega)

theorem digitBytes_range {m : Nat} {ch : Byte} (h : ch ∈ digitBytes m) :
    0x30 ≤ ch.toNat ∧ ch.toNat ≤ 0x39 := by
  obtain ⟨d, hd, rfl⟩ := List.mem_map.mp h
  rw [digitByte_toNat hd]
  exact mem_toDigits_range hd

theorem minus_not_mem_digitBytes (m : Nat) : (0x2D : Byte) ∉ digitBytes m := fun h =>
  absurd (digitBytes_range h) (by decide)

theorem digitBytes_ne_nil (m : Nat) : digitBytes m ≠ [] := by
  simp [digitBytes, Nat.toDigits_ne_nil]

/-- The digits read as the magnitude. -/
theorem digitBytes_value (m : Nat) :
    (digitBytes m).foldl (fun v ch => 10 * v + (ch.toNat - 0x30)) 0 = m := by
  calc (digitBytes m).foldl (fun v ch => 10 * v + (ch.toNat - 0x30)) 0
      = (Nat.toDigits 10 m).foldl (fun v d => 10 * v + (d.toNat - '0'.toNat)) 0 := by
        rw [digitBytes, List.foldl_map]
        exact List.foldl_ext _ _ _ fun v d hd => by rw [digitByte_toNat hd]; rfl
    _ = Nat.ofDigitChars 10 (Nat.toDigits 10 m) 0 := Nat.ofDigitChars_eq_foldl.symm
    _ = m := Nat.ofDigitChars_ten_toDigits

/-- No positive number begins with a zero. -/
theorem toDigits_head_ne_zero {m : Nat} (h : m ≠ 0) : (Nat.toDigits 10 m).head? ≠ some '0' := by
  induction m using Nat.strongRecOn with
  | ind m ih =>
    rcases Nat.lt_or_ge m 10 with hlt | hge
    · rw [Nat.toDigits_of_lt_base hlt]
      simpa using h
    · rw [Nat.toDigits_of_base_le (by decide) hge, List.head?_append_of_ne_nil _ Nat.toDigits_ne_nil]
      exact ih (m / 10) (by omega) (by omega)

theorem digitBytes_head_ne_zero {m : Nat} (h : m ≠ 0) : (digitBytes m).head? ≠ some 0x30 := by
  rw [digitBytes, List.head?_map]
  intro hz
  obtain ⟨d, hd, hz⟩ := Option.map_eq_some_iff.mp hz
  have h48 : d.toNat = '0'.toNat := by
    rw [← digitByte_toNat (List.mem_of_mem_head? hd), hz]
    rfl
  exact toDigits_head_ne_zero h (Char.toNat_inj.mp h48 ▸ hd)

/-! ### The text -/

theorem numberText_length (n : Addr) : 1 ≤ (numberText n).length ∧ (numberText n).length ≤ 11 := by
  refine ⟨?_, ?_⟩
  · have := List.length_pos_of_ne_nil (digitBytes_ne_nil (magnitude n))
    rw [numberText_eq, List.length_append]
    omega
  · have := (formatNumber_spec n []).1
    omega

theorem numberText_ne_nil (n : Addr) : numberText n ≠ [] :=
  List.ne_nil_of_length_pos (numberText_length n).1

theorem numberText_head_minus (n : Addr) : (numberText n).head? = some 0x2D ↔ n.toInt < 0 := by
  rw [numberText_eq]
  by_cases hn : n.toInt < 0
  · simp [hn]
  · simpa [hn] using fun h => minus_not_mem_digitBytes _ (List.mem_of_mem_head? h)

/-- Every character is a digit but the minus of a negative number. -/
theorem numberText_digit_or_minus {n : Addr} {k : Nat} {ch : Byte} (h : (numberText n)[k]? = some ch) :
    (0x30 ≤ ch.toNat ∧ ch.toNat ≤ 0x39) ∨ (k = 0 ∧ ch = 0x2D ∧ n.toInt < 0) := by
  rw [numberText_eq] at h
  by_cases hn : n.toInt < 0
  · rw [if_pos hn] at h
    cases k with
    | zero => exact .inr ⟨rfl, (Option.some.inj h).symm, hn⟩
    | succ k => exact .inl (digitBytes_range (List.mem_of_getElem? h))
  · rw [if_neg hn] at h
    exact .inl (digitBytes_range (List.mem_of_getElem? h))

/-- Without its minus the text is the digits. -/
theorem numberText_filter_minus (n : Addr) :
    (numberText n).filter (fun ch => ch != 0x2D) = digitBytes (magnitude n) := by
  have hdigits : (digitBytes (magnitude n)).filter (fun ch => ch != 0x2D) = digitBytes (magnitude n) :=
    List.filter_eq_self.mpr fun ch hch => bne_iff_ne.mpr fun e => minus_not_mem_digitBytes _ (e ▸ hch)
  rw [numberText_eq, List.filter_append, hdigits]
  split <;> rfl

theorem magnitude_ne_zero {n : Addr} (h : n ≠ 0) : magnitude n ≠ 0 := fun hm =>
  h (BitVec.eq_of_toInt_eq (Int.natAbs_eq_zero.mp hm))

/-! ### The padding -/

theorem numberChars_length (n : Addr) (width : Half) :
    (numberChars n width).length = max (numberText n).length ((width.toNat + 5) / 6) := by
  rw [numberChars, List.length_append, List.length_replicate, Nat.sub_add_eq_max, max_comm]
  rfl

theorem numberChars_padding {n : Addr} {width : Half} {k : Nat} {ch : Byte}
    (hk : k + (numberText n).length < (numberChars n width).length)
    (h : (numberChars n width)[k]? = some ch) : ch = 0x20 := by
  rw [numberChars, List.length_append, Nat.add_lt_add_iff_right] at hk
  rw [numberChars, List.getElem?_append_left hk] at h
  exact List.eq_of_mem_replicate (List.mem_of_getElem? h)

/-- Settles O29: the digits of the magnitude, their minus, and the spaces before them. -/
theorem numberTextIsTheNumber : Obligations.NumberTextIsTheNumber := by
  intro n width
  have hlen := numberChars_length n width
  refine ⟨(numberText_length n).1, (numberText_length n).2, numberText_head_minus n,
    fun _ _ => numberText_digit_or_minus, fun hn => ?_, ?_, hlen, by omega,
    fun _ _ => numberChars_padding, List.suffix_append _ _⟩
  · rw [numberText_filter_minus]
    exact digitBytes_head_ne_zero (magnitude_ne_zero hn)
  · rw [numberText_filter_minus]
    exact digitBytes_value (magnitude n)

end Sys2Proof.Machine
end

section
/-! PROOFS. The Text Engine where the environment answers, and its faults: the whole state each
operation leaves (43_text_engine.md R220 to R231, 60_exceptions.md R256, R258). -/

namespace Sys2Proof.Machine

/-- Settles O25: a setter is one write, and no routine of the Transport. -/
theorem setterResults : Obligations.SetterResults := fun _ x y c hi =>
  ⟨exec_of_done hi (.setCursor x y) rfl, exec_of_done hi (.setColor c) rfl,
    exec_of_done hi (.setBgColor c) rfl⟩

/-! ### The faults of a glyph (R224, R258) -/

theorem glyph_unlisted {s : State} {ch : Byte} (h : s.cfg.glyphCount ≤ ch.toNat) :
    glyph ch s = .raised .glyphIndex s := if_pos h

theorem glyph_beyond {s : State} {ch : Byte} (h : ch.toNat < s.cfg.glyphCount)
    (hb : beyond s.curX glyphW = true ∨ beyond s.curY glyphH = true) :
    glyph ch s = .raised .windowRange s := (if_neg (Nat.not_le.mpr h)).trans (if_pos hb)

/-- Settles O30: the code is checked first, then the window, and both before anything else. -/
theorem glyphFaults : Obligations.GlyphFaults := by
  refine fun s ch hi => ⟨fun h => ?_, fun h hb => ?_⟩
  · exact exec_of_raised hi (.printChar ch) (glyph_unlisted h)
  · refine exec_of_raised hi (.printChar ch) (glyph_beyond h ?_)
    exact hb.imp (beyond_iff s.curX glyphW).mpr (beyond_iff s.curY glyphH).mpr

/-! ### A glyph, answered -/

/-- The state after the events of printed characters, with the GLYPHBUF and the column they leave. -/
def State.textSent (g : Memory) (x : Half) (evs : List Event) (s : State) : State :=
  { afterEvents evs s with
    seq := s.seq.plus evs.length, dcLine := .data, csLine := released s, txe := true, tc := true
    blkEn := false, blkSrc := .glyphBuf 0, blkLen := u16 glyphBufCap, glyphBuf := g, curX := x }

theorem Transacted.textSent {evs : List Event} {s t : State} (d : Transacted (.glyphBuf 0) glyphBufCap s t)
    (w : TextOnly s t) (e : Took evs s t) (v : t.env = s.env) :
    t = s.textSent t.glyphBuf t.curX evs := by
  have hstate := d.state (by rw [w.wire.rowBuf, w.wire.numBuf]; exact w.wire) e v
  rw [w.wire.rowBuf, w.wire.numBuf] at hstate
  exact hstate

theorem glyphPlan_of_fits {s : State} {x : Half} {ch : Byte} (hc : ch.toNat < s.cfg.glyphCount)
    (hx : beyond x glyphW = false) (hy : beyond s.curY glyphH = false) :
    glyphPlan s x ch = Plan.transaction s.cfg (glyphTransaction s x ch) :=
  (if_neg (Nat.not_le.mpr hc)).trans (if_neg (by simp [hx, hy]))

/-- A glyph that the table has and whose window fits is its transaction. -/
theorem glyph_live {s : State} {ch : Byte} (hl : s.env.isLive) (hc : ch.toNat < s.cfg.glyphCount)
    (hx : beyond s.curX glyphW = false) (hy : beyond s.curY glyphH = false) :
    ∃ g : Memory, (∀ a, g.read a = glyphBufByte s ch a) ∧
      glyph ch s = .done (s.textSent g s.curX ((glyphTransaction s s.curX ch).events s.cfg)) := by
  have hf := glyph_follows ch s
  rw [glyphPlan_of_fits hc hx hy] at hf
  obtain ⟨t, hd, ht, henv⟩ := hf.live_done hl rfl
  obtain ⟨htr, hg⟩ := glyph_done hd
  obtain ⟨hto, hcur⟩ := (glyph_textOnly ch s).of_done hd
  rw [← hcur]
  exact ⟨t.glyphBuf, hg, hd.trans (congrArg Run.done (htr.textSent hto (hcur ▸ ht) henv))⟩

/-- Settles O26: the checks passed, PRINT_CHAR is the glyph's transaction. -/
theorem printCharResult : Obligations.PrintCharResult := by
  intro s ch hi hl hc hx hy
  obtain ⟨g, hg, hd⟩ := glyph_live (s := { s with seq := .busy 0 }) hl hc
    (not_beyond (n := glyphW) hx) (not_beyond (n := glyphH) hy)
  exact ⟨g, hg, exec_of_done hi (.printChar ch) hd⟩

/-! ### Printed characters -/

/-- The characters of a list printed one after another (R225): what PRINT does with its string and
PRINT_NUMBER with its padded text. -/
def printChars : List Byte → State → Run
  | [], s => .done s
  | ch :: rest, s => (printOne ch s).andThen (printChars rest)

theorem Run.andThen_congr {r : Run} {f g : State → Run} (h : ∀ t, r = .done t → f t = g t) :
    r.andThen f = r.andThen g := by
  cases r with
  | done t => exact h t rfl
  | stuck t => rfl
  | raised k t => rfl

theorem Run.andThen_done_right (r : Run) : r.andThen Run.done = r := by cases r <;> rfl

theorem printChars_singleton (ch : Byte) : printChars [ch] = printOne ch :=
  funext fun _ => Run.andThen_done_right _

theorem printChars_append (a b : List Byte) (s : State) :
    printChars (a ++ b) s = (printChars a s).andThen (printChars b) := by
  induction a generalizing s with
  | nil => rfl
  | cons ch rest ih =>
    rw [List.cons_append, printChars, printChars, Run.andThen_assoc]
    exact Run.andThen_congr fun t _ => ih t

/-- A character sequence is a list of characters, where printing does not change what it reads. -/
theorem printSeq_eq_printChars {ch : State → Nat → Byte} {c : Nat → Byte} (n : Nat) (s : State)
    (h : ∀ t i, TextOnly s t → i < n → ch t i = c i) :
    printSeq ch n s = printChars ((List.range n).map c) s := by
  induction n with
  | zero => rfl
  | succ n ih =>
    rw [List.range_succ, List.map_append, List.map_singleton, printChars_append, printChars_singleton,
      ← ih fun t i ht hi => h t i ht (Nat.lt_succ_of_lt hi), printSeq]
    refine Run.andThen_congr fun t ht => ?_
    rw [h t n ((printSeq_textOnly ch n s).of_done ht) n.lt_succ_self]

theorem map_getD_range (chars : List Byte) :
    (List.range chars.length).map (fun i => chars.getD i 0) = chars :=
  List.ext_getElem (by simp) fun _ _ h => by simp [h]

/-- The same characters by their positions in the list. -/
theorem printChars_eq_printSeq (chars : List Byte) (s : State) :
    printChars chars s = printSeq (fun _ i => chars.getD i 0) chars.length s := by
  rw [printSeq_eq_printChars (c := fun i => chars.getD i 0) _ s fun _ _ _ _ => rfl, map_getD_range]

theorem printChars_textOnly (chars : List Byte) (s : State) :
    (printChars chars s).Leaves (TextOnly s) := by
  rw [printChars_eq_printSeq]
  exact printSeq_textOnly _ _ s

theorem printChars_follows (chars : List Byte) (s : State) :
    Follows (textPlan s s.curX chars) s (printChars chars s) := by
  have hf := printSeq_follows (ch := fun _ i => chars.getD i 0) (c := fun i => chars.getD i 0)
    chars.length s fun _ _ _ _ => rfl
  rwa [map_getD_range, ← printChars_eq_printSeq] at hf

theorem printString_eq_printChars (len : Half) (addr : Addr) (s : State) :
    printString len addr s = printChars (stringChars s.host addr len.toNat) s :=
  printSeq_eq_printChars len.toNat s fun t i ht _ => by rw [ht.wire.host]

theorem printSpaces_eq_printChars (n : Nat) (s : State) :
    printSeq (fun _ _ => 0x20) n s = printChars (List.replicate n 0x20) s := by
  rw [printSeq_eq_printChars (c := fun _ => 0x20) n s fun _ _ _ _ => rfl, List.map_const',
    List.length_range]

/-- What is read from NUMBUF is the text it held at the start, since printing does not write there. -/
theorem printText_eq_printChars (pos : Nat) (s : State) :
    printSeq (fun s i => s.numBuf.read (pos + i)) (11 - pos) s = printChars (textAt s.numBuf pos) s :=
  printSeq_eq_printChars (11 - pos) s fun t i ht _ => by rw [ht.wire.numBuf]

/-- The state in which a number is printed: its text is in NUMBUF (R230). -/
def State.formatted (n : Addr) (s : State) : State := { s with numBuf := (formatNumber n s.numBuf).2 }

theorem printNumber_eq_printChars (n : Addr) (width : Half) (s : State) :
    printNumber n width s = printChars (numberChars n width) (s.formatted n) := by
  obtain ⟨hpos, htext, _, _⟩ := formatNumber_spec n s.numBuf
  have hlen : 11 - (formatNumber n s.numBuf).1 = (numberText n).length := by omega
  have hrun : printNumber n width s =
      (printSeq (fun _ _ => 0x20) (cellsOf width - (11 - (formatNumber n s.numBuf).1))
        (s.formatted n)).andThen
      (printSeq (fun s' i => s'.numBuf.read ((formatNumber n s.numBuf).1 + i))
        (11 - (formatNumber n s.numBuf).1)) := rfl
  rw [hrun, printSpaces_eq_printChars, numberChars, printChars_append, hlen]
  refine Run.andThen_congr fun t hd => ?_
  have ht : t.numBuf = (formatNumber n s.numBuf).2 := ((printChars_textOnly _ _).of_done hd).wire.numBuf
  rw [← hlen, printText_eq_printChars, ht, htext]

/-- The text of a number is read back from NUMBUF (R230). -/
theorem read_formatted {n : Addr} {i : Nat} {ch : Byte} (h : (numberText n)[i]? = some ch) (b : Memory) :
    (formatNumber n b).2.read (11 - (numberText n).length + i) = ch := by
  obtain ⟨hpos, htext, _, _⟩ := formatNumber_spec n b
  rw [← htext, textAt, List.getElem?_map, Option.map_eq_some_iff] at h
  obtain ⟨k, hk, rfl⟩ := h
  obtain ⟨_, rfl⟩ := List.getElem?_eq_some_iff.mp hk
  rw [List.getElem_range]
  congr 1
  omega

/-! ### Printed characters, answered -/

/-- The events of characters printed from the cursor on (R225). -/
def textEvents (s : State) (chars : List Byte) : List Event :=
  (glyphTransactions s chars).flatMap fun t => t.events s.cfg

/-- `t` is `s` after printed characters, in an environment that answers. -/
structure Printed (chars : List Byte) (s t : State) : Prop where
  text : TextOnly s t
  took : Took (textEvents s chars) s t
  env : t.env = s.env
  curX : t.curX = s.curX + u16 (cellW * chars.length)

/-- Printable characters are printed, and that is the whole of it. -/
theorem printChars_printed {chars : List Byte} {s : State} (hl : s.env.isLive)
    (h : ∀ i ch, chars[i]? = some ch → s.printable i ch) :
    ∃ t, printChars chars s = .done t ∧ Printed chars s t := by
  have hf := printChars_follows chars s
  rw [textPlan_printable s chars s.curX h] at hf
  obtain ⟨t, hd, ht, henv⟩ := hf.live_done hl rfl
  exact ⟨t, hd, (printChars_textOnly chars s).of_done hd, ht, henv,
    printSeq_done ((printChars_eq_printSeq chars s).symm.trans hd)⟩

/-- What one or more printed characters leave of the lines, the flags and GLYPHBUF. -/
theorem printChars_last {chars : List Byte} {c : Byte} {s t : State} (hc : chars.getLast? = some c)
    (h : printChars chars s = .done t) :
    Transacted (.glyphBuf 0) glyphBufCap s t ∧ ∀ a, t.glyphBuf.read a = glyphBufByte s c a := by
  obtain ⟨l, rfl⟩ := List.getLast?_eq_some_iff.mp hc
  rw [printChars_eq_printSeq, List.length_append] at h
  exact printSeq_last h fun _ _ => by simp

/-- One or more printable characters, printed: the whole state they leave. -/
theorem printChars_live {chars : List Byte} {c : Byte} {s : State} (hc : chars.getLast? = some c)
    (hl : s.env.isLive) (h : ∀ i ch, chars[i]? = some ch → s.printable i ch) :
    ∃ g : Memory, (∀ a, g.read a = glyphBufByte s c a) ∧
      printChars chars s =
        .done (s.textSent g (s.curX + u16 (cellW * chars.length)) (textEvents s chars)) := by
  obtain ⟨t, hd, hp⟩ := printChars_printed hl h
  obtain ⟨htr, hg⟩ := printChars_last hc hd
  rw [← hp.curX]
  exact ⟨t.glyphBuf, hg, hd.trans (congrArg Run.done (htr.textSent hp.text hp.took hp.env))⟩

theorem add_u16 (x : Half) (n : Nat) : x + u16 n = BitVec.ofNat 16 (x.toNat + n) := by
  rw [← u16_toNat x, ← u16_add, u16_toNat]
  rfl

theorem getElem?_stringChars {m : Memory} {addr : Addr} {len i : Nat} {ch : Byte} :
    (stringChars m addr len)[i]? = some ch ↔ i < len ∧ m.read (hostAddr addr i) = ch := by
  simp [stringChars, List.getElem?_eq_some_iff]

theorem stringChars_length (m : Memory) (addr : Addr) (len : Nat) :
    (stringChars m addr len).length = len := by simp [stringChars]

/-- Settles O27: the empty string prints nothing; any other is its characters, the last of which leaves
GLYPHBUF. -/
theorem printResult : Obligations.PrintResult := by
  refine fun s len addr hi => ⟨(exec_of_done hi (.print 0 addr) rfl).trans rfl, fun hl hlen h => ?_⟩
  have hpos := toNat_pos_of_ne hlen
  have hlast : (stringChars s.host addr len.toNat).getLast?
      = some (s.host.read (hostAddr addr (len.toNat - 1))) := by
    rw [List.getLast?_eq_getElem?, stringChars_length, getElem?_stringChars]
    exact ⟨by omega, rfl⟩
  obtain ⟨g, hg, hd⟩ := printChars_live (s := { s with seq := .busy 0 }) hlast hl fun i ch hch => by
    obtain ⟨hi, rfl⟩ := getElem?_stringChars.mp hch
    exact h i hi
  rw [add_u16, stringChars_length] at hd
  exact ⟨g, hg, exec_of_done hi (.print len addr) ((printString_eq_printChars ..).trans hd)⟩

/-- Settles O28: the number formatted, it is its characters. -/
theorem printNumberResult : Obligations.PrintNumberResult := by
  intro s n width hi hl h
  obtain ⟨hpos, _, hend, hkeep⟩ := formatNumber_spec n s.numBuf
  obtain ⟨c, hc⟩ := Option.ne_none_iff_exists'.mp
    (mt List.getLast?_eq_none_iff.mp (numberText_ne_nil n))
  have hlast : (numberChars n width).getLast? = some c :=
    (List.getLast?_append_of_ne_nil _ (numberText_ne_nil n)).trans hc
  obtain ⟨g, hg, hd⟩ := printChars_live (s := State.formatted n { s with seq := .busy 0 }) hlast hl h
  rw [add_u16] at hd
  refine ⟨g, (formatNumber n s.numBuf).2, fun a ch hch => ?_, fun i ch hch => read_formatted hch _, hend,
    fun a ha => hkeep a (by omega),
    exec_of_done hi (.printNumber n width) ((printNumber_eq_printChars ..).trans hd)⟩
  obtain rfl := Option.some.inj (hc.symm.trans hch)
  exact hg a

/-! ### The first character that cannot be printed -/

/-- The fault of a character that cannot be printed: its code is checked before its window (R258). -/
def glyphFault (s : State) (ch : Byte) : FaultKind :=
  if s.cfg.glyphCount ≤ ch.toNat then .glyphIndex else .windowRange

theorem fault_of_glyphFault (s : State) (ch op : Byte) (t : State) :
    Fault.of (glyphFault s ch) op t =
      if s.cfg.glyphCount ≤ ch.toNat then .glyphIndex op t else .windowRange op t :=
  apply_ite (Fault.of · op t) ..

/-- The faulting character adds nothing to the characters printed before it. -/
theorem glyph_unprintable {chars : List Byte} {ch : Byte} {s t : State} (hp : Printed chars s t)
    (h : ¬ s.printable chars.length ch) : glyph ch t = .raised (glyphFault s ch) t := by
  have hcfg : t.cfg = s.cfg := hp.text.wire.cfg
  by_cases hc : s.cfg.glyphCount ≤ ch.toNat
  · rw [glyphFault, if_pos hc]
    exact glyph_unlisted (by rwa [hcfg])
  · rw [glyphFault, if_neg hc]
    refine glyph_beyond (by rw [hcfg]; omega) ?_
    rw [hp.curX, hp.text.wire.curY]
    by_contra hb
    simp only [not_or, Bool.not_eq_true] at hb
    exact h ⟨Nat.not_le.mp hc, hb⟩

/-- A list of characters faults at its first that cannot be printed, after the ones before it. -/
theorem printChars_raised {chars : List Byte} {j : Nat} {ch : Byte} {s : State} (hl : s.env.isLive)
    (hbefore : ∀ i < j, ∀ c, chars[i]? = some c → s.printable i c) (hj : chars[j]? = some ch)
    (hch : ¬ s.printable j ch) :
    ∃ t, printChars chars s = .raised (glyphFault s ch) t ∧ Printed (chars.take j) s t := by
  obtain ⟨hlt, rfl⟩ := List.getElem?_eq_some_iff.mp hj
  have hlen : (chars.take j).length = j := List.length_take_of_le hlt.le
  obtain ⟨t, hd, hp⟩ := printChars_printed (chars := chars.take j) hl fun i c hc => by
    obtain ⟨hi, _⟩ := List.getElem?_eq_some_iff.mp hc
    rw [hlen] at hi
    exact hbefore i hi c (by rwa [List.getElem?_take_of_lt hi] at hc)
  have hg := glyph_unprintable hp (by rwa [hlen])
  refine ⟨t, ?_, hp⟩
  calc printChars chars s
      = printChars (chars.take j ++ chars[j] :: chars.drop (j + 1)) s := by
        rw [List.getElem_cons_drop, List.take_append_drop]
    _ = .raised (glyphFault s chars[j]) t := by
        rw [printChars_append, hd, Run.andThen_done, printChars, printOne, hg]
        rfl

/-- The cursor's column and the sequencer after a fault. -/
theorem Printed.stopped {chars : List Byte} {s t : State} {n : Nat} (h : Printed chars s t)
    (hn : chars.length = n) (hq : s.seq = .busy 0) :
    t.curX = BitVec.ofNat 16 (s.curX.toNat + 6 * n) ∧ t.curY = s.curY ∧ t.seq ≠ .idle := by
  refine ⟨?_, h.text.wire.curY, ?_⟩
  · rw [h.curX, add_u16, hn]
  · rw [h.took.seq, hq]
    nofun

/-- Settles O31: the string's characters, and the padded text's once it is formatted, fault at the first
that cannot be printed. -/
theorem printFaultsAtItsCharacter : Obligations.PrintFaultsAtItsCharacter := by
  refine ⟨fun s len addr j hi hl hj hbefore hch => ?_, fun s n width j ch hi hl hbefore hj hch => ?_⟩
  · have htake : (stringChars s.host addr len.toNat).take j = stringChars s.host addr j := by
      rw [stringChars, ← List.map_take, List.take_range, min_eq_left hj.le]
      rfl
    obtain ⟨t, hd, hp⟩ := printChars_raised (s := { s with seq := .busy 0 })
      (chars := stringChars s.host addr len.toNat) hl
      (fun i hij c hc => (getElem?_stringChars.mp hc).2 ▸ hbefore i hij)
      (getElem?_stringChars.mpr ⟨hj, rfl⟩) hch
    rw [htake] at hp
    exact ⟨_, (exec_of_raised hi (.print len addr) ((printString_eq_printChars ..).trans hd)).trans
      (congrArg _ (fault_of_glyphFault ..)), hp.took.trace, hp.stopped (stringChars_length ..) rfl⟩
  · obtain ⟨hlt, _⟩ := List.getElem?_eq_some_iff.mp hj
    obtain ⟨t, hd, hp⟩ := printChars_raised (s := State.formatted n { s with seq := .busy 0 }) hl
      hbefore hj hch
    refine ⟨_, (exec_of_raised hi (.printNumber n width)
      ((printNumber_eq_printChars ..).trans hd)).trans (congrArg _ (fault_of_glyphFault ..)),
      hp.took.trace, fun i c hc => ?_, hp.stopped (List.length_take_of_le hlt.le) rfl⟩
    exact hp.text.wire.numBuf ▸ read_formatted hc s.numBuf

end Sys2Proof.Machine
end

section
/-! PROOFS. Faults and hangs: a fault ends the run, an operation raises only the faults of its row, and an
operation that does not end keeps the machine where it is (60_exceptions.md R255, R256). -/

namespace Sys2Proof.Machine

/-! ### A fault ends the run -/

/-- A state that its own step settles to itself is where every run from it stays. -/
theorem advance_of_settled {s : State} (h : settle s (step s) = s) (n : Nat) : advance n s = s := by
  induction n with
  | zero => rfl
  | succ n ih => rwa [advance, h]

/-- Settles O9: the fault a step answers again leaves the state as it is, so every number of steps does. -/
theorem faultEndsTheRun : Obligations.FaultEndsTheRun := by
  intro s f n hf
  refine ⟨step_of_fault hf, advance_of_settled ?_ n⟩
  rw [step_of_fault hf]
  exact Fault.left_of f.kind f.op s

/-! ### An instruction, by how its micro-sequence ends -/

/-- What an instruction answers: the refusal of its gate, or what the end of its micro-sequence makes of
the state (R40, R255, R256, R257). -/
theorem exec_cases (i : Instr) (s : State) :
    (gated i s ∧ exec i s = .refused .notInitialised) ∨
    (∃ t, bodyOf i { s with seq := .busy 0 } = .done t ∧ exec i s = .next { t with seq := .idle }) ∨
    (∃ t, bodyOf i { s with seq := .busy 0 } = .stuck t ∧ exec i s = .next t) ∨
    (∃ k t, bodyOf i { s with seq := .busy 0 } = .raised k t ∧
      exec i s = .fault (Fault.of k (i.opByte s.cfg)
        { t with fault := some { kind := k, op := i.opByte s.cfg } })) := by
  by_cases hg : gated i s
  · exact .inl ⟨hg, exec_gated hg⟩
  rw [exec_open hg]
  cases hr : bodyOf i { s with seq := .busy 0 } with
  | done t => exact .inr (.inl ⟨t, rfl, runOperation_done hr⟩)
  | stuck t => exact .inr (.inr (.inl ⟨t, rfl, runOperation_stuck hr⟩))
  | raised k t => exact .inr (.inr (.inr ⟨k, t, rfl, runOperation_raised hr⟩))

/-- The fault an instruction answers carries its `OP` and is recorded in the state it leaves (R256). -/
theorem exec_fault_recorded {i : Instr} {s : State} {f : Fault} (h : exec i s = .fault f) :
    f.record.op = i.opByte s.cfg ∧ f.left.fault = some f.record := by
  rcases exec_cases i s with ⟨_, he⟩ | ⟨_, _, he⟩ | ⟨_, _, he⟩ | ⟨k, t, _, he⟩
  · cases he.symm.trans h
  · cases he.symm.trans h
  · cases he.symm.trans h
  · cases he.symm.trans h
    rw [Fault.record_of, Fault.left_of]
    exact ⟨rfl, rfl⟩

/-! ### The faults of a plan -/

/-- The fault that ends a plan, where one does, is one the instruction can raise (R256, "raised by"). -/
def Plan.RaisesFor (i : Instr) (p : Plan) : Prop := ∀ k, p.fault = some k → k.raisedBy i = true

section Plans

variable {i : Instr}

theorem Plan.RaisesFor.emits (evs : List Event) : (Plan.emits evs).RaisesFor i := nofun

theorem Plan.RaisesFor.nothing : Plan.nothing.RaisesFor i := nofun

theorem Plan.RaisesFor.fails {k : FaultKind} (h : k.raisedBy i = true) : (Plan.fails k).RaisesFor i := by
  rintro _ ⟨⟩
  exact h

theorem Plan.RaisesFor.ite {c : Prop} [Decidable c] {p q : Plan} (hp : p.RaisesFor i)
    (hq : q.RaisesFor i) : (if c then p else q).RaisesFor i := by
  split
  · exact hp
  · exact hq

theorem Plan.RaisesFor.andThen {p q : Plan} (hp : p.RaisesFor i) (hq : q.RaisesFor i) :
    (p.andThen q).RaisesFor i := by
  unfold Plan.andThen
  split
  · exact hp
  · exact hq

/-- A plan behind the checks for a zero size, the window and the length (R193, R258) raises what the two
that can fail do. -/
theorem Plan.RaisesFor.checked {zero window length : Prop} [Decidable zero] [Decidable window]
    [Decidable length] {k j : FaultKind} {evs : List Event} (hk : k.raisedBy i = true)
    (hj : j.raisedBy i = true) :
    (if zero then Plan.nothing else if window then Plan.fails k else if length then Plan.fails j
      else Plan.emits evs).RaisesFor i :=
  .ite .nothing (.ite (.fails hk) (.ite (.fails hj) (.emits _)))

variable (hw : FaultKind.windowRange.raisedBy i = true)

section Raster

variable (hr : FaultKind.rowBufOverflow.raisedBy i = true) (c : Config)
include hw hr

theorem hLinePlan_raisesFor (x y : Half) (len : Nat) (col : Half) :
    (hLinePlan c x y len col).RaisesFor i := .checked hw hr

theorem vLinePlan_raisesFor (x y : Half) (len : Nat) (col : Half) :
    (vLinePlan c x y len col).RaisesFor i := .checked hw hr

theorem rectPlan_raisesFor (x y w h col : Half) : (rectPlan c x y w h col).RaisesFor i :=
  have hLine := hLinePlan_raisesFor hw hr c
  have vLine := vLinePlan_raisesFor hw hr c
  .ite .nothing ((((hLine _ _ _ _).andThen (hLine _ _ _ _)).andThen (vLine _ _ _ _)).andThen
    (vLine _ _ _ _))

theorem linePlan_raisesFor (x0 y0 x1 y1 col : Half) : (linePlan c x0 y0 x1 y1 col).RaisesFor i :=
  .ite (vLinePlan_raisesFor hw hr c _ _ _ _) (.ite (hLinePlan_raisesFor hw hr c _ _ _ _) (.emits _))

end Raster

section Text

variable (hg : FaultKind.glyphIndex.raisedBy i = true) (s : State) (x : Half)
include hw hg

theorem glyphPlan_raisesFor (ch : Byte) : (glyphPlan s x ch).RaisesFor i :=
  .ite (.fails hg) (.ite (.fails hw) (.emits _))

theorem textPlan_raisesFor (chars : List Byte) : (textPlan s x chars).RaisesFor i := by
  induction chars generalizing x with
  | nil => exact .nothing
  | cons ch rest ih => exact (glyphPlan_raisesFor hw hg s x ch).andThen (ih _)

end Text

end Plans

/-- An instruction's plan faults only as the column "raised by" of R256 lists it. -/
theorem plan_raisesFor (i : Instr) (s : State) : (plan i s).RaisesFor i := by
  cases i with
  | setCursor | setColor | setBgColor => exact .nothing
  | printChar ch => exact glyphPlan_raisesFor rfl rfl s _ ch
  | print len addr => exact textPlan_raisesFor rfl rfl s _ _
  | printNumber n width => exact textPlan_raisesFor rfl rfl s _ _
  | drawLine x0 y0 x1 y1 c => exact linePlan_raisesFor rfl rfl _ x0 y0 x1 y1 c
  | drawRect x y w h c => exact rectPlan_raisesFor rfl rfl _ x y w h c
  | fillRect x y w h c => exact .checked rfl rfl
  | drawBitmap x y w h p => exact .checked rfl rfl
  | _ => exact .emits _

/-- Settles O10: the plan an instruction follows decides the kind of its fault, the events that stay and
their count; the record and its `OP` are the operation's. -/
theorem faultLeavesItsMark : Obligations.FaultLeavesItsMark := by
  intro i s f hw h
  have hplan := planDecidesTheTrace i s hw
  rw [h] at hplan
  obtain ⟨hkind, htrace, _, hseq⟩ := hplan
  obtain ⟨hop, hfault⟩ := exec_fault_recorded h
  exact ⟨plan_raisesFor i s _ hkind, hop, hfault, _, htrace, hseq⟩

/-! ### An operation that does not end -/

/-- No micro-sequence records a fault: the record is made when the operation raises one (R256). -/
theorem body_fault (i : Instr) (s : State) : (bodyOf i s).Leaves fun t => t.fault = s.fault := by
  rcases instr_kinds i with rfl | hi | hi | hi
  · exact (initSequence_only s).mono fun _ h => h.wire.fault
  · exact (body_rowOnly hi s).mono fun _ h => h.wire.fault
  · cases i with
    | setCursor | setColor | setBgColor => rfl
    | printChar ch => exact (glyph_textOnly ch s).mono fun _ ⟨h, _⟩ => h.wire.fault
    | print len addr => exact (printSeq_textOnly _ _ s).mono fun _ h => h.wire.fault
    | printNumber n width => exact (printNumber_only n width s).mono fun _ ⟨h, _⟩ => h.text.wire.fault
    | _ => cases hi
  · exact (body_wire_of_command hi s).mono fun _ h => h.fault

/-- A next state records no fault that was not there before. -/
theorem exec_next_fault {i : Instr} {s t : State} (h : exec i s = .next t) : t.fault = s.fault := by
  have hbody := body_fault i { s with seq := .busy 0 }
  rcases exec_cases i s with ⟨_, he⟩ | ⟨u, hr, he⟩ | ⟨_, hr, he⟩ | ⟨_, _, _, he⟩
  · cases he.symm.trans h
  · cases he.symm.trans h
    exact hbody.of_done (t := u) hr
  · cases he.symm.trans h
    rwa [hr] at hbody
  · cases he.symm.trans h

/-- Settles O52: the state of an operation that does not end is busy and records no fault, and a busy
machine stays as it is. -/
theorem stuckForEver : Obligations.StuckForEver := by
  intro i s t n hf h hq
  cases hseq : t.seq with
  | idle => exact absurd hseq hq
  | busy k => exact (busyAcceptsNothing t k n ((exec_next_fault h).trans hf) hseq).2

end Sys2Proof.Machine
end

section
/-! PROOFS. Power-on, the host's own memory, and the end of an operation where the environment answers
(70_reset_and_hazards.md R280, R284, R292, R296). -/

namespace Sys2Proof.Machine

/-! ### Power-on -/

/-- Settles O13: these are the values of power-on (R280), and reset is power-on with T0. -/
theorem powerOnIsIdle : Obligations.PowerOnIsIdle :=
  ⟨fun _ => ⟨rfl, rfl, rfl, rfl⟩, rfl⟩

theorem Cells.below_nil {α : Type} (n : Nat) : Cells.below n ([] : List (Nat × α)) = true := rfl

/-- Every memory is empty at power-on, the panel's too. -/
theorem State.buffersInv_powerOn (c : Config) : (State.powerOn c).buffersInv where
  rowBuf := ⟨Memory.wf_nil, Cells.below_nil _⟩
  glyphBuf := ⟨Memory.wf_nil, Cells.below_nil _⟩
  numBuf := ⟨Memory.wf_nil, Cells.below_nil _⟩
  host := ⟨Memory.wf_nil, Cells.below_nil _⟩
  gram := GramOk.spoiled

/-- The launch premise of R284 gives the flags; chip-select is claimed only after an INIT. -/
theorem State.idleInv_powerOn (c : Config) : (State.powerOn c).idleInv where
  txe _ := rfl
  blkEn _ := rfl
  csLine _ hinited _ := nomatch hinited

theorem State.Inv_powerOn {c : Config} (h : c.wf = true) : (State.powerOn c).Inv where
  cfg := h
  buffers := State.buffersInv_powerOn c
  idle := State.idleInv_powerOn c

/-- Settles O48: power-on has the invariant for every legal configuration, and T0 is one. -/
theorem resetInv : Obligations.ResetInv :=
  have t0_wf : Config.t0.wf = true := by decide
  ⟨State.Inv_powerOn t0_wf, fun _ => State.Inv_powerOn⟩

/-! ### HOST belongs to the host -/

theorem Memory.read_write (m : Memory) (a b : Nat) (v : Byte) :
    (m.write a v).read b = if b = a then v else m.read b := by
  split
  · next h => rw [h, Memory.read_write_same]
  · next h => exact Memory.read_write_other h m v

theorem exec_host (i : Instr) (s : State) : Outcome.onLeft (exec i s) fun t => t.host = s.host :=
  exec_onLeft ((body_kept i { s with seq := .busy 0 }).mono fun _ h => h.host) (fun _ _ h => h)
    fun _ _ h => h

/-- Settles O12: a poke is one write to HOST, and no micro-sequence writes there. -/
theorem hostOwnsItsMemory : Obligations.HostOwnsItsMemory :=
  ⟨fun s a v _ hf hq hp hi =>
    ⟨s.host.write a.toNat v, step_of_poke hf hq hp hi, fun b => Memory.read_write s.host a.toNat b v⟩,
   exec_host⟩

/-! ### An operation ends where the environment answers -/

/-- An accepted instruction whose plan has no fault is done after its plan's events: its micro-sequence
follows the plan, and no wait is left unanswered. -/
theorem exec_live_done {i : Instr} {s : State} (hg : ¬ gated i s) (hl : s.env.isLive)
    (hw : s.cfg.width ≤ 32767) (hp : (plan i s).fault = none) :
    ∃ t, exec i s = .next t ∧ t.seq = .idle ∧ t.trace = s.trace ++ (plan i s).events ∧
      t.env = s.env := by
  obtain ⟨t, hdone, htook, henv⟩ := (body_follows_started i s hw).live_done hl hp
  exact ⟨_, (exec_open hg).trans (runOperation_done hdone), rfl, htook.trace, henv⟩

/-- INIT, a panel command, and everything after an INIT pass the gate of R42. -/
theorem not_gated_of_allowed {i : Instr} {s : State} (h : s.inited = true ∨ i = .init ∨ i.isHost = false) :
    ¬ gated i s := by
  rintro ⟨hhost, hne, hinited⟩
  rcases h with h | h | h
  · exact nomatch h.symm.trans hinited
  · exact hne h
  · exact nomatch h.symm.trans hhost

/-- Settles O51: an instruction that the gate lets through ends with its plan. -/
theorem liveOperationsEnd : Obligations.LiveOperationsEnd := fun _ _ hl hw hallowed hp =>
  exec_live_done (not_gated_of_allowed hallowed) hl hw hp

end Sys2Proof.Machine
end
